-- ==== Sys2Proof/Word.lean ====
section
/-! DEFINITION. The two word sizes of the block (`00_scope.md` R10): a word is 32 bits, a byte 8 bits; every quantity is
unsigned (`47_common_laws.md` R157). -/

namespace Sys2Proof

/-- A `u32` (R10): what one bus access moves, what a control register holds, an address of the bus. -/
abbrev Word := BitVec 32

/-- A `u8` (R10): the unit of the byte-stream link and of the ring buffer. -/
abbrev Byte := BitVec 8

end Sys2Proof
end

