-- ==== Sys2Proof/Syntax.lean ====
section
/-! DEFINITION. The operations of the block, one constructor per row of `spec/opcode_table.json`, in the table's order, and
the names of the devices and of the ways a byte frame can fail to encode an operation. -/

namespace Sys2Proof

/-- The three devices of the block (`00_scope.md` R2). -/
inductive Device where
  | encoder
  | funnel
  | sink
deriving DecidableEq, Repr

/-- The direction of a bus transaction (`30_encoding.md` R48). -/
inductive Dir where
  | read
  | write
deriving DecidableEq, Repr

/-- The operations of the block. `off` is a local offset (`40_bus.md` R69); an operation of a known register needs none.
The device operations stand for a bus transaction that has reached its device (`00_scope.md` R12). -/
inductive Instr where
  /-- `BUS.READ(address)`, R67. -/
  | busRead (address : Word)
  /-- `BUS.WRITE(address, value)`, R68. -/
  | busWrite (address value : Word)
  /-- `BUS.RANGE_ERROR`: the bus transaction whose address no mapping contains, R126. -/
  | busRangeError (dir : Dir) (address : Word)
  /-- `TE.CONTROL.RD`, R89. -/
  | teControlRd
  /-- `TE.CONTROL.WR(value)`, R90. -/
  | teControlWr (value : Word)
  /-- `TE.INVALID.RD`, R91. -/
  | teInvalidRd (off : Word)
  /-- `TE.INVALID.WR(value)`, R92. -/
  | teInvalidWr (off value : Word)
  /-- `TF.CONTROL.RD`, R96. -/
  | tfControlRd
  /-- `TF.CONTROL.WR(value)`, R97. -/
  | tfControlWr (value : Word)
  /-- `TF.DIS_INPUT.RD`, R98. -/
  | tfDisInputRd
  /-- `TF.DIS_INPUT.WR(value)`, R99. -/
  | tfDisInputWr (value : Word)
  /-- `TF.INVALID.RD`, R100. -/
  | tfInvalidRd (off : Word)
  /-- `TF.INVALID.WR(value)`, R101. -/
  | tfInvalidWr (off value : Word)
  /-- `TS.CONTROL.RD`, R105. -/
  | tsControlRd
  /-- `TS.CONTROL.WR(value)`, R106. -/
  | tsControlWr (value : Word)
  /-- `TS.WP_LOW.RD`, R107. -/
  | tsWpLowRd
  /-- `TS.WP_LOW.WR(value)`, R110. -/
  | tsWpLowWr (value : Word)
  /-- `TS.RP_LOW.RD`, R108. -/
  | tsRpLowRd
  /-- `TS.RP_LOW.WR(value)`, R110. -/
  | tsRpLowWr (value : Word)
  /-- `TS.DATA.RD`, R109. -/
  | tsDataRd
  /-- `TS.DATA.WR(value)`, R110. -/
  | tsDataWr (value : Word)
  /-- `TS.INVALID.RD`, R111. -/
  | tsInvalidRd (off : Word)
  /-- `TS.INVALID.WR(value)`, R112. -/
  | tsInvalidWr (off value : Word)
  /-- `EMIT(pc, opcode)`, R88. -/
  | emit (pc opcode : Word)
  /-- `TF.PUSH(data)`, R95. -/
  | tfPush (data : List Byte)
  /-- `TS.PUSH(data)`, R104. -/
  | tsPush (data : List Byte)
  /-- `CONFIGURE`, R118. -/
  | configure
  /-- `START`, R119. -/
  | start
  /-- `STOP`, R120. -/
  | stop
  /-- `FETCH(maxWords)`, R121. -/
  | fetch (maxWords : Nat)
deriving DecidableEq, Repr

/-- One issued operation as the model's queue holds it: its bytes (log entry 2). -/
abbrev Frame := List Byte

/-- Why a byte frame encodes no operation. All are safe: the frame is refused at the model's boundary. -/
inductive DecodeError where
  /-- Fewer bytes than an operation's fixed part. -/
  | truncated
  /-- Bytes after an operation that carries no link payload. -/
  | trailingBytes
  /-- A bit set in an operand the operation does not have. -/
  | strayOperand
  /-- An operation code that names no operation. -/
  | unknownOperation
  /-- An 8-bit or 16-bit bus access: `20_memory.md` R37, refused at the model's boundary (`93_implementation_defined.md` U16). -/
  | narrowAccess
  /-- A `FETCH` with no finite budget: refused (`93_implementation_defined.md` U14, `46_driver.md` R124). -/
  | unboundedFetch
deriving DecidableEq, Repr

end Sys2Proof
end

