-- ==== Sys2Proof/Config.lean ====
section
/-! DEFINITION. The parameters that the spec leaves OPEN (`00_scope.md` R7 to R9), as one record, and the record of a
control-register field and of a device's control register (`41_control_register.md` R74). The bit positions themselves are
fixed by `30_encoding.md` R52 to R56 and stand in Machine/Flags.lean. -/

namespace Sys2Proof

/-- The legal maxima `FMAX(f)` of the six WARL-lite fields of the CONTROL registers (R9, R78). -/
structure FieldMax where
  instMode : Nat
  instSyncMode : Nat
  instSyncMax : Nat
  format : Nat
  memFormat : Nat
  asyncFreq : Nat
deriving DecidableEq, Repr

/-- The parameters of one instance of the block: the six numbers of the mapping table (R7, R16), the ring buffer's capacity
in bytes (R8), the legal maxima (R9). No operation writes them. -/
structure Config where
  teBase : Nat
  teSize : Nat
  tfBase : Nat
  tfSize : Nat
  tsBase : Nat
  tsSize : Nat
  cap : Nat
  fmax : FieldMax
deriving DecidableEq, Repr

/-- `FMAX(f) = 2^width(f) - 1` for every field (R78). -/
def FieldMax.full : FieldMax :=
  { instMode := 7, instSyncMode := 3, instSyncMax := 15, format := 7, memFormat := 3, asyncFreq := 7 }

/-- The example bases and sizes of R7 with the maxima of R78. `CAP` = 64 is a DESIGN CHOICE (log entry 1), unsafe for a
statement about the one machine of the reset state: the spec leaves it OPEN. -/
def Config.specExample : Config :=
  { teBase := 0x10000000, teSize := 0x1000
    tfBase := 0x10001000, tfSize := 0x1000
    tsBase := 0x10002000, tsSize := 0x1000
    cap := 64, fmax := FieldMax.full }

/-- One entry of the mapping table: (base, size, device), R16. -/
structure Mapping where
  base : Nat
  size : Nat
  dev : Device
deriving DecidableEq, Repr

/-- The mapping table in its order: Encoder, Funnel, Sink (R16). -/
def Config.table (c : Config) : List Mapping :=
  [⟨c.teBase, c.teSize, .encoder⟩, ⟨c.tfBase, c.tfSize, .funnel⟩, ⟨c.tsBase, c.tsSize, .sink⟩]

/-- A field at bits `hi:lo` with its legal maximum (R59, R78). -/
structure Field where
  hi : Nat
  lo : Nat
  fmax : Nat
deriving DecidableEq, Repr

/-- The descriptor of a device's control register (R74): the mask of Active, the masks of the categories, the WARL-lite
fields, the value after a master reset. -/
structure Desc where
  active : Word
  rwMask : Word
  roMask : Word
  w1cMask : Word
  fields : List Field
  deact : Word
deriving DecidableEq, Repr

end Sys2Proof
end

