-- ==== Sys2Proof/Machine/RegisterMap.lean ====
section
/-! DEFINITION. The register map (`30_encoding.md` R51): offsets relative to a device's base. A register is recognised by
equality of the whole local offset (R50). -/

namespace Sys2Proof.Machine

/-- `CONTROL` of every device (R51). -/
def offControl : Nat := 0x000

/-- `DIS_INPUT` of the Funnel (R51). -/
def offDisInput : Nat := 0x008

/-- `WP_LOW` of the Sink (R51). -/
def offWpLow : Nat := 0x020

/-- `RP_LOW` of the Sink (R51). -/
def offRpLow : Nat := 0x028

/-- `DATA` of the Sink (R51). -/
def offData : Nat := 0x040

/-- The offsets at which a device has a register (R51). -/
def registerOffsets : Device → List Nat
  | .encoder => [offControl]
  | .funnel => [offControl, offDisInput]
  | .sink => [offControl, offWpLow, offRpLow, offData]

/-- Whether a local offset is one of the device's register offsets (R50). -/
def isRegister (d : Device) (off : Nat) : Bool :=
  (registerOffsets d).contains off

end Sys2Proof.Machine
end

