-- ==== Sys2Proof/WellFormed.lean ====
section
/-! DEFINITION. What makes an operation and a configuration well formed. An operation: an INVALID row's offset is no register
of its device (`30_encoding.md` R50, R51); a fetch budget fits the 32-bit operand of the model's frame (log entry 2). A
configuration: `00_scope.md` R7, R8, `20_memory.md` R33, `41_control_register.md` R78. -/

namespace Sys2Proof

/-- The operations that the encoding of Decode.lean can carry: each row with the operands the table gives it. -/
def Instr.wf : Instr → Bool
  | .teInvalidRd off => !Machine.isRegister .encoder off.toNat
  | .teInvalidWr off _ => !Machine.isRegister .encoder off.toNat
  | .tfInvalidRd off => !Machine.isRegister .funnel off.toNat
  | .tfInvalidWr off _ => !Machine.isRegister .funnel off.toNat
  | .tsInvalidRd off => !Machine.isRegister .sink off.toNat
  | .tsInvalidWr off _ => !Machine.isRegister .sink off.toNat
  | .fetch n => decide (n < 2 ^ 32)
  | .busRead _ => true
  | .busWrite _ _ => true
  | .busRangeError _ _ => true
  | .teControlRd => true
  | .teControlWr _ => true
  | .tfControlRd => true
  | .tfControlWr _ => true
  | .tfDisInputRd => true
  | .tfDisInputWr _ => true
  | .tsControlRd => true
  | .tsControlWr _ => true
  | .tsWpLowRd => true
  | .tsWpLowWr _ => true
  | .tsRpLowRd => true
  | .tsRpLowWr _ => true
  | .tsDataRd => true
  | .tsDataWr _ => true
  | .emit _ _ => true
  | .tfPush _ => true
  | .tsPush _ => true
  | .configure => true
  | .start => true
  | .stop => true

/-- `0 <= BASE < 2^32`, `SIZE >= 1`, `BASE + SIZE <= 2^32` (R7); the least size reaches every register of the device (R7). -/
def Mapping.wf (m : Mapping) (minSize : Nat) : Bool :=
  decide (m.base < 2 ^ 32) && decide (1 ≤ m.size) && decide (m.base + m.size ≤ 2 ^ 32) && decide (minSize ≤ m.size)

/-- The half-open intervals of two entries are disjoint (R33). -/
def Mapping.disjoint (a b : Mapping) : Bool :=
  decide (a.base + a.size ≤ b.base) || decide (b.base + b.size ≤ a.base)

/-- Each legal maximum fits its field's width (R53, R56, R78). -/
def FieldMax.wf (m : FieldMax) : Bool :=
  decide (m.instMode ≤ 7) && decide (m.instSyncMode ≤ 3) && decide (m.instSyncMax ≤ 15) && decide (m.format ≤ 7)
    && decide (m.memFormat ≤ 3) && decide (m.asyncFreq ≤ 7)

/-- The mapping table part of a well-formed configuration (R7, R33). -/
def Config.mapWf (c : Config) : Bool :=
  Mapping.wf ⟨c.teBase, c.teSize, .encoder⟩ 0x004
    && Mapping.wf ⟨c.tfBase, c.tfSize, .funnel⟩ 0x00C
    && Mapping.wf ⟨c.tsBase, c.tsSize, .sink⟩ 0x044
    && Mapping.disjoint ⟨c.teBase, c.teSize, .encoder⟩ ⟨c.tfBase, c.tfSize, .funnel⟩
    && Mapping.disjoint ⟨c.teBase, c.teSize, .encoder⟩ ⟨c.tsBase, c.tsSize, .sink⟩
    && Mapping.disjoint ⟨c.tfBase, c.tfSize, .funnel⟩ ⟨c.tsBase, c.tsSize, .sink⟩

/-- A configuration the spec describes; `step` refuses to run any other (`93_implementation_defined.md` U3, U4, U12). -/
def Config.wf (c : Config) : Bool :=
  c.mapWf && decide (1 ≤ c.cap) && decide (c.cap ≤ 2 ^ 32) && c.fmax.wf

end Sys2Proof
end

