-- ==== Sys2Proof/Machine/Operands.lean ====
section
/-! DEFINITION. Operand assembly: field extraction and insertion (`30_encoding.md` R59), the little-endian byte orders of
`20_memory.md` R38 and R39 (`LE32` and `LE32inv` of `00_scope.md` R11), the cursor view of R57. -/

namespace Sys2Proof

/-- `w = hi - lo + 1` (R59). -/
def Field.width (f : Field) : Nat := f.hi - f.lo + 1

/-- `2^w - 1` as a word (R59). -/
def Field.ones (f : Field) : Word := BitVec.ofNat 32 (2 ^ f.width - 1)

/-- `get(f, v) = (v >> lo) & (2^w - 1)` (R59). -/
def Field.get (f : Field) (v : Word) : Nat := ((v >>> f.lo) &&& f.ones).toNat

/-- `put(f, n) = (n & (2^w - 1)) << lo` (R59). -/
def Field.put (f : Field) (n : Nat) : Word := (BitVec.ofNat 32 n &&& f.ones) <<< f.lo

/-- `mask(f)`: the bits `hi:lo` (R75). -/
def Field.mask (f : Field) : Word := f.ones <<< f.lo

namespace Machine

/-- `LE32(w) = [w[7:0], w[15:8], w[23:16], w[31:24]]` (R11, R38). -/
def le32 (w : Word) : List Byte :=
  [w.extractLsb' 0 8, w.extractLsb' 8 8, w.extractLsb' 16 8, w.extractLsb' 24 8]

/-- `LE32inv([b0,b1,b2,b3]) = b0 | b1<<8 | b2<<16 | b3<<24` (R11, R39). -/
def le32inv (b0 b1 b2 b3 : Byte) : Word :=
  b0.setWidth 32 ||| b1.setWidth 32 <<< 8 ||| b2.setWidth 32 <<< 16 ||| b3.setWidth 32 <<< 24

/-- The trace record: `LE32(pc) ++ LE32(opcode)` (`20_memory.md` R38, `30_encoding.md` R61). -/
def traceRecord (pc opcode : Word) : List Byte := le32 pc ++ le32 opcode

/-- `PTR_MASK` (R57). -/
def ptrMask : Word := 0xFFFFFFFC

/-- A cursor as `WP_LOW` and `RP_LOW` return it: its low two bits cleared (R57, `20_memory.md` R42). -/
def cursorWord (cursor : Nat) : Word := BitVec.ofNat 32 cursor &&& ptrMask

end Machine

end Sys2Proof
end

