-- ==== Sys2Proof/Decode.lean ====
section
/-! DEFINITION. Decoding. The spec's decode is of a bus transaction, by its address into a device and a local offset
(`30_encoding.md` R49) and by the whole offset into a register's row (R50, R51): `resolve` and `deviceRow`. The spec's
encoding of an operation is the transaction itself (R65), with no bytes; the byte frame below is the model's own carrier of
it, a DESIGN CHOICE (log entry 2):

  bytes 0 to 3   operand A, little-endian: local offset, bus address, pc, or fetch budget
  byte  4        operation code
  bytes 5 to 8   operand B, little-endian: written value, or opcode
  bytes 9 ...    link payload (pushes only) -/

namespace Sys2Proof

namespace Machine

/-- Containment: `base <= a` and `a - base < size`, on naturals (`20_memory.md` R34). -/
def contains (m : Mapping) (a : Word) : Bool :=
  decide (m.base ≤ a.toNat) && decide (a.toNat - m.base < m.size)

/-- The first containing entry of the table, with the local offset (`40_bus.md` R69, `20_memory.md` R35). -/
def resolveIn : List Mapping → Word → Option (Device × Nat)
  | [], _ => none
  | m :: ms, a => if contains m a then some (m.dev, a.toNat - m.base) else resolveIn ms a

/-- Address resolution (`40_bus.md` R69). -/
def resolve (c : Config) (a : Word) : Option (Device × Nat) := resolveIn c.table a

end Machine

/-- The row of a read that reached device `d` at local offset `off` (R50, R51; `40_bus.md` R70). -/
def deviceReadRow (d : Device) (off : Word) : Instr :=
  match d with
  | .encoder => if off.toNat = Machine.offControl then .teControlRd else .teInvalidRd off
  | .funnel =>
    if off.toNat = Machine.offControl then .tfControlRd
    else if off.toNat = Machine.offDisInput then .tfDisInputRd
    else .tfInvalidRd off
  | .sink =>
    if off.toNat = Machine.offControl then .tsControlRd
    else if off.toNat = Machine.offWpLow then .tsWpLowRd
    else if off.toNat = Machine.offRpLow then .tsRpLowRd
    else if off.toNat = Machine.offData then .tsDataRd
    else .tsInvalidRd off

/-- The row of a write that reached device `d` at local offset `off` (R50, R51; `40_bus.md` R71). -/
def deviceWriteRow (d : Device) (off value : Word) : Instr :=
  match d with
  | .encoder => if off.toNat = Machine.offControl then .teControlWr value else .teInvalidWr off value
  | .funnel =>
    if off.toNat = Machine.offControl then .tfControlWr value
    else if off.toNat = Machine.offDisInput then .tfDisInputWr value
    else .tfInvalidWr off value
  | .sink =>
    if off.toNat = Machine.offControl then .tsControlWr value
    else if off.toNat = Machine.offWpLow then .tsWpLowWr value
    else if off.toNat = Machine.offRpLow then .tsRpLowWr value
    else if off.toNat = Machine.offData then .tsDataWr value
    else .tsInvalidWr off value

/-- An operation that has no operand B: its bytes must be 0. -/
def withoutB (b : Word) (i : Instr) : Except DecodeError Instr :=
  if b = 0 then .ok i else .error .strayOperand

/-- An operation that has neither operand. -/
def withoutAB (a b : Word) (i : Instr) : Except DecodeError Instr :=
  if a = 0 then withoutB b i else .error .strayOperand

/-- The operation of a frame without payload, by its code. -/
def decodeFixed (code : Nat) (a b : Word) : Except DecodeError Instr :=
  match code with
  | 0x00 => withoutB b (deviceReadRow .sink a)
  | 0x01 => .ok (deviceWriteRow .sink a b)
  | 0x02 => withoutB b (deviceReadRow .funnel a)
  | 0x03 => .ok (deviceWriteRow .funnel a b)
  | 0x04 => withoutB b (deviceReadRow .encoder a)
  | 0x05 => .ok (deviceWriteRow .encoder a b)
  | 0x06 => withoutB b (.busRead a)
  | 0x07 => .ok (.busWrite a b)
  | 0x08 => withoutB b (.busRangeError .read a)
  | 0x09 => withoutB b (.busRangeError .write a)
  | 0x0A => .ok (.emit a b)
  | 0x0D => withoutAB a b .configure
  | 0x0E => withoutAB a b .start
  | 0x0F => withoutAB a b .stop
  | 0x10 => withoutB b (.fetch a.toNat)
  | 0x11 => .error .unboundedFetch
  | 0x12 => .error .narrowAccess
  | 0x13 => .error .narrowAccess
  | 0x14 => .error .narrowAccess
  | 0x15 => .error .narrowAccess
  | _ => .error .unknownOperation

/-- The operation of a frame, by its code: the two pushes carry a payload of any length (R62), nothing else carries one. -/
def decodeOperands (code : Nat) (a b : Word) (payload : List Byte) : Except DecodeError Instr :=
  match code with
  | 0x0B => withoutAB a b (.tfPush payload)
  | 0x0C => withoutAB a b (.tsPush payload)
  | _ =>
    match payload with
    | [] => decodeFixed code a b
    | _ :: _ => .error .trailingBytes

/-- Decoding is total on any bytes and rejects by name. -/
def decode (f : Frame) : Except DecodeError Instr :=
  match f with
  | a0 :: a1 :: a2 :: a3 :: code :: b0 :: b1 :: b2 :: b3 :: payload =>
    decodeOperands code.toNat (Machine.le32inv a0 a1 a2 a3) (Machine.le32inv b0 b1 b2 b3) payload
  | _ => .error .truncated

/-- A frame from its parts. -/
def frameOf (code : Byte) (a b : Word) (payload : List Byte) : Frame :=
  Machine.le32 a ++ code :: (Machine.le32 b ++ payload)

/-- The frame of a well-formed operation. A known register's row carries that register's offset (R51). -/
def encode : Instr → Frame
  | .busRead a => frameOf 0x06 a 0 []
  | .busWrite a v => frameOf 0x07 a v []
  | .busRangeError .read a => frameOf 0x08 a 0 []
  | .busRangeError .write a => frameOf 0x09 a 0 []
  | .teControlRd => frameOf 0x04 0x000 0 []
  | .teControlWr v => frameOf 0x05 0x000 v []
  | .teInvalidRd off => frameOf 0x04 off 0 []
  | .teInvalidWr off v => frameOf 0x05 off v []
  | .tfControlRd => frameOf 0x02 0x000 0 []
  | .tfControlWr v => frameOf 0x03 0x000 v []
  | .tfDisInputRd => frameOf 0x02 0x008 0 []
  | .tfDisInputWr v => frameOf 0x03 0x008 v []
  | .tfInvalidRd off => frameOf 0x02 off 0 []
  | .tfInvalidWr off v => frameOf 0x03 off v []
  | .tsControlRd => frameOf 0x00 0x000 0 []
  | .tsControlWr v => frameOf 0x01 0x000 v []
  | .tsWpLowRd => frameOf 0x00 0x020 0 []
  | .tsWpLowWr v => frameOf 0x01 0x020 v []
  | .tsRpLowRd => frameOf 0x00 0x028 0 []
  | .tsRpLowWr v => frameOf 0x01 0x028 v []
  | .tsDataRd => frameOf 0x00 0x040 0 []
  | .tsDataWr v => frameOf 0x01 0x040 v []
  | .tsInvalidRd off => frameOf 0x00 off 0 []
  | .tsInvalidWr off v => frameOf 0x01 off v []
  | .emit pc opcode => frameOf 0x0A pc opcode []
  | .tfPush data => frameOf 0x0B 0 0 data
  | .tsPush data => frameOf 0x0C 0 0 data
  | .configure => frameOf 0x0D 0 0 []
  | .start => frameOf 0x0E 0 0 []
  | .stop => frameOf 0x0F 0 0 []
  | .fetch n => frameOf 0x10 (BitVec.ofNat 32 n) 0 []

/-- Byte `i` of the number `w`, its least significant byte first. -/
def byteAt (w i : Nat) : Byte := BitVec.ofNat 8 (w >>> (8 * i))

/-- The bytes `i, i+1, ...` of the number `w`, `n` of them. -/
def bytesFrom (w : Nat) : Nat → Nat → List Byte
  | 0, _ => []
  | n + 1, i => byteAt w i :: bytesFrom w n (i + 1)

/-- The frame whose bits are `w` for its first `nbits` bits and 0 above, up to the fixed part of a frame. -/
def wordFrame (nbits w : Nat) : Frame :=
  bytesFrom (w % 2 ^ nbits) (max 9 ((nbits + 7) / 8)) 0

/-- The operation the decoder reads from a table word. The table gives a register row its local offset and no bit for its
device or direction (R51), so six rows share the word 0 and no decoder can tell them apart from the word alone: with the
bits above the word at 0 the frame is a read of the Sink (log entry 2). -/
def decodeTableWord (nbits w : Nat) : Option Instr :=
  match decode (wordFrame nbits w) with
  | .ok i => some i
  | .error _ => none

end Sys2Proof
end

