-- ==== Sys2Proof/Machine/State.lean ====
section
/-! DEFINITION. The state of the block as plain data (`10_state.md`), the reasons a step can stop, and the state after
construction. The nine items of R13 stand under their owners: `te.ctrl`, `tf.ctrl`, `tf.dis`, `ts.ctrl`, `ts.buf`, `ts.wp`,
`ts.rp`, `ts.count`, `ts.dropped`. -/

namespace Sys2Proof.Machine

/-- The ring buffer's bytes by index (R21): addresses strictly rising, no entry equal to what an unlisted index reads as. -/
abbrev Memory := List Host.Cell

/-- What an unlisted index reads as: the reset content of `buf`, every byte 0 (R30). -/
def unlistedByte : Byte := 0

/-- The Encoder's state (R17): `te_ctrl`. -/
structure Encoder where
  ctrl : Word
deriving DecidableEq, Repr

/-- The Funnel's state (R18, R19): `tf_ctrl`, `tf_dis`. -/
structure Funnel where
  ctrl : Word
  dis : Word
deriving DecidableEq, Repr

/-- The Sink's state (R20 to R24): `ts_ctrl`, `buf`, `wp`, `rp`, `count`, `dropped`. -/
structure Sink where
  ctrl : Word
  buf : Memory
  wp : Nat
  rp : Nat
  count : Nat
  dropped : Nat
deriving DecidableEq, Repr

/-- How a read-modify-write of `START` or `STOP` changes Enable (`46_driver.md` R119, R120). -/
inductive EnableUpdate where
  /-- `c | ENABLE`. -/
  | set
  /-- `c & ~ENABLE`. -/
  | clear
deriving DecidableEq, Repr

/-- A line of the straight-line sequences `CONFIGURE`, `START` and `STOP`: one bus operation and what the driver does with it
(`46_driver.md` R118 to R120). -/
inductive Line where
  /-- `WR address, value`. -/
  | write (address value : Word)
  /-- `RD address -> x ; assert x & mask == expected`. -/
  | readBack (address mask expected : Word)
  /-- `RD address -> c`. -/
  | load (address : Word)
  /-- `WR address, u c`. -/
  | update (address : Word) (u : EnableUpdate)
  /-- `RD address -> c2 ; assert` what the sequence says of `c` and `c2`. -/
  | verify (address : Word) (u : EnableUpdate)
deriving DecidableEq, Repr

/-- Which of the three reads of the loop of `FETCH` comes next (`46_driver.md` R121). -/
inductive FetchLine where
  /-- `RD TS+0x020 -> w`. -/
  | wpLow
  /-- `RD TS+0x028 -> r`, with the `w` of the read before it. -/
  | rpLow (w : Word)
  /-- `RD TS+0x040 -> d`. -/
  | data
deriving DecidableEq, Repr

/-- A driver sequence at one of its lines: what is still to do, and the local variables of the call. -/
inductive Sequence where
  /-- The line that comes next, those after it, and the word that the last `RD ... -> c` bound (0 before the
  first, and then no line reads it). -/
  | lines (next : Line) (rest : List Line) (c : Word)
  /-- `FETCH` in its loop: how many words may follow the one it is at, the words collected, and the read that comes next. -/
  | fetch (more : Nat) (result : List Word) (next : FetchLine)
deriving DecidableEq, Repr

/-- Whose turn it is (`00_scope.md` R6, `20_memory.md` R47, `46_driver.md` R123). -/
inductive Turn where
  /-- An agent's whole operation: an atomic one, or a driver sequence under the lock of R123, with nothing between its lines. -/
  | operation (f : Frame)
  /-- A driver sequence is called without that lock: its lines are turns of their own. An operation that is no sequence is
  performed. -/
  | call (f : Frame)
  /-- The next line of the sequence at a place of `State.running`. -/
  | line (k : Nat)
deriving DecidableEq, Repr

/-- The outcome of an operation as the agent that issued it sees it (`30_encoding.md` R48, `60_exceptions.md` R136).
The model's own (log entry 3): no operation reads it. -/
inductive Response where
  /-- No operation has completed since construction. -/
  | nothing
  /-- A normal end without a result. -/
  | done
  /-- The word a bus read returns. -/
  | word (w : Word)
  /-- The list a `FETCH` returns. -/
  | words (ws : List Word)
  /-- Error class (a), carrying the address (R126). -/
  | rangeError (address : Word)
  /-- Error class (c): a driver sequence stopped at an assertion (R122, R128). -/
  | assertionFailed
deriving DecidableEq, Repr

/-- The conditions the spec marks `log(...)` (`60_exceptions.md` R131). DESIGN CHOICE: SinkOverflow, class (d), is none of them;
the prose of R125 gives it a log line, R104 and R129 do not (log entry 4). -/
inductive LogEvent where
  /-- Error class (b), R127. -/
  | invalidOffset (d : Device)
  /-- A push dropped by the Funnel's closed gate (`44_funnel.md` R95). -/
  | funnelGated
  /-- A push dropped because `tf_dis` is not 0 (`44_funnel.md` R95). -/
  | funnelInputDisabled
  /-- A push dropped by the Sink's closed gate (`45_sink.md` R104). -/
  | sinkGated
  /-- Error class (e), R130. -/
  | shortRead
deriving DecidableEq, Repr

/-- The state of the model. `te`, `tf`, `ts` are the block's (R13). `cfg` is configuration that no operation writes (R16, log
entry 1). `response`, `log`, `pending` and `running` are the model's own (log entries 2 to 5): `running` holds the driver
calls in progress, which are software and no state of the block (`46_driver.md` R117). -/
structure State where
  cfg : Config
  te : Encoder
  tf : Funnel
  ts : Sink
  response : Response
  log : List LogEvent
  pending : List Turn
  running : List Sequence
deriving DecidableEq, Repr

/-- Why the machine stops with a fault. -/
inductive Fault where
  /-- Raised by `step` alone, in a state where a cursor is at or above CAP or `count` is above CAP: an access at such an index
  would name a byte of `buf` that does not exist (`20_memory.md` R31). No run from construction reaches such a state (R26).
  Safe. -/
  | ringIndexOutOfRange
deriving DecidableEq, Repr

/-- Why an operation gets no meaning. -/
inductive Refusal where
  /-- Raised by an arm of `exec` whose operation has no meaning yet. No arm raises it. Safe. -/
  | notModelled (mnemonic : String)
  /-- Raised by `step` under a configuration the spec excludes (`93_implementation_defined.md` U3, U4, U12). Safe. -/
  | illFormedConfig
  /-- Raised by `step` when the pending frame encodes no operation the spec has. Safe. -/
  | undecodable (why : DecodeError)
  /-- Raised by `BUS.RANGE_ERROR` for an address some mapping contains: the row is not selected there (R126). Safe. -/
  | addressIsMapped
deriving DecidableEq, Repr

/-- The Sink's buffer and register after construction and after a master reset but for `dropped` (R30, `45_sink.md` R106). -/
def Sink.cleared (dropped : Nat) : Sink :=
  { ctrl := 0x00000008, buf := [], wp := 0, rp := 0, count := 0, dropped := dropped }

/-- The state after construction of an instance with the given parameters (R30, `70_reset_and_hazards.md` R141). The model's
own fields start empty (log entries 2 to 5). -/
def State.construct (c : Config) : State :=
  { cfg := c
    te := { ctrl := 0x00000000 }
    tf := { ctrl := 0x00000000, dis := 0x00000000 }
    ts := Sink.cleared 0
    response := .nothing
    log := []
    pending := []
    running := [] }

/-- The machine right after reset: construction with the spec's example parameters (log entry 1). -/
def State.reset : State := State.construct Config.specExample

end Sys2Proof.Machine
end

