-- ==== Sys2Proof/Machine/Flags.lean ====
section
/-! DEFINITION. The bits of the control registers: masks (`30_encoding.md` R52 to R56), the three descriptors and gates,
`CtrlWrite` (`41_control_register.md` R75), the status bit Empty (`10_state.md` R28), and the device states of R81. -/

namespace Sys2Proof.Machine

/-- `Active`, bit 0 of all three (R52). -/
def maskActive : Word := 0x00000001

/-- `Enable`, bit 1 of all three (R52). -/
def maskEnable : Word := 0x00000002

/-- `InstTracing`, bit 2 of the Encoder's (R53). -/
def maskInstTracing : Word := 0x00000004

/-- `Empty`, bit 3 of all three (R52). -/
def maskEmpty : Word := 0x00000008

/-- `InstStallOrOverflow`, bit 12 of the Encoder's: the one RW1C bit of the block (R53, R79). -/
def maskInstStallOrOverflow : Word := 0x00001000

/-- `TF_DIS_MASK` (R55). -/
def maskDisInput : Word := 0x0000FFFF

/-- The WARL-lite fields of `te_ctrl` (R53). -/
def fieldInstMode (m : FieldMax) : Field := { hi := 6, lo := 4, fmax := m.instMode }
def fieldInstSyncMode (m : FieldMax) : Field := { hi := 17, lo := 16, fmax := m.instSyncMode }
def fieldInstSyncMax (m : FieldMax) : Field := { hi := 23, lo := 20, fmax := m.instSyncMax }
def fieldFormat (m : FieldMax) : Field := { hi := 26, lo := 24, fmax := m.format }

/-- The WARL-lite fields of `ts_ctrl` (R56). -/
def fieldMemFormat (m : FieldMax) : Field := { hi := 10, lo := 9, fmax := m.memFormat }
def fieldAsyncFreq (m : FieldMax) : Field := { hi := 14, lo := 12, fmax := m.asyncFreq }

/-- The Encoder's descriptor (`43_encoder.md` R87). -/
def teDesc (m : FieldMax) : Desc :=
  { active := maskActive, rwMask := 0x07F3AA77, roMask := maskEmpty, w1cMask := maskInstStallOrOverflow
    fields := [fieldInstMode m, fieldInstSyncMode m, fieldInstSyncMax m, fieldFormat m]
    deact := maskEmpty }

/-- The Funnel's descriptor (`44_funnel.md` R94). -/
def tfDesc : Desc :=
  { active := maskActive, rwMask := 0x00000003, roMask := maskEmpty, w1cMask := 0x00000000
    fields := [], deact := 0x00000000 }

/-- The Sink's descriptor (`45_sink.md` R103). -/
def tsDesc (m : FieldMax) : Desc :=
  { active := maskActive, rwMask := 0x00007713, roMask := maskEmpty, w1cMask := 0x00000000
    fields := [fieldMemFormat m, fieldAsyncFreq m], deact := maskEmpty }

/-- The reserved bits of a control register: those in no category (R60, R74). -/
def reservedMask (d : Desc) : Word := ~~~(d.rwMask ||| d.roMask ||| d.w1cMask)

/-- Whether a one-bit field is 1. -/
def bitOn (w mask : Word) : Bool := decide (w &&& mask ≠ 0)

/-- A word with the bits of a mask set to `b` and no other bit changed (`00_scope.md` R11, `reg.Field <- b`). -/
def setBit (w mask : Word) (b : Bool) : Word := if b then w ||| mask else w &&& ~~~mask

/-- One turn of the clamp loop of R75: the field is cut out of `value`, saturated at its maximum, put in place (R78). -/
def clampField (value acc : Word) (f : Field) : Word :=
  (acc &&& ~~~f.mask) ||| f.put (if f.get value > f.fmax then f.fmax else f.get value)

/-- `CtrlWrite(d, old, value)` (R75): master reset first (R76), then RO kept and RW taken (R77), WARL-lite clamp (R78), write
1 to clear (R79). -/
def ctrlWrite (d : Desc) (old value : Word) : Word :=
  if value &&& d.active = 0 then d.deact
  else
    d.fields.foldl (clampField value) ((old &&& (d.roMask ||| d.w1cMask)) ||| (value &&& d.rwMask))
      &&& ~~~(value &&& d.w1cMask)

/-- The Encoder's gate: `Active & Enable & InstTracing` (R87). -/
def teGate (te : Encoder) : Bool :=
  bitOn te.ctrl maskActive && bitOn te.ctrl maskEnable && bitOn te.ctrl maskInstTracing

/-- The Funnel's gate: `Active & Enable` (R94). -/
def tfGate (tf : Funnel) : Bool := bitOn tf.ctrl maskActive && bitOn tf.ctrl maskEnable

/-- The Sink's gate: `Active & Enable` (R103). -/
def tsGate (ts : Sink) : Bool := bitOn ts.ctrl maskActive && bitOn ts.ctrl maskEnable

/-- `te_ctrl.Empty <- b`. -/
def Encoder.setEmpty (te : Encoder) (b : Bool) : Encoder := { te with ctrl := setBit te.ctrl maskEmpty b }

/-- `ts_ctrl.Empty <- b`. -/
def Sink.setEmpty (ts : Sink) (b : Bool) : Sink := { ts with ctrl := setBit ts.ctrl maskEmpty b }

/-- `ts_ctrl.Empty <- (count == 0)` (R105, R106, R109). -/
def Sink.recomputeEmpty (ts : Sink) : Sink := ts.setEmpty (decide (ts.count = 0))

/-- The device states of R81, predicates of the control register and not extra state. -/
inductive DeviceState where
  | inactive
  | activeIdle
  | activeRunning
deriving DecidableEq, Repr

/-- The state of a device from its Active bit and its gate (R81). -/
def deviceStateOf (active gate : Bool) : DeviceState :=
  if active then (if gate then .activeRunning else .activeIdle) else .inactive

/-- The Encoder's device state (R81). -/
def teState (te : Encoder) : DeviceState := deviceStateOf (bitOn te.ctrl maskActive) (teGate te)

/-- The Funnel's device state (R81). -/
def tfState (tf : Funnel) : DeviceState := deviceStateOf (bitOn tf.ctrl maskActive) (tfGate tf)

/-- The Sink's device state (R81). -/
def tsState (ts : Sink) : DeviceState := deviceStateOf (bitOn ts.ctrl maskActive) (tsGate ts)

end Sys2Proof.Machine
end

