-- ==== Sys2Proof/Machine/Ops.lean ====
section
/-! DEFINITION. The named operations over the ring buffer, the devices and the bus, which every meaning is written with, and
the one exceptional outcome of the block, `RangeError`, with what its return is. -/

namespace Sys2Proof.Machine

/-- The byte at an index (`10_state.md` R21). -/
def Memory.read : Memory → Nat → Byte
  | [], _ => unlistedByte
  | (k, b) :: m, a => if k = a then b else Memory.read m a

/-- The buffer with a byte stored at an index, in canonical form. -/
def Memory.write : Memory → Nat → Byte → Memory
  | [], a, v => if v = unlistedByte then [] else [(a, v)]
  | (k, b) :: m, a, v =>
    if a < k then (if v = unlistedByte then (k, b) :: m else (a, v) :: (k, b) :: m)
    else if a = k then (if v = unlistedByte then m else (a, v) :: m)
    else (k, b) :: Memory.write m a v

/-- The canonical form above a lower bound: indices strictly rising from `lo`, no entry equal to `unlistedByte`. -/
def Memory.wfFrom : Memory → Nat → Bool
  | [], _ => true
  | (k, b) :: m, lo => decide (lo ≤ k) && decide (b ≠ unlistedByte) && Memory.wfFrom m (k + 1)

/-- The canonical form: equal buffers are equal data. -/
def Memory.wf (m : Memory) : Bool := Memory.wfFrom m 0

/-- Every listed index lies in `0 .. cap-1` (`20_memory.md` R31). -/
def Memory.within (m : Memory) (cap : Nat) : Bool := m.all fun c => decide (c.1 < cap)

/-- The Sink's cursors and count lie in the ranges of `10_state.md` R13. -/
def ringInRange (c : Config) (ts : Sink) : Bool :=
  decide (ts.wp < c.cap) && decide (ts.rp < c.cap) && decide (ts.count ≤ c.cap)

/-- The state with the outcome of an operation reported to its agent. -/
def State.respond (s : State) (r : Response) : State := { s with response := r }

/-- The state with an event appended to the ghost log (`60_exceptions.md` R131). -/
def State.logged (s : State) (e : LogEvent) : State := { s with log := s.log ++ [e] }

/-- An operation that ends normally without a result. -/
def endDone (s : State) : Host.Outcome State Fault Refusal := .next (s.respond .done)

/-- A bus read that ends with a word. -/
def endWord (p : Word × State) : Host.Outcome State Fault Refusal := .next (p.2.respond (.word p.1))

/-- TAKING THE ONE EXCEPTION: `raise RangeError(address)` (`60_exceptions.md` R126, R134). The operation ends with the error as
its outcome; nothing is saved, no mode changes, no control is transferred, and the block's state is the state before the
operation. RETURN (R135): there is nothing to return from and nothing to restore; the next operation finds this state. -/
def raiseRangeError (address : Word) (s : State) : Host.Outcome State Fault Refusal :=
  .next (s.respond (.rangeError address))

/-- One byte stored by the loop of `45_sink.md` R104: at `wp`, which advances modulo CAP; `count` grows; Empty is cleared. -/
def Sink.store (cap : Nat) (ts : Sink) (b : Byte) : Sink :=
  Sink.setEmpty { ts with buf := ts.buf.write ts.wp b, wp := (ts.wp + 1) % cap, count := ts.count + 1 } false

/-- The byte loop of `45_sink.md` R104: store until the buffer is full, then count the rest as dropped. DESIGN CHOICE: the
overflow appends no event to the ghost log, as in the pseudocode of R104 and in `60_exceptions.md` R129, against the prose of
R125, which gives class (d) a log line (log entry 4). -/
def Sink.storeAll (cap : Nat) : Sink → List Byte → Sink
  | ts, [] => ts
  | ts, b :: bs =>
    if ts.count = cap then { ts with dropped := ts.dropped + (b :: bs).length }
    else Sink.storeAll cap (ts.store cap b) bs

/-- `TS.PUSH(data)` (`45_sink.md` R104). -/
def sinkPush (data : List Byte) (s : State) : State :=
  if tsGate s.ts then { s with ts := s.ts.storeAll s.cfg.cap data } else s.logged .sinkGated

/-- `TF.PUSH(data)` (`44_funnel.md` R95): the control gate is tested before `tf_dis` (`60_exceptions.md` R133). -/
def funnelPush (data : List Byte) (s : State) : State :=
  if tfGate s.tf then
    if s.tf.dis = 0 then sinkPush data s else s.logged .funnelInputDisabled
  else s.logged .funnelGated

/-- `EMIT(pc, opcode)` (`43_encoder.md` R88). -/
def encoderEmit (pc opcode : Word) (s : State) : State :=
  if teGate s.te then funnelPush (traceRecord pc opcode) { s with te := s.te.setEmpty false } else s

/-- A read at an invalid offset: 0, logged, no state change (`60_exceptions.md` R127). -/
def invalidRead (d : Device) (s : State) : Word × State := (0, s.logged (.invalidOffset d))

/-- A write at an invalid offset: ignored, logged (`60_exceptions.md` R127). -/
def invalidWrite (d : Device) (s : State) : State := s.logged (.invalidOffset d)

/-- `TE.CONTROL.RD` (`43_encoder.md` R89): the register as stored. -/
def teControlRead (s : State) : Word × State := (s.te.ctrl, s)

/-- `TE.CONTROL.WR` (`43_encoder.md` R90). -/
def teControlWrite (value : Word) (s : State) : State :=
  { s with te := { ctrl := ctrlWrite (teDesc s.cfg.fmax) s.te.ctrl value } }

/-- `TF.CONTROL.RD` (`44_funnel.md` R96). -/
def tfControlRead (s : State) : Word × State := (s.tf.ctrl, s)

/-- `TF.CONTROL.WR` (`44_funnel.md` R97): `tf_dis` keeps its value, also through a master reset. -/
def tfControlWrite (value : Word) (s : State) : State :=
  { s with tf := { s.tf with ctrl := ctrlWrite tfDesc s.tf.ctrl value } }

/-- `TF.DIS_INPUT.RD` (`44_funnel.md` R98). -/
def tfDisInputRead (s : State) : Word × State := (s.tf.dis, s)

/-- `TF.DIS_INPUT.WR` (`44_funnel.md` R99): masked, then clamped to 16 bits. -/
def tfDisInputWrite (value : Word) (s : State) : State :=
  { s with tf := { s.tf with
      dis := if (value &&& maskDisInput).toNat > 0xFFFF then maskDisInput else value &&& maskDisInput } }

/-- `TS.CONTROL.RD` (`45_sink.md` R105): Empty recomputed, then the register. -/
def tsControlRead (s : State) : Word × State :=
  (s.ts.recomputeEmpty.ctrl, { s with ts := s.ts.recomputeEmpty })

/-- `TS.CONTROL.WR` (`45_sink.md` R106): master reset of the Sink (`dropped` is kept, `10_state.md` R24), or `CtrlWrite`
followed by Empty recomputed. -/
def tsControlWrite (value : Word) (s : State) : State :=
  if value &&& maskActive = 0 then { s with ts := Sink.cleared s.ts.dropped }
  else { s with
    ts := Sink.recomputeEmpty { s.ts with ctrl := ctrlWrite (tsDesc s.cfg.fmax) s.ts.ctrl value } }

/-- `TS.WP_LOW.RD` (`45_sink.md` R107). -/
def tsWpLowRead (s : State) : Word × State := (cursorWord s.ts.wp, s)

/-- `TS.RP_LOW.RD` (`45_sink.md` R108). -/
def tsRpLowRead (s : State) : Word × State := (cursorWord s.ts.rp, s)

/-- The word of four successive bytes from the read cursor (`20_memory.md` R39, `45_sink.md` R109). -/
def Sink.frontWord (cap : Nat) (ts : Sink) : Word :=
  le32inv (ts.buf.read ts.rp) (ts.buf.read ((ts.rp + 1) % cap))
    (ts.buf.read ((ts.rp + 2) % cap)) (ts.buf.read ((ts.rp + 3) % cap))

/-- The Sink after a pop (`45_sink.md` R109); the popped bytes stay in `buf`. -/
def Sink.pop (cap : Nat) (ts : Sink) : Sink :=
  Sink.recomputeEmpty { ts with rp := (ts.rp + 4) % cap, count := ts.count - 4 }

/-- `TS.DATA.RD` (`45_sink.md` R109): pop on read, or a short read. -/
def tsDataRead (s : State) : Word × State :=
  if s.ts.count < 4 then (0, s.logged .shortRead)
  else (s.ts.frontWord s.cfg.cap, { s with ts := s.ts.pop s.cfg.cap })

/-- A write of `WP_LOW`, `RP_LOW` or `DATA`: accepted but ignored, not logged (`45_sink.md` R110). -/
def ignoredWrite (s : State) : State := s

/-- The device mux for reads, `dev_read(dev, off)` (`40_bus.md` R70). -/
def devRead (d : Device) (off : Nat) (s : State) : Word × State :=
  match d with
  | .encoder => if off = offControl then teControlRead s else invalidRead .encoder s
  | .funnel =>
    if off = offControl then tfControlRead s
    else if off = offDisInput then tfDisInputRead s
    else invalidRead .funnel s
  | .sink =>
    if off = offControl then tsControlRead s
    else if off = offWpLow then tsWpLowRead s
    else if off = offRpLow then tsRpLowRead s
    else if off = offData then tsDataRead s
    else invalidRead .sink s

/-- The device mux for writes, `dev_write(dev, off, value)` (`40_bus.md` R71). -/
def devWrite (d : Device) (off : Nat) (value : Word) (s : State) : State :=
  match d with
  | .encoder => if off = offControl then teControlWrite value s else invalidWrite .encoder s
  | .funnel =>
    if off = offControl then tfControlWrite value s
    else if off = offDisInput then tfDisInputWrite value s
    else invalidWrite .funnel s
  | .sink =>
    if off = offControl then tsControlWrite value s
    else if off = offWpLow then ignoredWrite s
    else if off = offRpLow then ignoredWrite s
    else if off = offData then ignoredWrite s
    else invalidWrite .sink s

/-- `BUS.READ` as its caller sees it (`40_bus.md` R67): a word, or none for `RangeError`. -/
def busLoad (address : Word) (s : State) : Option (Word × State) :=
  match resolve s.cfg address with
  | none => none
  | some (d, off) => some (devRead d off s)

/-- `BUS.WRITE` as its caller sees it (`40_bus.md` R68): none for `RangeError`. -/
def busStore (address value : Word) (s : State) : Option State :=
  match resolve s.cfg address with
  | none => none
  | some (d, off) => some (devWrite d off value s)

/-- The three fixed base addresses of the driver, with an offset (`46_driver.md` R117). -/
def teAddr (c : Config) (off : Nat) : Word := BitVec.ofNat 32 (c.teBase + off)
def tfAddr (c : Config) (off : Nat) : Word := BitVec.ofNat 32 (c.tfBase + off)
def tsAddr (c : Config) (off : Nat) : Word := BitVec.ofNat 32 (c.tsBase + off)

end Sys2Proof.Machine
end

