-- ==== Sys2Proof/Machine/Bus.lean ====
section
/-! DEFINITION. The bus operations (`40_bus.md`): routing by address, the device mux, and `RangeError`. -/

namespace Sys2Proof.Machine

/-- `BUS.READ(address)` (R67): resolve, then the device mux for reads, or `RangeError`. -/
def execBusRead (address : Word) (s : State) : Host.Outcome State Fault Refusal :=
  match resolve s.cfg address with
  | none => raiseRangeError address s
  | some (d, off) => endWord (devRead d off s)

/-- `BUS.WRITE(address, value)` (R68): resolve, then the device mux for writes, or `RangeError`. -/
def execBusWrite (address : Word) (value : Word) (s : State) : Host.Outcome State Fault Refusal :=
  match resolve s.cfg address with
  | none => raiseRangeError address s
  | some (d, off) => endDone (devWrite d off value s)

/-- `BUS.RANGE_ERROR` (`60_exceptions.md` R126), for either direction: raised exactly when no mapping contains the address. The row
is not selected for an address that a mapping contains. -/
def execBusRangeError (_dir : Dir) (address : Word) (s : State) : Host.Outcome State Fault Refusal :=
  match resolve s.cfg address with
  | none => raiseRangeError address s
  | some _ => .refused .addressIsMapped

end Sys2Proof.Machine
end

