-- ==== Sys2Proof/Machine/Driver.lean ====
section
/-! DEFINITION. The controller sequences (`46_driver.md`). A sequence is not atomic (`20_memory.md` R47): `Sequence.advance`
performs one line of it, which is one bus operation, and an operation of another agent may fall between any two lines
(R123, `70_reset_and_hazards.md` R149, R150; `Machine/Schedule.lean`). The meanings of the four rows run the same lines with
nothing between them, the schedule for which R118 to R121 are stated (log entry 5). -/

namespace Sys2Proof.Machine

/-- The word that a read-modify-write writes back (R119, R120). -/
def EnableUpdate.apply : EnableUpdate → Word → Word
  | .set, c => c ||| maskEnable
  | .clear, c => c &&& ~~~maskEnable

/-- What a read-modify-write asserts of the words read before and after it (R119, R120). -/
def EnableUpdate.holds : EnableUpdate → Word → Word → Bool
  | .set, c, c2 => decide (c2 &&& maskEnable ≠ 0) && decide (c2 &&& ~~~maskEnable = c &&& ~~~maskEnable)
  | .clear, _, c2 => decide (c2 &&& maskEnable = 0)

/-- Where a driver sequence stands after a line: it goes on, or it has ended with an outcome. -/
inductive Progress where
  | going (q : Sequence) (s : State)
  | ended (r : Response) (s : State)
deriving DecidableEq, Repr

/-- On to the next line, or the end of the sequence after its last one. -/
def nextLine (rest : List Line) (c : Word) (s : State) : Progress :=
  match rest with
  | [] => .ended .done s
  | l :: ls => .going (.lines l ls c) s

/-- One line of a straight-line sequence. A `RangeError` ends the sequence at that line (R117); so does a failed assertion, and
what was performed stays performed (R122). -/
def performLine (l : Line) (rest : List Line) (c : Word) (s : State) : Progress :=
  match l with
  | .write a v =>
    match busStore a v s with
    | none => .ended (.rangeError a) s
    | some t => nextLine rest c t
  | .readBack a mask expected =>
    match busLoad a s with
    | none => .ended (.rangeError a) s
    | some (x, t) => if x &&& mask = expected then nextLine rest c t else .ended .assertionFailed t
  | .load a =>
    match busLoad a s with
    | none => .ended (.rangeError a) s
    | some (x, t) => nextLine rest x t
  | .update a u =>
    match busStore a (u.apply c) s with
    | none => .ended (.rangeError a) s
    | some t => nextLine rest c t
  | .verify a u =>
    match busLoad a s with
    | none => .ended (.rangeError a) s
    | some (c2, t) => if u.holds c c2 then nextLine rest c t else .ended .assertionFailed t

/-- `FETCH` at the head of its loop: the budget test comes first (R121). -/
def fetchFrom (left : Nat) (result : List Word) (s : State) : Progress :=
  match left with
  | 0 => .ended (.words result) s
  | more + 1 => .going (.fetch more result .wpLow) s

/-- One read of the loop of `FETCH` (R121): `WP_LOW`, `RP_LOW` and the comparison, `DATA`. -/
def performFetch (more : Nat) (result : List Word) (l : FetchLine) (s : State) : Progress :=
  match l with
  | .wpLow =>
    match busLoad (tsAddr s.cfg offWpLow) s with
    | none => .ended (.rangeError (tsAddr s.cfg offWpLow)) s
    | some (w, t) => .going (.fetch more result (.rpLow w)) t
  | .rpLow w =>
    match busLoad (tsAddr s.cfg offRpLow) s with
    | none => .ended (.rangeError (tsAddr s.cfg offRpLow)) s
    | some (r, t) => if w = r then .ended (.words result) t else .going (.fetch more result .data) t
  | .data =>
    match busLoad (tsAddr s.cfg offData) s with
    | none => .ended (.rangeError (tsAddr s.cfg offData)) s
    | some (d, t) => fetchFrom more (result ++ [d]) t

/-- One line of a driver sequence. -/
def Sequence.advance (q : Sequence) (s : State) : Progress :=
  match q with
  | .lines l rest c => performLine l rest c s
  | .fetch more result l => performFetch more result l s

/-- How many lines a sequence can still perform (R124). -/
def Sequence.lineBound : Sequence → Nat
  | .lines _ rest _ => rest.length + 1
  | .fetch more _ .wpLow => 3 * more + 3
  | .fetch more _ (.rpLow _) => 3 * more + 2
  | .fetch more _ .data => 3 * more + 1

/-- A sequence with nothing between its lines, for at most `fuel` of them; one that has not ended by then stays in progress. -/
def runAlone : Nat → Progress → Host.Outcome State Fault Refusal
  | _, .ended r s => .next (s.respond r)
  | 0, .going q s => .next { s with running := s.running ++ [q] }
  | fuel + 1, .going q s => runAlone fuel (q.advance s)

/-- The lines of `CONFIGURE` (R118): all writes, consumer before producer, then all read-backs. -/
def configureSequence (c : Config) : Sequence :=
  .lines (.write (tsAddr c offControl) 0x00000003)
    [.write (tfAddr c offControl) 0x00000003, .write (tfAddr c offDisInput) 0x00000000,
     .write (teAddr c offControl) 0x05000005,
     .readBack (tsAddr c offControl) 0x00000003 0x00000003, .readBack (tfAddr c offControl) 0x00000003 0x00000003,
     .readBack (tfAddr c offDisInput) 0xFFFFFFFF 0x00000000, .readBack (teAddr c offControl) 0x07000005 0x05000005] 0

/-- The lines of `START` (R119): set Enable of the Encoder. -/
def startSequence (c : Config) : Sequence :=
  .lines (.load (teAddr c offControl)) [.update (teAddr c offControl) .set, .verify (teAddr c offControl) .set] 0

/-- The lines of `STOP` (R120): clear Enable of the Encoder, the Funnel, the Sink, in that order. -/
def stopSequence (c : Config) : Sequence :=
  .lines (.load (teAddr c offControl))
    [.update (teAddr c offControl) .clear, .verify (teAddr c offControl) .clear,
     .load (tfAddr c offControl), .update (tfAddr c offControl) .clear, .verify (tfAddr c offControl) .clear,
     .load (tsAddr c offControl), .update (tsAddr c offControl) .clear, .verify (tsAddr c offControl) .clear] 0

/-- A driver sequence as it is called, before its first line; none for an operation that is no sequence. `FETCH(0)` ends at once
(R121). -/
def callSequence (i : Instr) (s : State) : Option Progress :=
  match i with
  | .configure => some (.going (configureSequence s.cfg) s)
  | .start => some (.going (startSequence s.cfg) s)
  | .stop => some (.going (stopSequence s.cfg) s)
  | .fetch maxWords => some (fetchFrom maxWords [] s)
  | _ => none

/-- `CONFIGURE` (R118), eight lines. -/
def execConfigure (s : State) : Host.Outcome State Fault Refusal :=
  runAlone 8 (.going (configureSequence s.cfg) s)

/-- `START` (R119), three lines. -/
def execStart (s : State) : Host.Outcome State Fault Refusal :=
  runAlone 3 (.going (startSequence s.cfg) s)

/-- `STOP` (R120), nine lines. -/
def execStop (s : State) : Host.Outcome State Fault Refusal :=
  runAlone 9 (.going (stopSequence s.cfg) s)

/-- `FETCH(maxWords)` (R121), at most three lines for each word. -/
def execFetch (maxWords : Nat) (s : State) : Host.Outcome State Fault Refusal :=
  runAlone (3 * maxWords) (fetchFrom maxWords [] s)

end Sys2Proof.Machine
end

