-- ==== Sys2Proof/Machine/TraceEncoder.lean ====
section
/-! DEFINITION. The Trace Encoder's operations (`43_encoder.md`). -/

namespace Sys2Proof.Machine

/-- `TE.CONTROL.RD` (R89). -/
def execTeControlRd (s : State) : Host.Outcome State Fault Refusal :=
  endWord (teControlRead s)

/-- `TE.CONTROL.WR(value)` (R90). -/
def execTeControlWr (value : Word) (s : State) : Host.Outcome State Fault Refusal :=
  endDone (teControlWrite value s)

/-- `TE.INVALID.RD` (R91). -/
def execTeInvalidRd (_off : Word) (s : State) : Host.Outcome State Fault Refusal :=
  endWord (invalidRead .encoder s)

/-- `TE.INVALID.WR(value)` (R92): the value is ignored; a write of 0 is no master reset. -/
def execTeInvalidWr (_off : Word) (_value : Word) (s : State) : Host.Outcome State Fault Refusal :=
  endDone (invalidWrite .encoder s)

/-- `EMIT(pc, opcode)` (R88): ends normally and reports nothing, whatever happens downstream. -/
def execEmit (pc : Word) (opcode : Word) (s : State) : Host.Outcome State Fault Refusal :=
  endDone (encoderEmit pc opcode s)

end Sys2Proof.Machine
end

