-- ==== Sys2Proof/Machine/TraceFunnel.lean ====
section
/-! DEFINITION. The Trace Funnel's operations (`44_funnel.md`). -/

namespace Sys2Proof.Machine

/-- `TF.CONTROL.RD` (R96). -/
def execTfControlRd (s : State) : Host.Outcome State Fault Refusal :=
  endWord (tfControlRead s)

/-- `TF.CONTROL.WR(value)` (R97). -/
def execTfControlWr (value : Word) (s : State) : Host.Outcome State Fault Refusal :=
  endDone (tfControlWrite value s)

/-- `TF.DIS_INPUT.RD` (R98). -/
def execTfDisInputRd (s : State) : Host.Outcome State Fault Refusal :=
  endWord (tfDisInputRead s)

/-- `TF.DIS_INPUT.WR(value)` (R99). -/
def execTfDisInputWr (value : Word) (s : State) : Host.Outcome State Fault Refusal :=
  endDone (tfDisInputWrite value s)

/-- `TF.INVALID.RD` (R100). -/
def execTfInvalidRd (_off : Word) (s : State) : Host.Outcome State Fault Refusal :=
  endWord (invalidRead .funnel s)

/-- `TF.INVALID.WR(value)` (R101). -/
def execTfInvalidWr (_off : Word) (_value : Word) (s : State) : Host.Outcome State Fault Refusal :=
  endDone (invalidWrite .funnel s)

/-- `TF.PUSH(data)` (R95). -/
def execTfPush (data : List Byte) (s : State) : Host.Outcome State Fault Refusal :=
  endDone (funnelPush data s)

end Sys2Proof.Machine
end

