-- ==== Sys2Proof/Machine/TraceSink.lean ====
section
/-! DEFINITION. The Trace RAM Sink's operations (`45_sink.md`). -/

namespace Sys2Proof.Machine

/-- `TS.CONTROL.RD` (R105). -/
def execTsControlRd (s : State) : Host.Outcome State Fault Refusal :=
  endWord (tsControlRead s)

/-- `TS.CONTROL.WR(value)` (R106). -/
def execTsControlWr (value : Word) (s : State) : Host.Outcome State Fault Refusal :=
  endDone (tsControlWrite value s)

/-- `TS.WP_LOW.RD` (R107). -/
def execTsWpLowRd (s : State) : Host.Outcome State Fault Refusal :=
  endWord (tsWpLowRead s)

/-- `TS.WP_LOW.WR(value)` (R110). -/
def execTsWpLowWr (_value : Word) (s : State) : Host.Outcome State Fault Refusal :=
  endDone (ignoredWrite s)

/-- `TS.RP_LOW.RD` (R108). -/
def execTsRpLowRd (s : State) : Host.Outcome State Fault Refusal :=
  endWord (tsRpLowRead s)

/-- `TS.RP_LOW.WR(value)` (R110): the read cursor does not move, not even forward (R115). -/
def execTsRpLowWr (_value : Word) (s : State) : Host.Outcome State Fault Refusal :=
  endDone (ignoredWrite s)

/-- `TS.DATA.RD` (R109). -/
def execTsDataRd (s : State) : Host.Outcome State Fault Refusal :=
  endWord (tsDataRead s)

/-- `TS.DATA.WR(value)` (R110): nothing is pushed. -/
def execTsDataWr (_value : Word) (s : State) : Host.Outcome State Fault Refusal :=
  endDone (ignoredWrite s)

/-- `TS.INVALID.RD` (R111). -/
def execTsInvalidRd (_off : Word) (s : State) : Host.Outcome State Fault Refusal :=
  endWord (invalidRead .sink s)

/-- `TS.INVALID.WR(value)` (R112). -/
def execTsInvalidWr (_off : Word) (_value : Word) (s : State) : Host.Outcome State Fault Refusal :=
  endDone (invalidWrite .sink s)

/-- `TS.PUSH(data)` (R104). -/
def execTsPush (data : List Byte) (s : State) : Host.Outcome State Fault Refusal :=
  endDone (sinkPush data s)

end Sys2Proof.Machine
end

