-- ==== Sys2Proof/Machine/Dispatch.lean ====
section
/-! DEFINITION. One arm per operation of the opcode table, each a direct call of its meaning. -/

namespace Sys2Proof.Machine

def exec (i : Instr) (s : State) : Host.Outcome State Fault Refusal :=
  match i with
  | .busRead a => Sys2Proof.Machine.execBusRead a s
  | .busWrite a v => Sys2Proof.Machine.execBusWrite a v s
  | .busRangeError d a => Sys2Proof.Machine.execBusRangeError d a s
  | .teControlRd => Sys2Proof.Machine.execTeControlRd s
  | .teControlWr v => Sys2Proof.Machine.execTeControlWr v s
  | .teInvalidRd o => Sys2Proof.Machine.execTeInvalidRd o s
  | .teInvalidWr o v => Sys2Proof.Machine.execTeInvalidWr o v s
  | .tfControlRd => Sys2Proof.Machine.execTfControlRd s
  | .tfControlWr v => Sys2Proof.Machine.execTfControlWr v s
  | .tfDisInputRd => Sys2Proof.Machine.execTfDisInputRd s
  | .tfDisInputWr v => Sys2Proof.Machine.execTfDisInputWr v s
  | .tfInvalidRd o => Sys2Proof.Machine.execTfInvalidRd o s
  | .tfInvalidWr o v => Sys2Proof.Machine.execTfInvalidWr o v s
  | .tsControlRd => Sys2Proof.Machine.execTsControlRd s
  | .tsControlWr v => Sys2Proof.Machine.execTsControlWr v s
  | .tsWpLowRd => Sys2Proof.Machine.execTsWpLowRd s
  | .tsWpLowWr v => Sys2Proof.Machine.execTsWpLowWr v s
  | .tsRpLowRd => Sys2Proof.Machine.execTsRpLowRd s
  | .tsRpLowWr v => Sys2Proof.Machine.execTsRpLowWr v s
  | .tsDataRd => Sys2Proof.Machine.execTsDataRd s
  | .tsDataWr v => Sys2Proof.Machine.execTsDataWr v s
  | .tsInvalidRd o => Sys2Proof.Machine.execTsInvalidRd o s
  | .tsInvalidWr o v => Sys2Proof.Machine.execTsInvalidWr o v s
  | .emit pc op => Sys2Proof.Machine.execEmit pc op s
  | .tfPush bs => Sys2Proof.Machine.execTfPush bs s
  | .tsPush bs => Sys2Proof.Machine.execTsPush bs s
  | .configure => Sys2Proof.Machine.execConfigure s
  | .start => Sys2Proof.Machine.execStart s
  | .stop => Sys2Proof.Machine.execStop s
  | .fetch n => Sys2Proof.Machine.execFetch n s

end Sys2Proof.Machine
end

