-- ==== Sys2Proof/Machine/Schedule.lean ====
section
/-! DEFINITION. One turn of the schedule: the agents' operations form one total order (`20_memory.md` R45), and an operation of
another agent may fall between any two lines of a driver sequence (R47, `46_driver.md` R123). Several sequences can be in
progress, one for each bus master that called one (`70_reset_and_hazards.md` R150). -/

namespace Sys2Proof.Machine

/-- A driver sequence is called: it is in progress, before its first line, or it has ended at once. An operation that is no
sequence is atomic and is performed. -/
def callTurn (i : Instr) (s : State) : Host.Outcome State Fault Refusal :=
  match callSequence i s with
  | none => exec i s
  | some (.ended r t) => .next (t.respond r)
  | some (.going q t) => .next { t with running := t.running ++ [q] }

/-- The next line of the sequence at place `k`; a sequence that ends leaves the list and reports its outcome. With no sequence at
that place nothing is done. -/
def lineTurn (k : Nat) (s : State) : Host.Outcome State Fault Refusal :=
  match s.running[k]? with
  | none => .next s
  | some q =>
    match q.advance s with
    | .going q' t => .next { t with running := t.running.set k q' }
    | .ended r t => .next ({ t with running := t.running.eraseIdx k }.respond r)

/-- One turn. -/
def performTurn (u : Turn) (s : State) : Host.Outcome State Fault Refusal :=
  match u with
  | .operation f =>
    match decode f with
    | .ok i => exec i s
    | .error e => .refused (.undecodable e)
  | .call f =>
    match decode f with
    | .ok i => callTurn i s
    | .error e => .refused (.undecodable e)
  | .line k => lineTurn k s

end Sys2Proof.Machine
end

