-- ==== Sys2Proof/Machine/Step.lean ====
section
/-! DEFINITION. One step: the oldest turn of the schedule is taken. The block has no program counter and fetches no
instruction (`10_state.md` R15): the order of operations is the order in which the agents issue them (`00_scope.md` R6),
which is the order of `State.pending` (log entries 2 and 5). -/

namespace Sys2Proof.Machine

/-- One step. An excluded configuration is refused; a state outside the types of R13 faults; with nothing issued nothing
happens (R6: there is no background activity); else the oldest turn is taken off the queue and performed. -/
def step (s : State) : Host.Outcome State Fault Refusal :=
  if s.cfg.wf then
    if ringInRange s.cfg s.ts then
      match s.pending with
      | [] => .next s
      | u :: rest => performTurn u { s with pending := rest }
    else .fault .ringIndexOutOfRange
  else .refused .illFormedConfig

/-- The state with the operation of a table word issued as the next one (log entry 2). -/
def State.withFetchWord (s : State) (nbits w : Nat) : State :=
  { s with pending := .operation (wordFrame nbits w) :: s.pending }

end Sys2Proof.Machine
end

