-- ==== Sys2Proof/Safety.lean ====
section
/-! DEFINITION. What a good state is (`10_state.md` R26, R27 and the facts the spec derives of every reachable state), what the
live bytes of the ring buffer are (R27), and what a run of operations accepts into the buffer and pops from it
(`45_sink.md` R113). -/

namespace Sys2Proof.Machine

/-- A control register holds no reserved bit and no field above its maximum (R26). -/
structure CtrlLegal (d : Desc) (ctrl : Word) : Prop where
  reserved : ctrl &&& reservedMask d = 0
  fields : ∀ f ∈ d.fields, f.get ctrl ≤ f.fmax

/-- The Sink's part of the invariants: R26, R27, `20_memory.md` R43 (the read cursor stays aligned when 4 divides CAP), the
buffer's canonical form, and an inactive Sink holds nothing (`46_driver.md` R120). -/
structure Sink.Inv (c : Config) (ts : Sink) : Prop where
  bufWf : ts.buf.wf = true
  bufWithin : ts.buf.within c.cap = true
  wpLt : ts.wp < c.cap
  rpLt : ts.rp < c.cap
  countLe : ts.count ≤ c.cap
  cursors : (ts.rp + ts.count) % c.cap = ts.wp
  empty : bitOn ts.ctrl maskEmpty = true ↔ ts.count = 0
  legal : CtrlLegal (tsDesc c.fmax) ts.ctrl
  rpAligned : 4 ∣ c.cap → 4 ∣ ts.rp
  inactive : bitOn ts.ctrl maskActive = false → ts = Sink.cleared ts.dropped

/-- The invariants of a state (R26, R27; `10_state.md` R28 for the two bits that are always 0). -/
structure State.Inv (s : State) : Prop where
  cfg : s.cfg.wf = true
  sink : Sink.Inv s.cfg s.ts
  teLegal : CtrlLegal (teDesc s.cfg.fmax) s.te.ctrl
  teNoOverflow : bitOn s.te.ctrl maskInstStallOrOverflow = false
  teInactive : bitOn s.te.ctrl maskActive = false → s.te.ctrl = 0x00000000 ∨ s.te.ctrl = 0x00000008
  tfLegal : CtrlLegal tfDesc s.tf.ctrl
  tfNotEmpty : bitOn s.tf.ctrl maskEmpty = false
  tfInactive : bitOn s.tf.ctrl maskActive = false → s.tf.ctrl = 0x00000000
  tfDis : s.tf.dis.toNat ≤ 0xFFFF

/-- The live bytes, in the order they were pushed (R27). -/
def Sink.live (cap : Nat) (ts : Sink) : List Byte :=
  (List.range ts.count).map fun i => ts.buf.read ((ts.rp + i) % cap)

/-- The live bytes of a state. -/
def State.live (s : State) : List Byte := s.ts.live s.cfg.cap

/-- A run: the operations performed one after the other, in their order, up to the first that stops. -/
def runOps : List Instr → State → Host.Outcome State Fault Refusal
  | [], s => .next s
  | i :: is, s =>
    match exec i s with
    | .next t => runOps is t
    | .fault r => .fault r
    | .refused r => .refused r

/-- The bytes of `data` that a push into the Sink stores: the accepted prefix of `45_sink.md` R104. -/
def acceptedBySink (data : List Byte) (s : State) : List Byte :=
  if tsGate s.ts then data.take (s.cfg.cap - s.ts.count) else []

/-- The bytes that a push into the Funnel lets the Sink store. -/
def acceptedByFunnel (data : List Byte) (s : State) : List Byte :=
  if tfGate s.tf && decide (s.tf.dis = 0) then acceptedBySink data s else []

/-- The bytes an operation stores in the ring buffer when it is performed in state `s`: pushes and emissions only
(`00_scope.md` R3). -/
def accepted (i : Instr) (s : State) : List Byte :=
  match i with
  | .emit pc opcode => if teGate s.te then acceptedByFunnel (traceRecord pc opcode) s else []
  | .tfPush data => acceptedByFunnel data s
  | .tsPush data => acceptedBySink data s
  | _ => []

/-- The word a read of `DATA` pops, if it pops one. -/
def poppedWord (s : State) : List Word :=
  if s.ts.count < 4 then [] else [s.ts.frontWord s.cfg.cap]

/-- The words an operation pops from the ring buffer when it is performed in state `s` (`45_sink.md` R109, `46_driver.md` R121).
Of the words of a `FETCH` those are the first ones, one for every four bytes by which `count` falls: any word after them is
the 0 of a short read, which removes nothing (`60_exceptions.md` R130). -/
def popped (i : Instr) (s : State) : List Word :=
  match i with
  | .tsDataRd => poppedWord s
  | .busRead a => if resolve s.cfg a = some (.sink, offData) then poppedWord s else []
  | .fetch n =>
    match exec (.fetch n) s with
    | .next t => (match t.response with | .words ws => ws.take ((s.ts.count - t.ts.count) / 4) | _ => [])
    | _ => []
  | _ => []

/-- Whether an operation writes the Sink's CONTROL with Active = 0, by itself or through the bus: a master reset of the Sink
(`45_sink.md` R106). -/
def resetsSink (i : Instr) (s : State) : Bool :=
  match i with
  | .tsControlWr v => decide (v &&& maskActive = 0)
  | .busWrite a v => decide (resolve s.cfg a = some (.sink, offControl)) && decide (v &&& maskActive = 0)
  | _ => false

/-- The bytes a run stores, in order. -/
def acceptedIn : List Instr → State → List Byte
  | [], _ => []
  | i :: is, s =>
    accepted i s ++ match exec i s with | .next t => acceptedIn is t | _ => []

/-- The words a run pops, in order. -/
def poppedIn : List Instr → State → List Word
  | [], _ => []
  | i :: is, s =>
    popped i s ++ match exec i s with | .next t => poppedIn is t | _ => []

/-- No operation of a run resets the Sink. -/
def neverResetsSink : List Instr → State → Bool
  | [], _ => true
  | i :: is, s =>
    !resetsSink i s && match exec i s with | .next t => neverResetsSink is t | _ => true

/-- The bus operation that the next line of a driver sequence is (`46_driver.md` R117 to R121). -/
def Sequence.operation (c : Config) : Sequence → Instr
  | .lines (.write a v) _ _ => .busWrite a v
  | .lines (.readBack a _ _) _ _ => .busRead a
  | .lines (.load a) _ _ => .busRead a
  | .lines (.update a u) _ w => .busWrite a (u.apply w)
  | .lines (.verify a _) _ _ => .busRead a
  | .fetch _ _ .wpLow => .busRead (tsAddr c offWpLow)
  | .fetch _ _ (.rpLow _) => .busRead (tsAddr c offRpLow)
  | .fetch _ _ .data => .busRead (tsAddr c offData)

/-- The operation that a turn performs on the block, if it performs one: the call of a driver sequence performs none yet. -/
def turnOperation (u : Turn) (s : State) : Option Instr :=
  match u with
  | .operation f => (decode f).toOption
  | .call f =>
    match decode f with
    | .ok i => if callSequence i s = none then some i else none
    | .error _ => none
  | .line k => (s.running[k]?).map (Sequence.operation s.cfg)

/-- The operation that the next step performs on the block, if it performs one. -/
def stepOperation (s : State) : Option Instr := s.pending.head?.bind fun u => turnOperation u s

/-- On from an outcome, if it is a next state. -/
def thenRun (o : Host.Outcome State Fault Refusal) (k : State → Host.Outcome State Fault Refusal) :
    Host.Outcome State Fault Refusal :=
  match o with
  | .next t => k t
  | .fault r => .fault r
  | .refused r => .refused r

/-- What is said of the next state of an outcome, or what stands for it where there is none. -/
def onNext {α : Type} (o : Host.Outcome State Fault Refusal) (none : α) (k : State → α) : α :=
  match o with
  | .next t => k t
  | .fault _ => none
  | .refused _ => none

/-- A run of so many steps, up to the first that stops. -/
def runSteps : Nat → State → Host.Outcome State Fault Refusal
  | 0, s => .next s
  | n + 1, s => thenRun (step s) (runSteps n)

/-- The bytes a run of steps stores, in order. -/
def acceptedInSteps : Nat → State → List Byte
  | 0, _ => []
  | n + 1, s => ((stepOperation s).elim [] fun i => accepted i s) ++ onNext (step s) [] (acceptedInSteps n)

/-- The words a run of steps pops, in order, whichever agent pops them. -/
def poppedInSteps : Nat → State → List Word
  | 0, _ => []
  | n + 1, s => ((stepOperation s).elim [] fun i => popped i s) ++ onNext (step s) [] (poppedInSteps n)

/-- No step of a run resets the Sink. -/
def stepsNeverResetSink : Nat → State → Bool
  | 0, _ => true
  | n + 1, s => !((stepOperation s).elim false fun i => resetsSink i s) && onNext (step s) true (stepsNeverResetSink n)

/-- A state with what no interface shows set aside: the counter `dropped` (R24) and the ghost log (R131). -/
def State.hideDiagnostics (s : State) : State := { s with ts := { s.ts with dropped := 0 }, log := [] }

/-- An operation other than a direct push: in the wired system only these are issued (`42_link.md` R86). -/
def wiredOperation : Instr → Bool
  | .tfPush _ => false
  | .tsPush _ => false
  | _ => true

/-- An operation that pushes into the Funnel: an emission or a direct push. -/
def funnelProducer : Instr → Bool
  | .emit _ _ => true
  | .tfPush _ => true
  | _ => false

/-- The operations that may write a CONTROL register: the three writes, a bus write, and the driver sequences that hold one. -/
def mayWriteControl : Instr → Bool
  | .teControlWr _ => true
  | .tfControlWr _ => true
  | .tsControlWr _ => true
  | .busWrite _ _ => true
  | .configure => true
  | .start => true
  | .stop => true
  | _ => false

end Sys2Proof.Machine
end

