-- ==== Sys2Proof/Certificates/Slice0/Obligations.lean ====
section
/-! DEFINITION. The statements for the provers. Bits are written out with the numbers of `30_encoding.md` R52 to R56, so that a
statement can be read beside the rule it cites. `exec i s = .next t` says that the operation completes. -/

section

open Sys2Proof Sys2Proof.Machine


/-- Decoding the frame of a well-formed operation gives the operation back. The frame is the model's carrier (log entry 2). -/
def Obligations.DecodeEncodeRoundTrip : Prop :=
  ∀ i : Instr, i.wf = true → decode (encode i) = .ok i

/-- An accepted frame is the frame of the operation it gives, which is well formed: no bit of a frame is dropped. -/
def Obligations.AcceptedFramesAreCanonical : Prop :=
  ∀ (f : Frame) (i : Instr), decode f = .ok i → i.wf = true ∧ encode i = f

/-- A few frames written out byte by byte give the operations they stand for. -/
def Obligations.SampleFramesDecode : Prop :=
  decode [0x40, 0x20, 0x00, 0x10, 0x06, 0x00, 0x00, 0x00, 0x00] = .ok (.busRead 0x10002040) ∧
  decode [0x08, 0x10, 0x00, 0x10, 0x07, 0x45, 0x23, 0x01, 0x00] = .ok (.busWrite 0x10001008 0x00012345) ∧
  decode [0x00, 0x00, 0x00, 0x00, 0x05, 0x05, 0x00, 0x00, 0x05] = .ok (.teControlWr 0x05000005) ∧
  decode [0x08, 0x00, 0x00, 0x00, 0x02, 0x00, 0x00, 0x00, 0x00] = .ok .tfDisInputRd ∧
  decode [0x40, 0x00, 0x00, 0x00, 0x00, 0x00, 0x00, 0x00, 0x00] = .ok .tsDataRd ∧
  decode [0x41, 0x00, 0x00, 0x00, 0x00, 0x00, 0x00, 0x00, 0x00] = .ok (.tsInvalidRd 0x041) ∧
  decode [0x00, 0x30, 0x00, 0x00, 0x0A, 0xEF, 0xBE, 0xAD, 0xDE] = .ok (.emit 0x00003000 0xDEADBEEF) ∧
  decode [0x00, 0x00, 0x00, 0x00, 0x0C, 0x00, 0x00, 0x00, 0x00, 0xAA, 0xBB] = .ok (.tsPush [0xAA, 0xBB])

/-- A step takes the oldest turn off the queue and performs it (log entries 2 and 5). An operation is performed as decoded, whole;
so is one that is called, unless it is a driver sequence, which is then in progress. A line is the one bus operation it names,
performed on the block; with no sequence at that place nothing is done. -/
def Obligations.StepRunsDecodedOperation : Prop :=
  ∀ (s : State) (rest : List Turn),
    s.cfg.wf = true → s.ts.wp < s.cfg.cap → s.ts.rp < s.cfg.cap → s.ts.count ≤ s.cfg.cap →
    (∀ f i, s.pending = .operation f :: rest → decode f = .ok i → step s = exec i { s with pending := rest }) ∧
    (∀ f i, s.pending = .call f :: rest → decode f = .ok i →
      (callSequence i { s with pending := rest } = none → step s = exec i { s with pending := rest }) ∧
      (∀ q t, callSequence i { s with pending := rest } = some (.going q t) →
        t = { s with pending := rest } ∧ step s = .next { s with pending := rest, running := s.running ++ [q] })) ∧
    (∀ k q, s.pending = .line k :: rest → s.running[k]? = some q →
      ∃ t u, step s = .next t ∧ exec (q.operation s.cfg) { s with pending := rest } = .next u ∧
        t.cfg = u.cfg ∧ t.te = u.te ∧ t.tf = u.tf ∧ t.ts = u.ts ∧ t.log = u.log ∧ t.pending = rest) ∧
    (∀ k, s.pending = .line k :: rest → s.running[k]? = none → step s = .next { s with pending := rest })

/-- With nothing issued a step changes nothing: no agent of the block acts by itself (log entry 2). -/
def Obligations.IdleStepChangesNothing : Prop :=
  ∀ s : State, s.cfg.wf = true → s.ts.wp < s.cfg.cap → s.ts.rp < s.cfg.cap → s.ts.count ≤ s.cfg.cap →
    s.pending = [] → step s = .next s

/-- A configuration in which two entries of the map contain one address is refused, and so is a capacity of 0. -/
def Obligations.ExcludedConfigurationsAreRefused : Prop :=
  (∀ (s : State) (a : Word) (m m' : Mapping), m ∈ s.cfg.table → m' ∈ s.cfg.table → m.dev ≠ m'.dev →
    m.base ≤ a.toNat → a.toNat < m.base + m.size → m'.base ≤ a.toNat → a.toNat < m'.base + m'.size →
    step s = .refused .illFormedConfig) ∧
  (∀ s : State, s.cfg.cap = 0 → step s = .refused .illFormedConfig) ∧
  (∀ s : State, (s.cfg.teSize < 0x004 ∨ s.cfg.tfSize < 0x00C ∨ s.cfg.tsSize < 0x044) → step s = .refused .illFormedConfig)

/-- A request for a byte or halfword access is refused at the model's boundary, and so is a fetch without a finite budget. The
frames of the two are the model's (log entry 2). -/
def Obligations.NarrowAccessIsRefused : Prop :=
  ∀ (s : State) (rest : List Turn) (u : Turn) (a b : Word) (code : Byte),
    s.cfg.wf = true → s.ts.wp < s.cfg.cap → s.ts.rp < s.cfg.cap → s.ts.count ≤ s.cfg.cap →
    u ∈ [.operation (frameOf code a b []), .call (frameOf code a b [])] → s.pending = u :: rest →
    (code ∈ [0x12#8, 0x13#8, 0x14#8, 0x15#8] → step s = .refused (.undecodable .narrowAccess)) ∧
    (code = 0x11#8 → step s = .refused (.undecodable .unboundedFetch))


/-- Every piece of state after construction (R30), whatever the parameters. -/
def Obligations.ConstructionValues : Prop :=
  ∀ c : Config,
    (State.construct c).te.ctrl = 0x00000000 ∧ (State.construct c).tf.ctrl = 0x00000000 ∧
    (State.construct c).tf.dis = 0x00000000 ∧ (State.construct c).ts.ctrl = 0x00000008 ∧
    (∀ a, (State.construct c).ts.buf.read a = 0) ∧
    (State.construct c).ts.wp = 0 ∧ (State.construct c).ts.rp = 0 ∧ (State.construct c).ts.count = 0 ∧
    (State.construct c).ts.dropped = 0 ∧
    teState (State.construct c).te = .inactive ∧ tfState (State.construct c).tf = .inactive ∧
    tsState (State.construct c).ts = .inactive

/-- Construction with any well-formed parameters satisfies the invariants, and the reset state is one such construction. -/
def Obligations.ConstructionSatisfiesInvariants : Prop :=
  (∀ c : Config, c.wf = true → (State.construct c).Inv) ∧ State.reset.Inv

/-- The invariants hold after every step that goes on from a state in which they hold. -/
def Obligations.StepKeepsInvariants : Prop :=
  ∀ s t : State, s.Inv → step s = .next t → t.Inv

/-- R26 of every state that a run of operations reaches from construction, spelled out: the ranges, Empty exactly when nothing
is live, `tf_dis`, the reserved bits, the field maxima. The run keeps its configuration. -/
def Obligations.ReachableStatesKeepInvariants : Prop :=
  ∀ (c : Config) (is : List Instr) (t : State), c.wf = true → runOps is (State.construct c) = .next t →
    t.cfg = c ∧
    t.ts.count ≤ c.cap ∧ t.ts.wp < c.cap ∧ t.ts.rp < c.cap ∧
    (t.ts.ctrl.getLsbD 3 = true ↔ t.ts.count = 0) ∧
    t.tf.dis.toNat ≤ 0xFFFF ∧
    t.te.ctrl &&& 0xF80C4580 = 0 ∧ t.tf.ctrl &&& 0xFFFFFFF4 = 0 ∧ t.ts.ctrl &&& 0xFFFF88E4 = 0 ∧
    (fieldInstMode c.fmax).get t.te.ctrl ≤ c.fmax.instMode ∧
    (fieldInstSyncMode c.fmax).get t.te.ctrl ≤ c.fmax.instSyncMode ∧
    (fieldInstSyncMax c.fmax).get t.te.ctrl ≤ c.fmax.instSyncMax ∧
    (fieldFormat c.fmax).get t.te.ctrl ≤ c.fmax.format ∧
    (fieldMemFormat c.fmax).get t.ts.ctrl ≤ c.fmax.memFormat ∧
    (fieldAsyncFreq c.fmax).get t.ts.ctrl ≤ c.fmax.asyncFreq

/-- Of the same states, what the spec infers (R27; R93, R102 and R28 for the two bits): `wp` stands `count` bytes after `rp`, the
cursors are equal exactly in an empty and in a full buffer, `tf_ctrl.Empty` and `te_ctrl.InstStallOrOverflow` are 0. -/
def Obligations.ReachableStatesKeepRingLaws : Prop :=
  ∀ (c : Config) (is : List Instr) (t : State), c.wf = true → runOps is (State.construct c) = .next t →
    (t.ts.rp + t.ts.count) % c.cap = t.ts.wp ∧
    (t.ts.wp = t.ts.rp ↔ t.ts.count = 0 ∨ t.ts.count = c.cap) ∧
    t.tf.ctrl.getLsbD 3 = false ∧ t.te.ctrl.getLsbD 12 = false

/-- When 4 divides CAP and only the wired producer pushes, the cursors and the count stay multiples of 4, so that the cursor
registers return the cursors exactly. -/
def Obligations.WiredSystemKeepsCursorsAligned : Prop :=
  ∀ (c : Config) (is : List Instr) (t : State), c.wf = true → 4 ∣ c.cap → (∀ i ∈ is, wiredOperation i = true) →
    runOps is (State.construct c) = .next t →
    4 ∣ t.ts.rp ∧ 4 ∣ t.ts.wp ∧ 4 ∣ t.ts.count ∧
    (cursorWord t.ts.wp).toNat = t.ts.wp ∧ (cursorWord t.ts.rp).toNat = t.ts.rp

/-- No operation writes the configuration, the queue of turns or the driver calls in progress, and `dropped` only grows; no turn of
any kind writes the configuration or lowers `dropped`. -/
def Obligations.ConfigurationIsNeverWritten : Prop :=
  (∀ (i : Instr) (s t : State), exec i s = .next t →
    t.cfg = s.cfg ∧ t.pending = s.pending ∧ t.running = s.running ∧ s.ts.dropped ≤ t.ts.dropped) ∧
  (∀ s t : State, step s = .next t → t.cfg = s.cfg ∧ s.ts.dropped ≤ t.ts.dropped)


/-- Resolution under a well-formed map: the entry that contains the address, whichever of the three it is, with the address
minus its base; none exactly when no entry contains it. -/
def Obligations.ResolutionIsContainment : Prop :=
  ∀ (c : Config) (a : Word), c.wf = true →
    (∀ m ∈ c.table, m.base ≤ a.toNat → a.toNat - m.base < m.size → resolve c a = some (m.dev, a.toNat - m.base)) ∧
    (resolve c a = none ↔ ∀ m ∈ c.table, ¬(m.base ≤ a.toNat ∧ a.toNat - m.base < m.size))

/-- A bus operation whose address no mapping contains ends in `RangeError(address)`: a read, a write of any value, and the row
BUS.RANGE_ERROR of either direction; nothing but the reported outcome changes. At any other address a read ends with a word and
a write normally. -/
def Obligations.RangeErrorExactlyWhenUnmapped : Prop :=
  ∀ (s : State) (a v : Word) (dir : Dir),
    (resolve s.cfg a = none →
      exec (.busRead a) s = .next { s with response := .rangeError a } ∧
      exec (.busWrite a v) s = .next { s with response := .rangeError a } ∧
      exec (.busRangeError dir a) s = .next { s with response := .rangeError a }) ∧
    (resolve s.cfg a ≠ none →
      (∃ t w, exec (.busRead a) s = .next t ∧ t.response = .word w) ∧
      (∃ t, exec (.busWrite a v) s = .next t ∧ t.response = .done))

/-- The row BUS.RANGE_ERROR is not selected at an address that a mapping contains: the model refuses it there (the model's
choice, log entry 6). -/
def Obligations.RangeErrorRowIsRefusedAtMappedAddress : Prop :=
  ∀ (s : State) (a : Word) (dir : Dir), resolve s.cfg a ≠ none →
    exec (.busRangeError dir a) s = .refused .addressIsMapped

/-- The table of R70: a mapped read completes as the operation of its device and exact offset does, with that operation's word. -/
def Obligations.BusReadPerformsTableRow : Prop :=
  ∀ (s : State) (a : Word) (d : Device) (off : Nat), resolve s.cfg a = some (d, off) →
    ∃ t w, exec (.busRead a) s = .next t ∧ t.response = .word w ∧
      exec (match d, off with
        | .encoder, 0x000 => .teControlRd
        | .encoder, _ => .teInvalidRd (BitVec.ofNat 32 off)
        | .funnel, 0x000 => .tfControlRd
        | .funnel, 0x008 => .tfDisInputRd
        | .funnel, _ => .tfInvalidRd (BitVec.ofNat 32 off)
        | .sink, 0x000 => .tsControlRd
        | .sink, 0x020 => .tsWpLowRd
        | .sink, 0x028 => .tsRpLowRd
        | .sink, 0x040 => .tsDataRd
        | .sink, _ => .tsInvalidRd (BitVec.ofNat 32 off)) s = .next t

/-- The table of R71: a mapped write completes as the operation of its device and exact offset does, with the value unchanged. -/
def Obligations.BusWritePerformsTableRow : Prop :=
  ∀ (s : State) (a v : Word) (d : Device) (off : Nat), resolve s.cfg a = some (d, off) →
    ∃ t, exec (.busWrite a v) s = .next t ∧ t.response = .done ∧
      exec (match d, off with
        | .encoder, 0x000 => .teControlWr v
        | .encoder, _ => .teInvalidWr (BitVec.ofNat 32 off) v
        | .funnel, 0x000 => .tfControlWr v
        | .funnel, 0x008 => .tfDisInputWr v
        | .funnel, _ => .tfInvalidWr (BitVec.ofNat 32 off) v
        | .sink, 0x000 => .tsControlWr v
        | .sink, 0x020 => .tsWpLowWr v
        | .sink, 0x028 => .tsRpLowWr v
        | .sink, 0x040 => .tsDataWr v
        | .sink, _ => .tsInvalidWr (BitVec.ofNat 32 off) v) s = .next t

/-- A bus operation never touches two devices: the devices it does not resolve to keep their whole state. -/
def Obligations.BusOperationTouchesOneDevice : Prop :=
  ∀ (s t : State) (a v : Word) (d : Device) (off : Nat), resolve s.cfg a = some (d, off) →
    (exec (.busRead a) s = .next t ∨ exec (.busWrite a v) s = .next t) →
    (d ≠ .encoder → t.te = s.te) ∧ (d ≠ .funnel → t.tf = s.tf) ∧ (d ≠ .sink → t.ts = s.ts)

/-- Every operation has exactly one outcome in every state and it is never a stop: a bus read ends with a word or
`RangeError`, a bus write normally or with `RangeError`, an emission and a push normally; no other row stops either, but
BUS.RANGE_ERROR at a mapped address. -/
def Obligations.EveryOperationCompletes : Prop :=
  ∀ s : State,
    (∀ a, ∃ t, exec (.busRead a) s = .next t ∧ ((∃ w, t.response = .word w) ∨ t.response = .rangeError a)) ∧
    (∀ a v, ∃ t, exec (.busWrite a v) s = .next t ∧ (t.response = .done ∨ t.response = .rangeError a)) ∧
    (∀ pc op, ∃ t, exec (.emit pc op) s = .next t ∧ t.response = .done) ∧
    (∀ data, ∃ t, exec (.tfPush data) s = .next t ∧ t.response = .done) ∧
    (∀ data, ∃ t, exec (.tsPush data) s = .next t ∧ t.response = .done) ∧
    (∀ i, (∀ dir a, i ≠ .busRangeError dir a) → ∃ t, exec i s = .next t)

/-- Reads and writes at an invalid offset, of each device: 0 and nothing done, whatever the offset and the value. The ghost log
is not state of the block (R131) and is left open here. -/
def Obligations.InvalidOffsetsReadZeroAndIgnoreWrites : Prop :=
  ∀ (s : State) (off v : Word),
    (∃ l, exec (.teInvalidRd off) s = .next { s with response := .word 0, log := l }) ∧
    (∃ l, exec (.teInvalidWr off v) s = .next { s with response := .done, log := l }) ∧
    (∃ l, exec (.tfInvalidRd off) s = .next { s with response := .word 0, log := l }) ∧
    (∃ l, exec (.tfInvalidWr off v) s = .next { s with response := .done, log := l }) ∧
    (∃ l, exec (.tsInvalidRd off) s = .next { s with response := .word 0, log := l }) ∧
    (∃ l, exec (.tsInvalidWr off v) s = .next { s with response := .done, log := l })


/-- R80 (1) to (7) for the three descriptors, with every legal choice of the field maxima; (5) where the maxima are those of
R78. The spec infers them from R75. -/
def Obligations.CtrlWriteLaws : Prop :=
  ∀ (m : FieldMax) (d : Desc) (old v : Word), m.wf = true → d ∈ [teDesc m, tfDesc, tsDesc m] →
    (v.getLsbD 0 = false → ctrlWrite d old v = d.deact) ∧
    (v.getLsbD 0 = true → (ctrlWrite d old v).getLsbD 0 = true) ∧
    (old &&& reservedMask d = 0 → ctrlWrite d old v &&& reservedMask d = 0) ∧
    (v.getLsbD 0 = true → ctrlWrite d old v &&& d.roMask = old &&& d.roMask) ∧
    (v.getLsbD 0 = true → m = FieldMax.full → ctrlWrite d old v &&& d.rwMask = v &&& d.rwMask) ∧
    (CtrlLegal d old → old.getLsbD 0 = true → old &&& d.w1cMask = 0 → ctrlWrite d old old = old) ∧
    ctrlWrite d (ctrlWrite d old v) v = ctrlWrite d old v

/-- The clamp of R78 at any legal maximum: a field of the result is the number cut out of the written word, saturated at the
field's maximum; at the maxima of R78 it is that number. -/
def Obligations.FieldsSaturateAtMaximum : Prop :=
  ∀ (m : FieldMax) (d : Desc) (old v : Word) (f : Field), m.wf = true → d ∈ [teDesc m, tfDesc, tsDesc m] →
    f ∈ d.fields → v.getLsbD 0 = true →
    f.get (ctrlWrite d old v) = min (f.get v) f.fmax ∧ (m = FieldMax.full → f.get (ctrlWrite d old v) = f.get v)

/-- Write 1 to clear (R79): the one such bit of the block is bit 12 of the Encoder's register; after a write with Active = 1 it
is its old value and not the bit written. -/
def Obligations.WriteOneClearsOverflowBit : Prop :=
  ∀ (m : FieldMax) (d : Desc) (old v : Word) (b : Nat), d ∈ [teDesc m, tfDesc, tsDesc m] → v.getLsbD 0 = true →
    d.w1cMask.getLsbD b = true →
    d = teDesc m ∧ b = 12 ∧ (ctrlWrite d old v).getLsbD b = (old.getLsbD b && !v.getLsbD b)

/-- The masks of the three registers are disjoint and, with the reserved bits, cover the word. -/
def Obligations.ControlMasksPartitionTheWord : Prop :=
  0x07F3AA77#32 ||| 0x00000008#32 ||| 0x00001000#32 ||| 0xF80C4580#32 = 0xFFFFFFFF#32 ∧
  reservedMask (teDesc FieldMax.full) = 0xF80C4580#32 ∧ reservedMask tfDesc = 0xFFFFFFF4#32 ∧
  reservedMask (tsDesc FieldMax.full) = 0xFFFF88E4#32 ∧
  (∀ d ∈ [teDesc FieldMax.full, tfDesc, tsDesc FieldMax.full],
    d.rwMask &&& d.roMask = 0 ∧ d.rwMask &&& d.w1cMask = 0 ∧ d.roMask &&& d.w1cMask = 0 ∧
    d.active &&& d.rwMask = d.active ∧ ∀ f ∈ d.fields, f.mask &&& d.rwMask = f.mask)

/-- TE.CONTROL.WR as R90 spells it out, with the maxima of R78, and its frame: nothing else of the block changes. -/
def Obligations.EncoderControlWrite : Prop :=
  ∀ (s : State) (v : Word), s.cfg.fmax = FieldMax.full →
    exec (.teControlWr v) s = .next { s with
      response := .done
      te := { ctrl :=
        if v &&& 0x00000001 = 0 then 0x00000008
        else ((s.te.ctrl &&& 0x00001008) ||| (v &&& 0x07F3AA77)) &&& ~~~(v &&& 0x00001000) } }

/-- TF.CONTROL.WR as R97 spells it out; `tf_dis` keeps its value, also through a master reset. -/
def Obligations.FunnelControlWrite : Prop :=
  ∀ (s : State) (v : Word),
    exec (.tfControlWr v) s = .next { s with
      response := .done
      tf := { ctrl := if v &&& 0x00000001 = 0 then 0x00000000 else (s.tf.ctrl &&& 0x00000008) ||| (v &&& 0x00000003)
              dis := s.tf.dis } }

/-- TF.DIS_INPUT.WR as R99 gives it, in every device state: the low 16 bits are stored verbatim, nothing else changes. -/
def Obligations.DisInputWrite : Prop :=
  ∀ (s : State) (v : Word),
    exec (.tfDisInputWr v) s = .next { s with
      response := .done
      tf := { ctrl := s.tf.ctrl, dis := v &&& 0x0000FFFF } }

/-- TS.CONTROL.WR as R106 spells it out, with the maxima of R78: a master reset zeroes the buffer, the cursors and the count
and keeps `dropped`; any other write replaces the RW bits, recomputes Empty and keeps the buffer. -/
def Obligations.SinkControlWrite : Prop :=
  ∀ (s : State) (v : Word), s.cfg.fmax = FieldMax.full →
    (v &&& 0x00000001 = 0 → ∃ ts : Sink,
      exec (.tsControlWr v) s = .next { s with response := .done, ts := ts } ∧
      ts.ctrl = 0x00000008 ∧ (∀ a, ts.buf.read a = 0) ∧ ts.wp = 0 ∧ ts.rp = 0 ∧ ts.count = 0 ∧ ts.dropped = s.ts.dropped) ∧
    (v &&& 0x00000001 ≠ 0 →
      exec (.tsControlWr v) s = .next { s with
        response := .done
        ts := { s.ts with ctrl := (v &&& 0x00007713) ||| (if s.ts.count = 0 then 0x00000008 else 0x00000000) } })

/-- After a control write the device is Inactive if the written Active bit is 0, and Running or Idle by the written Enable (and,
for the Encoder, InstTracing) bits if it is 1 (R81). -/
def Obligations.ControlWriteSetsDeviceState : Prop :=
  ∀ (s t : State) (v : Word),
    (exec (.teControlWr v) s = .next t → teState t.te =
      (if v.getLsbD 0 then (if v.getLsbD 1 && v.getLsbD 2 then .activeRunning else .activeIdle) else .inactive)) ∧
    (exec (.tfControlWr v) s = .next t → tfState t.tf =
      (if v.getLsbD 0 then (if v.getLsbD 1 then .activeRunning else .activeIdle) else .inactive)) ∧
    (exec (.tsControlWr v) s = .next t → tsState t.ts =
      (if v.getLsbD 0 then (if v.getLsbD 1 then .activeRunning else .activeIdle) else .inactive))

/-- No push, no emission, no read and no write of another register changes a device state: only operations that hold a CONTROL
write do (R81). -/
def Obligations.OnlyControlWritesChangeDeviceStates : Prop :=
  ∀ (i : Instr) (s t : State), exec i s = .next t →
    (mayWriteControl i = false ∨ ∃ a v d off, i = .busWrite a v ∧ resolve s.cfg a = some (d, off) ∧ off ≠ 0x000) →
    teState t.te = teState s.te ∧ tfState t.tf = tfState s.tf ∧ tsState t.ts = tsState s.ts

/-- The reads without side effect return the register as stored, or the cursor with its low two bits clear; nothing but the
reported word changes (R89, R96, R98, R107, R108). -/
def Obligations.PlainReadsReturnRegisters : Prop :=
  ∀ s : State,
    exec .teControlRd s = .next { s with response := .word s.te.ctrl } ∧
    exec .tfControlRd s = .next { s with response := .word s.tf.ctrl } ∧
    exec .tfDisInputRd s = .next { s with response := .word s.tf.dis } ∧
    exec .tsWpLowRd s = .next { s with response := .word (BitVec.ofNat 32 s.ts.wp &&& 0xFFFFFFFC) } ∧
    exec .tsRpLowRd s = .next { s with response := .word (BitVec.ofNat 32 s.ts.rp &&& 0xFFFFFFFC) }

/-- The cursor registers return the cursor rounded down to a multiple of 4, as a number (R42, R107, R108), and change nothing;
RP_LOW returns `rp` itself when 4 divides CAP. -/
def Obligations.CursorRegistersRoundDown : Prop :=
  ∀ s : State, s.Inv →
    (∃ w, exec .tsWpLowRd s = .next { s with response := .word w } ∧ w.toNat = s.ts.wp - s.ts.wp % 4) ∧
    (∃ w, exec .tsRpLowRd s = .next { s with response := .word w } ∧ w.toNat = s.ts.rp - s.ts.rp % 4 ∧
      (4 ∣ s.cfg.cap → w.toNat = s.ts.rp))

/-- TS.CONTROL.RD, whole: it stores Empty recomputed from `count == 0` and returns the register; in a state that keeps the
invariant nothing changes but the reported word (R105). -/
def Obligations.SinkControlRead : Prop :=
  ∀ s : State,
    (∃ w, exec .tsControlRd s = .next { s with response := .word w, ts := { s.ts with ctrl := w } } ∧
      w.getLsbD 3 = decide (s.ts.count = 0) ∧ ∀ i, i ≠ 3 → w.getLsbD i = s.ts.ctrl.getLsbD i) ∧
    (s.Inv → exec .tsControlRd s = .next { s with response := .word s.ts.ctrl })

/-- Writes of WP_LOW, RP_LOW and DATA are accepted and change nothing but the reported outcome (R110). -/
def Obligations.ReadOnlySinkRegistersIgnoreWrites : Prop :=
  ∀ (s : State) (v : Word),
    exec (.tsWpLowWr v) s = .next { s with response := .done } ∧
    exec (.tsRpLowWr v) s = .next { s with response := .done } ∧
    exec (.tsDataWr v) s = .next { s with response := .done }


/-- EMIT, whole (R88). Gate closed: nothing but the normal end. Gate open: Empty is cleared and the eight bytes of the record
are pushed into the Funnel, whatever becomes of them there. -/
def Obligations.EmitPushesRecord : Prop :=
  ∀ (s : State) (pc op : Word),
    (¬(s.te.ctrl.getLsbD 0 = true ∧ s.te.ctrl.getLsbD 1 = true ∧ s.te.ctrl.getLsbD 2 = true) →
      exec (.emit pc op) s = .next { s with response := .done }) ∧
    (s.te.ctrl.getLsbD 0 = true → s.te.ctrl.getLsbD 1 = true → s.te.ctrl.getLsbD 2 = true →
      ∃ t, exec (.emit pc op) s = .next t ∧ t.response = .done ∧
        t.te = { ctrl := s.te.ctrl &&& ~~~0x00000008 } ∧ t.tf = s.tf ∧
        exec (.tfPush [pc.extractLsb' 0 8, pc.extractLsb' 8 8, pc.extractLsb' 16 8, pc.extractLsb' 24 8,
            op.extractLsb' 0 8, op.extractLsb' 8 8, op.extractLsb' 16 8, op.extractLsb' 24 8])
          { s with te := { ctrl := s.te.ctrl &&& ~~~0x00000008 } } = .next t)

/-- TF.PUSH, whole (R95): dropped by the closed gate, dropped by a non-zero `tf_dis`, or forwarded unchanged to TS.PUSH. The
Funnel and the Encoder keep their state. The ghost log of the two drops is left open here (R131). -/
def Obligations.FunnelForwardsOrDrops : Prop :=
  ∀ (s : State) (data : List Byte),
    (¬(s.tf.ctrl.getLsbD 0 = true ∧ s.tf.ctrl.getLsbD 1 = true) →
      ∃ l, exec (.tfPush data) s = .next { s with response := .done, log := l }) ∧
    (s.tf.ctrl.getLsbD 0 = true → s.tf.ctrl.getLsbD 1 = true → s.tf.dis ≠ 0 →
      ∃ l, exec (.tfPush data) s = .next { s with response := .done, log := l }) ∧
    (s.tf.ctrl.getLsbD 0 = true → s.tf.ctrl.getLsbD 1 = true → s.tf.dis = 0 →
      ∃ t, exec (.tfPush data) s = .next t ∧ exec (.tsPush data) s = .next t ∧ t.tf = s.tf ∧ t.te = s.te)

/-- TS.PUSH, whole (R104): a closed gate drops all of it; an open one stores the longest prefix that fits, from `wp` on, counts
the rest as dropped, clears Empty if a byte was stored, and leaves every other byte, the read cursor and the other devices as
they were. The ghost log is left open here where bytes are dropped (R131; log entry 4), and is unchanged where all are stored. -/
def Obligations.SinkPushNetEffect : Prop :=
  ∀ (s : State) (data : List Byte),
    (¬(s.ts.ctrl.getLsbD 0 = true ∧ s.ts.ctrl.getLsbD 1 = true) →
      ∃ l, exec (.tsPush data) s = .next { s with response := .done, log := l }) ∧
    (s.ts.ctrl.getLsbD 0 = true → s.ts.ctrl.getLsbD 1 = true →
      s.ts.buf.wf = true → s.ts.wp < s.cfg.cap → s.ts.count ≤ s.cfg.cap →
      ∃ (ts : Sink) (l : List LogEvent), exec (.tsPush data) s = .next { s with response := .done, ts := ts, log := l } ∧
        (data.length ≤ s.cfg.cap - s.ts.count → l = s.log) ∧
        ts.count = s.ts.count + min data.length (s.cfg.cap - s.ts.count) ∧
        ts.wp = (s.ts.wp + min data.length (s.cfg.cap - s.ts.count)) % s.cfg.cap ∧
        ts.rp = s.ts.rp ∧
        ts.dropped = s.ts.dropped + (data.length - min data.length (s.cfg.cap - s.ts.count)) ∧
        ts.ctrl = (if 1 ≤ min data.length (s.cfg.cap - s.ts.count) then s.ts.ctrl &&& ~~~0x00000008 else s.ts.ctrl) ∧
        (∀ j (hj : j < data.length), j < s.cfg.cap - s.ts.count → ts.buf.read ((s.ts.wp + j) % s.cfg.cap) = data[j]) ∧
        (∀ a, (∀ j, j < min data.length (s.cfg.cap - s.ts.count) → a ≠ (s.ts.wp + j) % s.cfg.cap) →
          ts.buf.read a = s.ts.buf.read a))

/-- TS.DATA.RD, whole (R109): fewer than four live bytes give 0 and change nothing; else the little-endian word of four
successive bytes is popped, Empty recomputed, and no byte of the buffer changes. The ghost log of a short read is left open here
(R131). -/
def Obligations.DataReadPopsOneWord : Prop :=
  ∀ s : State,
    (s.ts.count < 4 → ∃ l, exec .tsDataRd s = .next { s with response := .word 0, log := l }) ∧
    (4 ≤ s.ts.count → exec .tsDataRd s = .next { s with
      response := .word ((s.ts.buf.read s.ts.rp).setWidth 32
        ||| (s.ts.buf.read ((s.ts.rp + 1) % s.cfg.cap)).setWidth 32 <<< 8
        ||| (s.ts.buf.read ((s.ts.rp + 2) % s.cfg.cap)).setWidth 32 <<< 16
        ||| (s.ts.buf.read ((s.ts.rp + 3) % s.cfg.cap)).setWidth 32 <<< 24)
      ts := { s.ts with
        rp := (s.ts.rp + 4) % s.cfg.cap
        count := s.ts.count - 4
        ctrl := (s.ts.ctrl &&& ~~~0x00000008) ||| (if s.ts.count - 4 = 0 then 0x00000008 else 0x00000000) } })

/-- The conservation law of the ring buffer, for every operation but a master reset of the Sink: what is popped, followed by
what is live after it, is what was live before it followed by what it accepted. -/
def Obligations.OperationConservesLiveBytes : Prop :=
  ∀ (i : Instr) (s t : State), s.Inv → resetsSink i s = false → exec i s = .next t →
    (popped i s).flatMap le32 ++ t.live = s.live ++ accepted i s

/-- The FIFO property over whole runs (R113): from a Sink that holds nothing, the words popped in a run without a master reset
of the Sink are, as bytes, the first of the bytes accepted, in order, and what is left of those is live. It holds of a run of
operations, and of a run of steps, whatever stands between the lines of the driver sequences in it (R149). -/
def Obligations.RunPopsAcceptedBytesInOrder : Prop :=
  (∀ (is : List Instr) (s t : State), s.Inv → s.ts.count = 0 → neverResetsSink is s = true → runOps is s = .next t →
    (poppedIn is s).flatMap le32 ++ t.live = acceptedIn is s ∧
    t.ts.count = (acceptedIn is s).length - 4 * (poppedIn is s).length) ∧
  (∀ (n : Nat) (s t : State), s.Inv → s.ts.count = 0 → stepsNeverResetSink n s = true → runSteps n s = .next t →
    (poppedInSteps n s).flatMap le32 ++ t.live = acceptedInSteps n s ∧
    t.ts.count = (acceptedInSteps n s).length - 4 * (poppedInSteps n s).length)

/-- A word pushed as its four little-endian bytes into an empty Sink comes back as itself from the next read of DATA (R40). -/
def Obligations.PushedWordIsPoppedUnchanged : Prop :=
  ∀ (s : State) (w : Word), s.Inv → s.ts.ctrl.getLsbD 0 = true → s.ts.ctrl.getLsbD 1 = true → s.ts.count = 0 →
    4 ≤ s.cfg.cap →
    ∃ t u, exec (.tsPush [w.extractLsb' 0 8, w.extractLsb' 8 8, w.extractLsb' 16 8, w.extractLsb' 24 8]) s = .next t ∧
      exec .tsDataRd t = .next u ∧ u.response = .word w ∧ u.ts.count = 0

/-- While `tf_dis` is not 0, no run of emissions and pushes into the Funnel changes anything of the Sink or of the Funnel. -/
def Obligations.DisabledInputBlocksEverything : Prop :=
  ∀ (is : List Instr) (s t : State), s.tf.dis ≠ 0 → (∀ i ∈ is, funnelProducer i = true) → runOps is s = .next t →
    t.ts = s.ts ∧ t.tf = s.tf


/-- The ghost log (the model's choice, log entry 4, which R131 permits): each condition the spec marks as logged appends its
one event, and an emission through open gates, a push that is stored or cut by a full buffer and a pop append none. That an
overflow appends none is the model's choice too (log entry 4): R104 and R129 give it no log line, the prose of R125 does. -/
def Obligations.GhostLogRecordsConditions : Prop :=
  ∀ (s : State) (off v : Word) (data : List Byte),
    (∀ i e, (i, e) ∈ [(Instr.teInvalidRd off, LogEvent.invalidOffset .encoder), (.teInvalidWr off v, .invalidOffset .encoder),
        (.tfInvalidRd off, .invalidOffset .funnel), (.tfInvalidWr off v, .invalidOffset .funnel),
        (.tsInvalidRd off, .invalidOffset .sink), (.tsInvalidWr off v, .invalidOffset .sink)] →
      ∃ t, exec i s = .next t ∧ t.log = s.log ++ [e]) ∧
    (∃ t, exec (.tfPush data) s = .next t ∧
      t.log = s.log ++ (if tfGate s.tf = false then [.funnelGated] else if s.tf.dis ≠ 0 then [.funnelInputDisabled]
        else if tsGate s.ts = false then [.sinkGated] else [])) ∧
    (∃ t, exec (.tsPush data) s = .next t ∧ t.log = s.log ++ (if tsGate s.ts = false then [.sinkGated] else [])) ∧
    (∃ t, exec .tsDataRd s = .next t ∧ t.log = s.log ++ (if s.ts.count < 4 then [.shortRead] else []))

/-- `dropped` and the ghost log cannot be observed: with them set aside, every operation reports the same outcome and leaves
the same state. -/
def Obligations.DiagnosticsAreUnobservable : Prop :=
  ∀ (i : Instr) (s t : State), exec i s = .next t →
    ∃ u, exec i s.hideDiagnostics = .next u ∧ u.response = t.response ∧ u.hideDiagnostics = t.hideDiagnostics

/-- Bytes of the buffer that are not live cannot be observed: two states that differ only there report the same outcome of
every operation and differ again only there. -/
def Obligations.DeadBytesAreUnobservable : Prop :=
  ∀ (i : Instr) (s t : State) (m : Memory), s.Inv →
    m.wf = true → m.within s.cfg.cap = true →
    ({ s with ts := { s.ts with buf := m } } : State).live = s.live → exec i s = .next t →
    ∃ u, exec i { s with ts := { s.ts with buf := m } } = .next u ∧ u.response = t.response ∧ u.live = t.live ∧
      ({ u with ts := { u.ts with buf := t.ts.buf } } : State) = t

/-- The Encoder's fields other than Active, Enable and InstTracing do not change what an emission does to the Funnel and the
Sink; the Sink's other than Active and Enable do not change what a push does to the buffer, the cursors and the counters. -/
def Obligations.StorageOnlyFieldsHaveNoFunction : Prop :=
  ∀ (s t u : State) (c : Word),
    (∀ pc op, c &&& 0x00000007 = s.te.ctrl &&& 0x00000007 → exec (.emit pc op) s = .next t →
      exec (.emit pc op) { s with te := { ctrl := c } } = .next u → u.tf = t.tf ∧ u.ts = t.ts) ∧
    (∀ data, c &&& 0x00000003 = s.ts.ctrl &&& 0x00000003 → exec (.tsPush data) s = .next t →
      exec (.tsPush data) { s with ts := { s.ts with ctrl := c } } = .next u →
      ({ u.ts with ctrl := t.ts.ctrl } : Sink) = t.ts)


/-- CONFIGURE (R118) from every state, with the maxima of R78: all its assertions hold; the end state has the three control
registers written, `tf_dis` 0, and the buffer, cursors and counters untouched. -/
def Obligations.ConfigureAlwaysSucceeds : Prop :=
  ∀ s : State, s.cfg.wf = true → s.cfg.fmax = FieldMax.full →
    exec .configure s = .next { s with
      response := .done
      te := { ctrl := 0x05000005 ||| (s.te.ctrl &&& 0x00001008) }
      tf := { ctrl := 0x00000003 ||| (s.tf.ctrl &&& 0x00000008), dis := 0x00000000 }
      ts := { s.ts with ctrl := 0x00000003 ||| (if s.ts.count = 0 then 0x00000008 else 0x00000000) } }

/-- START (R119): on an active Encoder only Enable changes and it becomes 1; on an inactive one the write is a master reset and
the sequence stops at its first assertion, with the write performed. The second clause is the sentence of R119 that the spec
marks as its own inference, "[derived: from 41_control_register.md rule R76]": "If it is Inactive, `c | 0x2` still has
Active = 0, the write is a master reset, `c2 = 0x0000_0008`, and the first assertion fails." -/
def Obligations.StartSetsEnableOnly : Prop :=
  ∀ s : State, s.Inv →
    (s.te.ctrl.getLsbD 0 = true →
      exec .start s = .next { s with response := .done, te := { ctrl := s.te.ctrl ||| 0x00000002 } }) ∧
    (s.te.ctrl.getLsbD 0 = false →
      exec .start s = .next { s with response := .assertionFailed, te := { ctrl := 0x00000008 } })

/-- STOP (R120): its assertions hold from every state; Enable is cleared on each active device, an inactive Encoder gets the
value of a master reset, and the buffer, the cursors and the counters are unchanged. That the buffer is unchanged also when the
Sink is Inactive is the sentence of R120 that the spec marks as its own inference, "[derived: from 45_sink.md rule R104 and rule
R106: no byte is stored while Active = 0]": "for the Sink that reset clears a buffer which, in state Inactive, is empty already". -/
def Obligations.StopClearsEnablesAndKeepsData : Prop :=
  ∀ s : State, s.Inv →
    exec .stop s = .next { s with
      response := .done
      te := { ctrl := if s.te.ctrl.getLsbD 0 then s.te.ctrl &&& ~~~0x00000002 else 0x00000008 }
      tf := { ctrl := s.tf.ctrl &&& ~~~0x00000002, dis := s.tf.dis }
      ts := { s.ts with ctrl := s.ts.ctrl &&& ~~~0x00000002 } }

/-- The loop of FETCH, one turn (R121): a budget of 0 issues no bus operation; equal cursor registers end it; otherwise one
word is read from DATA and the rest of the budget is fetched from the state that read leaves. -/
def Obligations.FetchUnrollsByOneWord : Prop :=
  ∀ (s : State) (n : Nat), s.cfg.wf = true →
    exec (.fetch 0) s = .next { s with response := .words [] } ∧
    (cursorWord s.ts.wp = cursorWord s.ts.rp → exec (.fetch (n + 1)) s = .next { s with response := .words [] }) ∧
    (cursorWord s.ts.wp ≠ cursorWord s.ts.rp →
      ∃ t u d ws, exec .tsDataRd s = .next t ∧ t.response = .word d ∧
        exec (.fetch n) t = .next u ∧ u.response = .words ws ∧
        exec (.fetch (n + 1)) s = .next { u with response := .words (d :: ws) })

/-- FETCH when 4 divides CAP and the buffer is not full, whole (R121): it returns the first words of the live data, as many as
the budget and the data allow, and leaves the rest live; `rp`, `count` and Empty follow the pops and nothing else changes. -/
def Obligations.FetchReturnsLiveWords : Prop :=
  ∀ (s : State) (n : Nat), s.Inv → 4 ∣ s.cfg.cap → s.ts.count ≠ s.cfg.cap →
    ∃ (t : State) (ws : List Word), exec (.fetch n) s = .next t ∧
      t = { s with
        response := .words ws
        ts := { s.ts with
          rp := (s.ts.rp + 4 * ws.length) % s.cfg.cap
          count := s.ts.count - 4 * ws.length
          ctrl := (s.ts.ctrl &&& ~~~0x00000008) ||| (if s.ts.count - 4 * ws.length = 0 then 0x00000008 else 0x00000000) } } ∧
      ws.length = min n (s.ts.count / 4) ∧
      ws.flatMap le32 = s.live.take (4 * ws.length) ∧
      t.live = s.live.drop (4 * ws.length)

/-- Full looks drained (R146): on a full buffer FETCH returns nothing and changes nothing, whatever CAP is. -/
def Obligations.FetchOnFullBufferReturnsNothing : Prop :=
  ∀ (s : State) (n : Nat), s.Inv → s.ts.count = s.cfg.cap →
    exec (.fetch n) s = .next { s with response := .words [] }

/-- FETCH ends within its budget in every state of a well-formed instance, and touches only the Sink and the ghost log (R124). -/
def Obligations.FetchEndsWithinBudget : Prop :=
  ∀ (s : State) (n : Nat), s.cfg.wf = true →
    ∃ t ws, exec (.fetch n) s = .next t ∧ t.response = .words ws ∧ ws.length ≤ n ∧
      t.te = s.te ∧ t.tf = s.tf ∧ t.ts.wp = s.ts.wp ∧ t.ts.buf = s.ts.buf

/-- An emission between the read and the write of a read-modify-write of the Encoder's CONTROL cannot disturb it (R150): the
register ends as if the emission had come first, and Empty, which is RO, is not overwritten by the stale value. -/
def Obligations.EmissionCannotDisturbReadModifyWrite : Prop :=
  ∀ (s t u : State) (c pc op : Word), s.Inv → s.te.ctrl.getLsbD 0 = true →
    exec .teControlRd s = .next t → t.response = .word c →
    exec (.emit pc op) t = .next u →
    ∃ x, exec (.teControlWr (c ||| 0x00000002)) u = .next x ∧ x.te = { ctrl := u.te.ctrl ||| 0x00000002 } ∧
      x.te.ctrl.getLsbD 3 = u.te.ctrl.getLsbD 3

/-- A master reset of each device against its construction values (R142): the Funnel's `tf_ctrl` and the Sink but for `dropped`
are as constructed; the Encoder's Empty is 1 and not 0; `tf_dis` keeps its value. -/
def Obligations.MasterResetAgainstConstruction : Prop :=
  ∀ (s : State) (v : Word), v.getLsbD 0 = false →
    exec (.teControlWr v) s = .next { s with
      response := .done, te := { ctrl := (State.construct s.cfg).te.ctrl ||| 0x00000008 } } ∧
    exec (.tfControlWr v) s = .next { s with
      response := .done, tf := { ctrl := (State.construct s.cfg).tf.ctrl, dis := s.tf.dis } } ∧
    exec (.tsControlWr v) s = .next { s with
      response := .done, ts := { (State.construct s.cfg).ts with dropped := s.ts.dropped } }


/-- The four sequences whose lines are turns of their own, with no other turn between them: a call followed by turns for all its
lines (8, 3, 9, three for each word of the budget; turns to spare do nothing) is the operation performed whole. -/
def Obligations.CallWithNothingBetweenIsTheOperation : Prop :=
  ∀ (s : State) (f : Frame) (i : Instr) (m : Nat) (rest : List Turn), s.Inv → decode f = .ok i →
    (i = .configure ∧ 8 ≤ m ∨ i = .start ∧ 3 ≤ m ∨ i = .stop ∧ 9 ≤ m ∨ ∃ n, i = .fetch n ∧ 3 * n ≤ m) →
    s.pending = .call f :: (List.replicate m (.line s.running.length) ++ rest) →
    runSteps (m + 1) s = exec i { s with pending := rest }

/-- Cursor reads are separate operations (R149). An emission between the `WP_LOW` and the `RP_LOW` read of a `FETCH`: the decision
is made on the stale write cursor, so the sequence may end although data has just arrived, and nothing is lost. An emission
between the comparison and the `DATA` read: the word collected is the oldest live word of before, and the emission only adds
bytes behind. -/
def Obligations.EmissionBetweenLinesOfFetch : Prop :=
  ∀ (s : State) (f : Frame) (pc op : Word) (k more : Nat) (ws : List Word) (rest : List Turn), s.Inv →
    decode f = .ok (.emit pc op) →
    (s.running[k]? = some (.fetch more ws .wpLow) → s.pending = .line k :: .operation f :: .line k :: rest →
      ∃ t, runSteps 3 s = .next t ∧ t.ts.rp = s.ts.rp ∧ t.live = s.live ++ accepted (.emit pc op) s ∧
        (cursorWord s.ts.wp = cursorWord s.ts.rp → t.response = .words ws ∧ t.running = s.running.eraseIdx k) ∧
        (cursorWord s.ts.wp ≠ cursorWord s.ts.rp → t.running = s.running.set k (.fetch more ws .data))) ∧
    (s.running[k]? = some (.fetch more ws .data) → 4 ≤ s.ts.count → s.pending = .operation f :: .line k :: rest →
      ∃ t w, runSteps 2 s = .next t ∧ le32 w = s.live.take 4 ∧
        t.live = s.live.drop 4 ++ accepted (.emit pc op) s ∧
        (more = 0 → t.response = .words (ws ++ [w]) ∧ t.running = s.running.eraseIdx k) ∧
        (∀ n, more = n + 1 → t.running = s.running.set k (.fetch n (ws ++ [w]) .wpLow)))

/-- A read-modify-write is not atomic (R150). Whatever operation falls between the read and the write-back of a CONTROL register by
`START` or `STOP`, a write of another master to that register among them: the register ends as the sequence computed it from the
word it read, but for Empty, which is RO. A write-back to a register that was read as Inactive is a master reset. The read-back
that follows passes or fails on the register as it then is. -/
def Obligations.WriteBetweenReadAndWriteBackIsOverwritten : Prop :=
  ∀ (s : State) (k : Nat) (u : EnableUpdate) (ls : List Line) (c : Word), s.Inv →
    (∀ (x : State) (a : Word) (f : Frame) (rest : List Turn) (new : Word → Word),
      (u = .set ∧ (∀ w, new w = w ||| 0x00000002) ∨ u = .clear ∧ (∀ w, new w = w &&& ~~~0x00000002)) →
      s.running[k]? = some (.lines (.load a) (.update a u :: ls) c) →
      s.pending = .line k :: .operation f :: .line k :: rest → runSteps 2 s = .next x →
      (a = teAddr s.cfg 0x000 → ∃ t, runSteps 3 s = .next t ∧ t.tf = x.tf ∧ t.ts = x.ts ∧
        t.te.ctrl = if s.te.ctrl.getLsbD 0 then (new s.te.ctrl &&& ~~~0x00000008) ||| (x.te.ctrl &&& 0x00000008)
          else 0x00000008) ∧
      (a = tfAddr s.cfg 0x000 → ∃ t, runSteps 3 s = .next t ∧ t.te = x.te ∧ t.ts = x.ts ∧ t.tf.dis = x.tf.dis ∧
        t.tf.ctrl = if s.tf.ctrl.getLsbD 0 then new s.tf.ctrl else 0x00000000) ∧
      (a = tsAddr s.cfg 0x000 → ∃ t, runSteps 3 s = .next t ∧ t.te = x.te ∧ t.tf = x.tf ∧
        t.ts = if s.ts.ctrl.getLsbD 0 then { x.ts with
            ctrl := (new s.ts.ctrl &&& ~~~0x00000008) ||| (if x.ts.count = 0 then 0x00000008 else 0x00000000) }
          else { (State.construct s.cfg).ts with dropped := x.ts.dropped })) ∧
    (∀ rest, s.running[k]? = some (.lines (.verify (teAddr s.cfg 0x000) .set) [] c) → s.pending = .line k :: rest →
      step s = .next { s with
        pending := rest
        running := s.running.eraseIdx k
        response := if s.te.ctrl.getLsbD 1 = true ∧ s.te.ctrl &&& ~~~0x00000002 = c &&& ~~~0x00000002 then .done
          else .assertionFailed })

end
end

