-- ==== Sys2Proof/Laws/State.lean ====
section
/-! SUPPORT. One lemma per field per named update, true by unfolding and tagged for simp, so that no later proof unfolds a
record update. -/

namespace Sys2Proof.Machine

@[simp] theorem State.respond_cfg (s : State) (r : Response) : (s.respond r).cfg = s.cfg := rfl
@[simp] theorem State.respond_te (s : State) (r : Response) : (s.respond r).te = s.te := rfl
@[simp] theorem State.respond_tf (s : State) (r : Response) : (s.respond r).tf = s.tf := rfl
@[simp] theorem State.respond_ts (s : State) (r : Response) : (s.respond r).ts = s.ts := rfl
@[simp] theorem State.respond_response (s : State) (r : Response) : (s.respond r).response = r := rfl
@[simp] theorem State.respond_log (s : State) (r : Response) : (s.respond r).log = s.log := rfl
@[simp] theorem State.respond_pending (s : State) (r : Response) : (s.respond r).pending = s.pending := rfl
@[simp] theorem State.respond_running (s : State) (r : Response) : (s.respond r).running = s.running := rfl

@[simp] theorem State.logged_cfg (s : State) (e : LogEvent) : (s.logged e).cfg = s.cfg := rfl
@[simp] theorem State.logged_te (s : State) (e : LogEvent) : (s.logged e).te = s.te := rfl
@[simp] theorem State.logged_tf (s : State) (e : LogEvent) : (s.logged e).tf = s.tf := rfl
@[simp] theorem State.logged_ts (s : State) (e : LogEvent) : (s.logged e).ts = s.ts := rfl
@[simp] theorem State.logged_response (s : State) (e : LogEvent) : (s.logged e).response = s.response := rfl
@[simp] theorem State.logged_log (s : State) (e : LogEvent) : (s.logged e).log = s.log ++ [e] := rfl
@[simp] theorem State.logged_pending (s : State) (e : LogEvent) : (s.logged e).pending = s.pending := rfl
@[simp] theorem State.logged_running (s : State) (e : LogEvent) : (s.logged e).running = s.running := rfl

@[simp] theorem teControlWrite_cfg (v : Word) (s : State) : (teControlWrite v s).cfg = s.cfg := rfl
@[simp] theorem teControlWrite_te (v : Word) (s : State) : (teControlWrite v s).te = ⟨ctrlWrite (teDesc s.cfg.fmax) s.te.ctrl v⟩ := rfl
@[simp] theorem teControlWrite_tf (v : Word) (s : State) : (teControlWrite v s).tf = s.tf := rfl
@[simp] theorem teControlWrite_ts (v : Word) (s : State) : (teControlWrite v s).ts = s.ts := rfl
@[simp] theorem teControlWrite_response (v : Word) (s : State) : (teControlWrite v s).response = s.response := rfl
@[simp] theorem teControlWrite_log (v : Word) (s : State) : (teControlWrite v s).log = s.log := rfl
@[simp] theorem teControlWrite_pending (v : Word) (s : State) : (teControlWrite v s).pending = s.pending := rfl
@[simp] theorem teControlWrite_running (v : Word) (s : State) : (teControlWrite v s).running = s.running := rfl

@[simp] theorem tfControlWrite_cfg (v : Word) (s : State) : (tfControlWrite v s).cfg = s.cfg := rfl
@[simp] theorem tfControlWrite_te (v : Word) (s : State) : (tfControlWrite v s).te = s.te := rfl
@[simp] theorem tfControlWrite_tf (v : Word) (s : State) : (tfControlWrite v s).tf = ⟨ctrlWrite tfDesc s.tf.ctrl v, s.tf.dis⟩ := rfl
@[simp] theorem tfControlWrite_ts (v : Word) (s : State) : (tfControlWrite v s).ts = s.ts := rfl
@[simp] theorem tfControlWrite_response (v : Word) (s : State) : (tfControlWrite v s).response = s.response := rfl
@[simp] theorem tfControlWrite_log (v : Word) (s : State) : (tfControlWrite v s).log = s.log := rfl
@[simp] theorem tfControlWrite_pending (v : Word) (s : State) : (tfControlWrite v s).pending = s.pending := rfl
@[simp] theorem tfControlWrite_running (v : Word) (s : State) : (tfControlWrite v s).running = s.running := rfl

@[simp] theorem Sink.setEmpty_ctrl (ts : Sink) (b : Bool) : (ts.setEmpty b).ctrl = setBit ts.ctrl maskEmpty b := rfl
@[simp] theorem Sink.setEmpty_buf (ts : Sink) (b : Bool) : (ts.setEmpty b).buf = ts.buf := rfl
@[simp] theorem Sink.setEmpty_wp (ts : Sink) (b : Bool) : (ts.setEmpty b).wp = ts.wp := rfl
@[simp] theorem Sink.setEmpty_rp (ts : Sink) (b : Bool) : (ts.setEmpty b).rp = ts.rp := rfl
@[simp] theorem Sink.setEmpty_count (ts : Sink) (b : Bool) : (ts.setEmpty b).count = ts.count := rfl
@[simp] theorem Sink.setEmpty_dropped (ts : Sink) (b : Bool) : (ts.setEmpty b).dropped = ts.dropped := rfl

@[simp] theorem Sink.recomputeEmpty_ctrl (ts : Sink) : (ts.recomputeEmpty).ctrl = setBit ts.ctrl maskEmpty (decide (ts.count = 0)) := rfl
@[simp] theorem Sink.recomputeEmpty_buf (ts : Sink) : (ts.recomputeEmpty).buf = ts.buf := rfl
@[simp] theorem Sink.recomputeEmpty_wp (ts : Sink) : (ts.recomputeEmpty).wp = ts.wp := rfl
@[simp] theorem Sink.recomputeEmpty_rp (ts : Sink) : (ts.recomputeEmpty).rp = ts.rp := rfl
@[simp] theorem Sink.recomputeEmpty_count (ts : Sink) : (ts.recomputeEmpty).count = ts.count := rfl
@[simp] theorem Sink.recomputeEmpty_dropped (ts : Sink) : (ts.recomputeEmpty).dropped = ts.dropped := rfl

@[simp] theorem Sink.store_ctrl (cap : Nat) (ts : Sink) (b : Byte) : (ts.store cap b).ctrl = setBit ts.ctrl maskEmpty false := rfl
@[simp] theorem Sink.store_buf (cap : Nat) (ts : Sink) (b : Byte) : (ts.store cap b).buf = ts.buf.write ts.wp b := rfl
@[simp] theorem Sink.store_wp (cap : Nat) (ts : Sink) (b : Byte) : (ts.store cap b).wp = (ts.wp + 1) % cap := rfl
@[simp] theorem Sink.store_rp (cap : Nat) (ts : Sink) (b : Byte) : (ts.store cap b).rp = ts.rp := rfl
@[simp] theorem Sink.store_count (cap : Nat) (ts : Sink) (b : Byte) : (ts.store cap b).count = ts.count + 1 := rfl
@[simp] theorem Sink.store_dropped (cap : Nat) (ts : Sink) (b : Byte) : (ts.store cap b).dropped = ts.dropped := rfl

@[simp] theorem Sink.pop_ctrl (cap : Nat) (ts : Sink) : (ts.pop cap).ctrl = setBit ts.ctrl maskEmpty (decide (ts.count - 4 = 0)) := rfl
@[simp] theorem Sink.pop_buf (cap : Nat) (ts : Sink) : (ts.pop cap).buf = ts.buf := rfl
@[simp] theorem Sink.pop_wp (cap : Nat) (ts : Sink) : (ts.pop cap).wp = ts.wp := rfl
@[simp] theorem Sink.pop_rp (cap : Nat) (ts : Sink) : (ts.pop cap).rp = (ts.rp + 4) % cap := rfl
@[simp] theorem Sink.pop_count (cap : Nat) (ts : Sink) : (ts.pop cap).count = ts.count - 4 := rfl
@[simp] theorem Sink.pop_dropped (cap : Nat) (ts : Sink) : (ts.pop cap).dropped = ts.dropped := rfl

@[simp] theorem Sink.cleared_ctrl (n : Nat) : (Sink.cleared n).ctrl = 0x00000008#32 := rfl
@[simp] theorem Sink.cleared_buf (n : Nat) : (Sink.cleared n).buf = [] := rfl
@[simp] theorem Sink.cleared_wp (n : Nat) : (Sink.cleared n).wp = 0 := rfl
@[simp] theorem Sink.cleared_rp (n : Nat) : (Sink.cleared n).rp = 0 := rfl
@[simp] theorem Sink.cleared_count (n : Nat) : (Sink.cleared n).count = 0 := rfl
@[simp] theorem Sink.cleared_dropped (n : Nat) : (Sink.cleared n).dropped = n := rfl

@[simp] theorem Encoder.setEmpty_ctrl (te : Encoder) (b : Bool) : (te.setEmpty b).ctrl = setBit te.ctrl maskEmpty b := rfl

end Sys2Proof.Machine
end

