-- ==== Sys2Proof/Laws/Bits.lean ====
section
/-! SUPPORT. Facts about bits and bytes: the little-endian assembly, one-bit tests and updates, fields. -/

namespace Sys2Proof.Machine

theorem le32inv_extract (w : Word) :
    le32inv (w.extractLsb' 0 8) (w.extractLsb' 8 8) (w.extractLsb' 16 8) (w.extractLsb' 24 8) = w := by
  ext i hi
  simp only [le32inv, BitVec.getElem_or, BitVec.getElem_shiftLeft, BitVec.getElem_setWidth, BitVec.getLsbD_extractLsb']
  interval_cases i <;> simp

theorem le32_le32inv (b0 b1 b2 b3 : Byte) : le32 (le32inv b0 b1 b2 b3) = [b0, b1, b2, b3] := by
  simp only [le32, le32inv, List.cons.injEq, and_true]
  refine ⟨?_, ?_, ?_, ?_⟩ <;> (ext i hi; simp; interval_cases i <;> simp)

@[simp] theorem le32_length (w : Word) : (le32 w).length = 4 := rfl

@[simp] theorem traceRecord_length (pc op : Word) : (traceRecord pc op).length = 8 := rfl

theorem word_and_twoPow_ne_zero (w : Word) {k : Nat} (hk : k < 32) :
    decide (w &&& BitVec.twoPow 32 k ≠ 0) = w.getLsbD k := by
  cases h : w.getLsbD k <;> simp [BitVec.and_twoPow, h]
  intro hz
  have := congrArg (fun x => x.getLsbD k) hz
  simp [hk] at this

theorem maskActive_eq : maskActive = BitVec.twoPow 32 0 := by decide
theorem maskEnable_eq : maskEnable = BitVec.twoPow 32 1 := by decide
theorem maskInstTracing_eq : maskInstTracing = BitVec.twoPow 32 2 := by decide
theorem maskEmpty_eq : maskEmpty = BitVec.twoPow 32 3 := by decide
theorem maskInstStallOrOverflow_eq : maskInstStallOrOverflow = BitVec.twoPow 32 12 := by decide

theorem bitOn_active (w : Word) : bitOn w maskActive = w.getLsbD 0 := by
  rw [maskActive_eq]; exact word_and_twoPow_ne_zero w (by decide)

theorem bitOn_enable (w : Word) : bitOn w maskEnable = w.getLsbD 1 := by
  rw [maskEnable_eq]; exact word_and_twoPow_ne_zero w (by decide)

theorem bitOn_instTracing (w : Word) : bitOn w maskInstTracing = w.getLsbD 2 := by
  rw [maskInstTracing_eq]; exact word_and_twoPow_ne_zero w (by decide)

theorem bitOn_empty (w : Word) : bitOn w maskEmpty = w.getLsbD 3 := by
  rw [maskEmpty_eq]; exact word_and_twoPow_ne_zero w (by decide)

theorem bitOn_instStallOrOverflow (w : Word) : bitOn w maskInstStallOrOverflow = w.getLsbD 12 := by
  rw [maskInstStallOrOverflow_eq]; exact word_and_twoPow_ne_zero w (by decide)

theorem setBit_empty_getLsbD (w : Word) (b : Bool) (i : Nat) :
    (setBit w maskEmpty b).getLsbD i = if i = 3 then b else w.getLsbD i := by
  rw [maskEmpty_eq]
  cases b <;> by_cases hi : i = 3 <;> simp [setBit, hi, BitVec.getLsbD_twoPow] <;> grind

theorem word_ext {v w : Word} (h : ∀ i, i < 32 → v.getLsbD i = w.getLsbD i) : v = w :=
  BitVec.eq_of_getLsbD_eq h

/-- Setting Empty changes no other bit. -/
theorem setBit_empty_ne {i : Nat} (h : i ≠ 3) (w : Word) (b : Bool) : (setBit w maskEmpty b).getLsbD i = w.getLsbD i := by
  rw [setBit_empty_getLsbD, if_neg h]

/-- Setting Empty to the value it has changes nothing. -/
theorem setBit_empty_same {w : Word} {b : Bool} (h : w.getLsbD 3 = b) : setBit w maskEmpty b = w := by
  refine word_ext fun i _ => ?_
  rw [setBit_empty_getLsbD]
  split
  · simp_all
  · rfl

/-- Empty set from a decision, as the statements write it. -/
theorem setBit_empty_decide (w : Word) (p : Prop) [Decidable p] :
    setBit w maskEmpty (decide p) = (w &&& ~~~0x00000008) ||| (if p then 0x00000008 else 0x00000000) := by
  refine word_ext fun i hi => ?_
  rw [setBit_empty_getLsbD]
  by_cases h : p <;> simp only [h, decide_true, decide_false, if_true, if_false] <;> interval_cases i <;> simp

/-- Two words have no bit in common exactly when every bit of the second is clear in the first. -/
theorem word_and_eq_zero_iff (w m : Word) :
    w &&& m = 0 ↔ ∀ i, i < 32 → m.getLsbD i = true → w.getLsbD i = false := by
  constructor
  · intro h i hi hm
    have := congrArg (fun x => x.getLsbD i) h
    simpa [hm] using this
  · intro h
    refine word_ext fun i hi => ?_
    have := h i hi
    cases hm : m.getLsbD i <;> simp_all

theorem setBit_setBit_empty (w : Word) (a b : Bool) : setBit (setBit w maskEmpty a) maskEmpty b = setBit w maskEmpty b :=
  word_ext fun i _ => by simp only [setBit_empty_getLsbD]; split <;> rfl

theorem and_active_eq_zero (v : Word) : v &&& maskActive = 0 ↔ v.getLsbD 0 = false := by
  rw [← bitOn_active]; simp [bitOn]

theorem Field.ones_getLsbD (f : Field) (hw : f.width ≤ 32) (i : Nat) :
    f.ones.getLsbD i = decide (i < f.width) := by
  simp only [Field.ones, BitVec.getLsbD_ofNat, Nat.testBit_two_pow_sub_one]
  by_cases h : i < f.width <;> simp [h]; omega

theorem Field.get_testBit (f : Field) (hw : f.width ≤ 32) (v : Word) (j : Nat) :
    (f.get v).testBit j = (decide (j < f.width) && v.getLsbD (f.lo + j)) := by
  rw [Field.get, BitVec.testBit_toNat]
  simp [Field.ones_getLsbD f hw, Bool.and_comm]

theorem Field.get_lt (f : Field) (hw : f.width ≤ 32) (v : Word) : f.get v < 2 ^ f.width := by
  refine Nat.lt_pow_two_of_testBit _ fun j hj => ?_
  simp [Field.get_testBit f hw, hj]

/-- A field that lies inside the word. -/
def FieldInWord (f : Field) : Prop := f.lo ≤ f.hi ∧ f.hi < 32

theorem FieldInWord.width_le {f : Field} (h : FieldInWord f) : f.width ≤ 32 := by
  have := h.1; have := h.2; simp only [Field.width]; omega

theorem Field.mask_getLsbD {f : Field} (h : FieldInWord f) (i : Nat) :
    f.mask.getLsbD i = decide (f.lo ≤ i ∧ i ≤ f.hi) := by
  have := h.1; have := h.2
  simp only [Field.mask, BitVec.getLsbD_shiftLeft, Field.ones_getLsbD f h.width_le, Field.width]
  rw [Bool.eq_iff_iff]
  simp
  omega

theorem Field.put_getLsbD {f : Field} (h : FieldInWord f) (n i : Nat) :
    (f.put n).getLsbD i = (decide (f.lo ≤ i ∧ i ≤ f.hi) && n.testBit (i - f.lo)) := by
  have := h.1; have := h.2
  simp only [Field.put, BitVec.getLsbD_shiftLeft, BitVec.getLsbD_and, Field.ones_getLsbD f h.width_le, Field.width,
    BitVec.getLsbD_ofNat]
  by_cases h1 : i < f.lo <;> by_cases h2 : i ≤ f.hi <;> by_cases h3 : i < 32 <;> simp [h1, h2, h3] <;> grind

/-- What one turn of the clamp loop does to each bit. -/
theorem clampField_getLsbD {f : Field} (h : FieldInWord f) (v acc : Word) (i : Nat) :
    (clampField v acc f).getLsbD i =
      if f.lo ≤ i ∧ i ≤ f.hi then (min (f.get v) f.fmax).testBit (i - f.lo) else acc.getLsbD i := by
  have hmin : (if f.get v > f.fmax then f.fmax else f.get v) = min (f.get v) f.fmax := by
    split <;> omega
  rw [clampField, hmin, BitVec.getLsbD_or, BitVec.getLsbD_and, BitVec.getLsbD_not, Field.mask_getLsbD h, Field.put_getLsbD h]
  have := h.2
  by_cases hi : f.lo ≤ i ∧ i ≤ f.hi
  · simp [hi]
  · by_cases h3 : i < 32 <;> simp [hi, h3]
    have : acc.getLsbD i = false := BitVec.getLsbD_of_ge _ _ (by omega)
    simp [this]

theorem Field.get_clampField {f : Field} (h : FieldInWord f) (hm : f.fmax < 2 ^ f.width) (v acc : Word) :
    f.get (clampField v acc f) = min (f.get v) f.fmax := by
  refine Nat.eq_of_testBit_eq fun j => ?_
  rw [Field.get_testBit f h.width_le, clampField_getLsbD h]
  have := h.1
  by_cases hj : j < f.width
  · have : f.lo + j ≤ f.hi := by simp only [Field.width] at hj; omega
    simp [hj, this]
  · have : min (f.get v) f.fmax < 2 ^ j :=
      lt_of_lt_of_le (lt_of_le_of_lt (min_le_right _ _) hm) (Nat.pow_le_pow_right (by omega) (by omega))
    simp [hj, Nat.testBit_lt_two_pow this]

end Sys2Proof.Machine
end

