-- ==== Sys2Proof/Laws/Control.lean ====
section
/-! SUPPORT. What `CtrlWrite` does, bit by bit, for each of the three descriptors: the one place where it is unfolded. -/

namespace Sys2Proof.Machine

theorem maskActive_getLsbD_zero (v : Word) : v &&& maskActive = 0 ↔ v.getLsbD 0 = false := and_active_eq_zero v

theorem teFields_inWord {m : FieldMax} {f : Field} (hf : f ∈ (teDesc m).fields) : FieldInWord f := by
  simp only [teDesc, List.mem_cons, List.not_mem_nil, or_false] at hf
  rcases hf with rfl | rfl | rfl | rfl <;>
    simp [FieldInWord, fieldInstMode, fieldInstSyncMode, fieldInstSyncMax, fieldFormat]

theorem tsFields_inWord {m : FieldMax} {f : Field} (hf : f ∈ (tsDesc m).fields) : FieldInWord f := by
  simp only [tsDesc, List.mem_cons, List.not_mem_nil, or_false] at hf
  rcases hf with rfl | rfl <;> simp [FieldInWord, fieldMemFormat, fieldAsyncFreq]

/-- A write with Active = 0 gives the value after a master reset (R76). -/
theorem ctrlWrite_inactive {d : Desc} (hd : d.active = maskActive) {v : Word} (h : v.getLsbD 0 = false) (old : Word) :
    ctrlWrite d old v = d.deact := by
  rw [ctrlWrite, hd, if_pos ((and_active_eq_zero v).2 h)]

theorem ctrlWrite_active {d : Desc} (hd : d.active = maskActive) {v : Word} (h : v.getLsbD 0 = true) (old : Word) :
    ctrlWrite d old v =
      d.fields.foldl (clampField v) ((old &&& (d.roMask ||| d.w1cMask)) ||| (v &&& d.rwMask)) &&& ~~~(v &&& d.w1cMask) := by
  rw [ctrlWrite, hd, if_neg]
  rw [and_active_eq_zero]; simp [h]

/-- The single-bit RW bits of the Encoder's CONTROL (R53). -/
def teBitRw (i : Nat) : Bool := [0, 1, 2, 9, 11, 13, 15].contains i

/-- The Encoder's CONTROL after a write with Active = 1, bit by bit (R77 to R79). -/
theorem ctrlWrite_te_getLsbD (m : FieldMax) (old : Word) {v : Word} (h : v.getLsbD 0 = true) {i : Nat} (hi : i < 32) :
    (ctrlWrite (teDesc m) old v).getLsbD i =
      if 4 ≤ i ∧ i ≤ 6 then (min ((fieldInstMode m).get v) m.instMode).testBit (i - 4)
      else if 16 ≤ i ∧ i ≤ 17 then (min ((fieldInstSyncMode m).get v) m.instSyncMode).testBit (i - 16)
      else if 20 ≤ i ∧ i ≤ 23 then (min ((fieldInstSyncMax m).get v) m.instSyncMax).testBit (i - 20)
      else if 24 ≤ i ∧ i ≤ 26 then (min ((fieldFormat m).get v) m.format).testBit (i - 24)
      else if i = 3 then old.getLsbD 3
      else if i = 12 then old.getLsbD 12 && !v.getLsbD 12
      else teBitRw i && v.getLsbD i := by
  rw [ctrlWrite_active rfl h]
  have h1 := teFields_inWord (m := m) (f := fieldInstMode m) (by simp [teDesc])
  have h2 := teFields_inWord (m := m) (f := fieldInstSyncMode m) (by simp [teDesc])
  have h3 := teFields_inWord (m := m) (f := fieldInstSyncMax m) (by simp [teDesc])
  have h4 := teFields_inWord (m := m) (f := fieldFormat m) (by simp [teDesc])
  simp only [teDesc, List.foldl_cons, List.foldl_nil, BitVec.getLsbD_and, BitVec.getLsbD_not,
    clampField_getLsbD h1, clampField_getLsbD h2, clampField_getLsbD h3, clampField_getLsbD h4, BitVec.getLsbD_or]
  generalize (fieldInstMode m).get v = n1
  generalize (fieldInstSyncMode m).get v = n2
  generalize (fieldInstSyncMax m).get v = n3
  generalize (fieldFormat m).get v = n4
  interval_cases i <;>
    simp [fieldInstMode, fieldInstSyncMode, fieldInstSyncMax, fieldFormat, maskEmpty, maskInstStallOrOverflow, teBitRw]

/-- The Funnel's CONTROL after a write with Active = 1, bit by bit. -/
theorem ctrlWrite_tf_getLsbD (old : Word) {v : Word} (h : v.getLsbD 0 = true) {i : Nat} (hi : i < 32) :
    (ctrlWrite tfDesc old v).getLsbD i =
      if i = 3 then old.getLsbD 3 else decide (i ≤ 1) && v.getLsbD i := by
  rw [ctrlWrite_active rfl h]
  simp only [tfDesc, List.foldl_nil, BitVec.getLsbD_and, BitVec.getLsbD_not, BitVec.getLsbD_or]
  interval_cases i <;> simp [maskEmpty]

/-- The single-bit RW bits of the Sink's CONTROL (R56). -/
def tsBitRw (i : Nat) : Bool := [0, 1, 4, 8].contains i

/-- The Sink's CONTROL after `CtrlWrite` with Active = 1, bit by bit. -/
theorem ctrlWrite_ts_getLsbD (m : FieldMax) (old : Word) {v : Word} (h : v.getLsbD 0 = true) {i : Nat} (hi : i < 32) :
    (ctrlWrite (tsDesc m) old v).getLsbD i =
      if 9 ≤ i ∧ i ≤ 10 then (min ((fieldMemFormat m).get v) m.memFormat).testBit (i - 9)
      else if 12 ≤ i ∧ i ≤ 14 then (min ((fieldAsyncFreq m).get v) m.asyncFreq).testBit (i - 12)
      else if i = 3 then old.getLsbD 3
      else tsBitRw i && v.getLsbD i := by
  rw [ctrlWrite_active rfl h]
  have h1 := tsFields_inWord (m := m) (f := fieldMemFormat m) (by simp [tsDesc])
  have h2 := tsFields_inWord (m := m) (f := fieldAsyncFreq m) (by simp [tsDesc])
  simp only [tsDesc, List.foldl_cons, List.foldl_nil, BitVec.getLsbD_and, BitVec.getLsbD_not,
    clampField_getLsbD h1, clampField_getLsbD h2, BitVec.getLsbD_or]
  generalize (fieldMemFormat m).get v = n1
  generalize (fieldAsyncFreq m).get v = n2
  interval_cases i <;> simp [fieldMemFormat, fieldAsyncFreq, maskEmpty, tsBitRw]

/-- The reserved bits of the three registers (R53, R54, R56). -/
theorem reservedMask_te (m : FieldMax) : reservedMask (teDesc m) = 0xF80C4580 := by
  show ~~~(0x07F3AA77#32 ||| 0x8#32 ||| 0x1000#32) = 0xF80C4580#32; decide

theorem reservedMask_tf : reservedMask tfDesc = 0xFFFFFFF4 := by decide

theorem reservedMask_ts (m : FieldMax) : reservedMask (tsDesc m) = 0xFFFF88E4 := by
  show ~~~(0x00007713#32 ||| 0x8#32 ||| 0x0#32) = 0xFFFF88E4#32; decide

theorem FieldMax.wf_iff (m : FieldMax) : m.wf = true ↔
    m.instMode ≤ 7 ∧ m.instSyncMode ≤ 3 ∧ m.instSyncMax ≤ 15 ∧ m.format ≤ 7 ∧ m.memFormat ≤ 3 ∧ m.asyncFreq ≤ 7 := by
  simp only [FieldMax.wf, Bool.and_eq_true, decide_eq_true_eq]; omega

end Sys2Proof.Machine
end

