-- ==== Sys2Proof/Laws/Decode.lean ====
section
/-! SUPPORT. The frame: a frame built from its parts is decoded from the same parts, because the little-endian operands come
back whole. -/

namespace Sys2Proof

/-- Decoding a frame built from parts. -/
theorem decode_frameOf (code : Byte) (a b : Word) (p : List Byte) :
    decode (frameOf code a b p) = decodeOperands code.toNat a b p := by
  simp only [frameOf, Machine.le32, List.cons_append, List.nil_append, decode, Machine.le32inv_extract]

/-- A frame built from parts is nine bytes and its payload. -/
theorem length_frameOf (code : Byte) (a b : Word) (p : List Byte) : (frameOf code a b p).length = 9 + p.length := by
  simp only [frameOf, Machine.le32, List.length_append, List.length_cons, List.length_nil]; omega

end Sys2Proof
end

