-- ==== Sys2Proof/Laws/Memory.lean ====
section
/-! SUPPORT. The ring buffer's store: a read after a write, and the canonical form that every operation keeps. -/

namespace Sys2Proof.Machine

@[simp] theorem Memory.read_nil (a : Nat) : Memory.read [] a = 0 := rfl

/-- Below the lower bound of a canonical buffer nothing is listed. -/
theorem Memory.read_of_lt {m : Memory} : ∀ {lo a : Nat}, Memory.wfFrom m lo = true → a < lo → m.read a = unlistedByte := by
  induction m with
  | nil => intros; rfl
  | cons c m ih =>
    intro lo a h ha
    simp only [Memory.wfFrom, Bool.and_eq_true, decide_eq_true_eq] at h
    rw [Memory.read, if_neg (by omega)]
    exact ih h.2 (by omega)

theorem Memory.wfFrom_mono {m : Memory} {lo lo' : Nat} (h : Memory.wfFrom m lo = true) (hl : lo' ≤ lo) :
    Memory.wfFrom m lo' = true := by
  cases m with
  | nil => rfl
  | cons c m => simp only [Memory.wfFrom, Bool.and_eq_true, decide_eq_true_eq] at h ⊢; exact ⟨⟨by omega, h.1.2⟩, h.2⟩

/-- A read after a write: the byte written at its index, what stood there everywhere else. -/
theorem Memory.read_write {m : Memory} : ∀ {lo : Nat}, Memory.wfFrom m lo = true → ∀ (a b : Nat) (v : Byte),
    (m.write a v).read b = if b = a then v else m.read b := by
  induction m with
  | nil =>
    intro lo _ a b v
    simp only [Memory.write]
    split_ifs <;> grind [Memory.read]
  | cons c m ih =>
    intro lo h a b v
    obtain ⟨k, w⟩ := c
    simp only [Memory.wfFrom, Bool.and_eq_true, decide_eq_true_eq] at h
    have hlow : ∀ x, x ≤ k → Memory.read m x = unlistedByte := fun x hx => Memory.read_of_lt h.2 (by omega)
    have := ih h.2 a b v
    simp only [Memory.write]
    split_ifs <;> grind [Memory.read]

theorem Memory.write_wfFrom {m : Memory} : ∀ {lo : Nat}, Memory.wfFrom m lo = true → ∀ {a : Nat} (v : Byte), lo ≤ a →
    Memory.wfFrom (m.write a v) lo = true := by
  induction m with
  | nil =>
    intro lo _ a v ha
    by_cases hv : v = unlistedByte <;> simp [Memory.write, Memory.wfFrom, hv, ha]
  | cons c m ih =>
    intro lo h a v ha
    obtain ⟨k, w⟩ := c
    simp only [Memory.wfFrom, Bool.and_eq_true, decide_eq_true_eq] at h
    simp only [Memory.write]
    by_cases h1 : a < k
    · by_cases hv : v = unlistedByte
      · simp [h1, hv, Memory.wfFrom, h.1.1, h.1.2, h.2]
      · simp [h1, hv, Memory.wfFrom, ha, h.1.2, h.2]
    · by_cases h2 : a = k
      · subst h2
        by_cases hv : v = unlistedByte
        · simp [hv]; exact Memory.wfFrom_mono h.2 (by omega)
        · simp [hv, Memory.wfFrom, ha, h.2]
      · simp only [h1, h2, if_false, Memory.wfFrom, Bool.and_eq_true, decide_eq_true_eq]
        exact ⟨h.1, ih h.2 v (by omega)⟩

/-- Every write keeps the canonical form. -/
theorem Memory.write_wf {m : Memory} (h : m.wf = true) (a : Nat) (v : Byte) : (m.write a v).wf = true :=
  Memory.write_wfFrom h v (Nat.zero_le a)

@[simp] theorem Memory.nil_wf : Memory.wf [] = true := rfl

@[simp] theorem Memory.nil_within (cap : Nat) : Memory.within [] cap = true := rfl

/-- Every write inside the buffer keeps it inside. -/
theorem Memory.write_within {m : Memory} {cap : Nat} (h : m.within cap = true) {a : Nat} (ha : a < cap) (v : Byte) :
    (m.write a v).within cap = true := by
  induction m with
  | nil => by_cases hv : v = unlistedByte <;> simp [Memory.write, Memory.within, hv, ha]
  | cons c m ih =>
    obtain ⟨k, w⟩ := c
    simp only [Memory.within, List.all_cons, Bool.and_eq_true, decide_eq_true_eq] at h ih ⊢
    simp only [Memory.write]
    split
    · split <;> simp [h.1, h.2, ha]
    · split
      · split <;> simp [h.2, ha]
      · simp only [List.all_cons, Bool.and_eq_true, decide_eq_true_eq]
        exact ⟨h.1, ih h.2⟩

end Sys2Proof.Machine
end

