-- ==== Sys2Proof/Laws/Sink.lean ====
section
/-! SUPPORT. The ring buffer: what a stored byte, a push and a pop do, to each field and to the live bytes. -/

namespace Sys2Proof.Machine

/-- Two indices less than CAP apart are different. -/
theorem ringIndex_ne {cap r i j : Nat} (hij : i < j) (hd : j - i < cap) : (r + i) % cap ≠ (r + j) % cap := by
  intro h
  have h1 : (r + j) ≡ (r + i) [MOD cap] := h.symm
  have h2 := (Nat.modEq_iff_dvd' (show r + i ≤ r + j by omega)).1 h1.symm
  have h3 := Nat.le_of_dvd (by omega) h2
  omega

theorem ringIndex_succ (cap w j : Nat) : ((w + 1) % cap + j) % cap = (w + (j + 1)) % cap := by
  rw [Nat.mod_add_mod]; congr 1; omega

theorem Sink.live_length (cap : Nat) (ts : Sink) : (ts.live cap).length = ts.count := by
  simp [Sink.live]

theorem Sink.live_getElem (cap : Nat) (ts : Sink) {i : Nat} (h : i < (ts.live cap).length) :
    (ts.live cap)[i] = ts.buf.read ((ts.rp + i) % cap) := by
  simp [Sink.live]

/-- The cursors and the buffer of a Sink that a push or a pop keeps in order (R26, R27). -/
structure Ring (cap : Nat) (ts : Sink) : Prop where
  bufWf : ts.buf.wf = true
  wpLt : ts.wp < cap
  countLe : ts.count ≤ cap
  cursors : (ts.rp + ts.count) % cap = ts.wp

theorem Sink.Inv.ring {c : Config} {ts : Sink} (h : Sink.Inv c ts) : Ring c.cap ts :=
  ⟨h.bufWf, h.wpLt, h.countLe, h.cursors⟩

theorem Ring.store {cap : Nat} {ts : Sink} (h : Ring cap ts) (hc : ts.count ≠ cap) (b : Byte) :
    Ring cap (ts.store cap b) := by
  have := h.wpLt
  have := h.countLe
  refine ⟨?_, ?_, ?_, ?_⟩
  · simpa using Memory.write_wf h.bufWf ts.wp b
  · simpa using Nat.mod_lt _ (by omega)
  · simp; omega
  · simp only [Sink.store_rp, Sink.store_count, Sink.store_wp, ← h.cursors]
    rw [Nat.mod_add_mod, Nat.add_assoc]

/-- A stored byte is appended to the live bytes. -/
theorem Sink.live_store {cap : Nat} {ts : Sink} (h : Ring cap ts) (hc : ts.count ≠ cap) (b : Byte) :
    (ts.store cap b).live cap = ts.live cap ++ [b] := by
  have hle := h.countLe
  simp only [Sink.live, Sink.store_count, Sink.store_rp, Sink.store_buf, List.range_succ, List.map_append, List.map_cons,
    List.map_nil]
  congr 1
  · refine List.map_congr_left fun i hi => ?_
    rw [List.mem_range] at hi
    rw [Memory.read_write h.bufWf, if_neg]
    rw [← h.cursors]
    exact ringIndex_ne hi (by omega)
  · rw [Memory.read_write h.bufWf, if_pos h.cursors]

theorem Ring.storeAll {cap : Nat} (data : List Byte) : ∀ {ts : Sink}, Ring cap ts → Ring cap (ts.storeAll cap data) := by
  induction data with
  | nil => intro ts h; exact h
  | cons b bs ih =>
    intro ts h
    simp only [Sink.storeAll]
    split
    · exact ⟨h.bufWf, h.wpLt, h.countLe, h.cursors⟩
    · exact ih (h.store ‹_› b)

/-- The live bytes after a push: the accepted prefix is appended (R104, R113). -/
theorem Sink.live_storeAll {cap : Nat} (data : List Byte) : ∀ {ts : Sink}, Ring cap ts →
    (ts.storeAll cap data).live cap = ts.live cap ++ data.take (cap - ts.count) := by
  induction data with
  | nil => intro ts _; simp [Sink.storeAll]
  | cons b bs ih =>
    intro ts h
    have := h.countLe
    simp only [Sink.storeAll]
    split
    · rename_i hf
      simp [hf, Sink.live]
    · rename_i hf
      rw [ih (h.store hf b), Sink.live_store h hf, Sink.store_count]
      rw [show cap - ts.count = (cap - (ts.count + 1)) + 1 by omega, List.take_succ_cons]
      simp

/-- What the byte loop does to the cursors, the counters and the register (R104, net effect). -/
theorem Sink.storeAll_fields {cap : Nat} (data : List Byte) : ∀ {ts : Sink}, ts.wp < cap → ts.count ≤ cap →
    (ts.storeAll cap data).count = ts.count + min data.length (cap - ts.count) ∧
    (ts.storeAll cap data).wp = (ts.wp + min data.length (cap - ts.count)) % cap ∧
    (ts.storeAll cap data).rp = ts.rp ∧
    (ts.storeAll cap data).dropped = ts.dropped + (data.length - min data.length (cap - ts.count)) ∧
    (ts.storeAll cap data).ctrl =
      if 1 ≤ min data.length (cap - ts.count) then setBit ts.ctrl maskEmpty false else ts.ctrl := by
  induction data with
  | nil => intro ts hw _; simp [Sink.storeAll, Nat.mod_eq_of_lt hw]
  | cons b bs ih =>
    intro ts hw hc
    simp only [Sink.storeAll]
    split
    · rename_i hf
      simp [hf, Nat.mod_eq_of_lt hw]
    · rename_i hf
      obtain ⟨h1, h2, h3, h4, h5⟩ := ih (ts := ts.store cap b) (Nat.mod_lt _ (by omega)) (by simp; omega)
      have hk : min (b :: bs).length (cap - ts.count) = min bs.length (cap - (ts.count + 1)) + 1 := by
        simp only [List.length_cons]; omega
      simp only [Sink.store_count, Sink.store_wp, Sink.store_rp, Sink.store_dropped, Sink.store_ctrl] at h1 h2 h3 h4 h5
      refine ⟨by rw [h1, hk]; omega, ?_, h3, by rw [h4, hk]; simp, ?_⟩
      · rw [h2, hk, ringIndex_succ]
      · rw [h5, hk, if_pos (by omega : 1 ≤ _ + 1), setBit_setBit_empty]
        exact ite_self _

/-- What the byte loop does to each byte of the buffer: the accepted prefix from `wp` on, every other byte as before. -/
theorem Sink.storeAll_read {cap : Nat} (data : List Byte) : ∀ {ts : Sink}, ts.buf.wf = true → ts.wp < cap → ts.count ≤ cap →
    (∀ j (hj : j < data.length), j < cap - ts.count →
      (ts.storeAll cap data).buf.read ((ts.wp + j) % cap) = data[j]) ∧
    (∀ a, (∀ j, j < min data.length (cap - ts.count) → a ≠ (ts.wp + j) % cap) →
      (ts.storeAll cap data).buf.read a = ts.buf.read a) := by
  induction data with
  | nil => intro ts _ _ _; simp [Sink.storeAll]
  | cons b bs ih =>
    intro ts hb hw hc
    simp only [Sink.storeAll]
    split
    · rename_i hf
      exact ⟨fun j _ hj => by omega, fun a _ => rfl⟩
    · rename_i hf
      obtain ⟨h1, h2⟩ := ih (ts := ts.store cap b) (by simpa using Memory.write_wf hb ts.wp b)
        (Nat.mod_lt _ (by omega)) (by simp; omega)
      simp only [Sink.store_count, Sink.store_wp, Sink.store_buf, ringIndex_succ] at h1 h2
      refine ⟨fun j hj hk => ?_, fun a ha => ?_⟩
      · cases j with
        | zero =>
          rw [Nat.add_zero, Nat.mod_eq_of_lt hw, h2]
          · rw [Memory.read_write hb, if_pos rfl]; rfl
          · intro j hj' he
            have := ringIndex_ne (r := ts.wp) (i := 0) (j := j + 1) (cap := cap) (by omega) (by omega)
            rw [Nat.add_zero, Nat.mod_eq_of_lt hw] at this
            exact this he
        | succ j => exact h1 j (by simpa using hj) (by omega)
      · rw [h2 a, Memory.read_write hb, if_neg]
        · have := ha 0 (by simp only [List.length_cons]; omega)
          rwa [Nat.add_zero, Nat.mod_eq_of_lt hw] at this
        · intro j hj
          exact ha (j + 1) (by simp only [List.length_cons]; omega)

theorem Sink.storeAll_within {cap : Nat} (data : List Byte) : ∀ {ts : Sink}, ts.buf.within cap = true → ts.wp < cap →
    (ts.storeAll cap data).buf.within cap = true := by
  induction data with
  | nil => intro ts h _; exact h
  | cons b bs ih =>
    intro ts h hw
    simp only [Sink.storeAll]
    split
    · exact h
    · exact ih (by simpa using Memory.write_within h hw b) (Nat.mod_lt _ (by omega))

/-- The word a pop returns, as bytes, is the first four live bytes (R39, R109). -/
theorem Sink.le32_frontWord {cap : Nat} {ts : Sink} (hr : ts.rp < cap) (hc : 4 ≤ ts.count) :
    le32 (ts.frontWord cap) = (ts.live cap).take 4 := by
  rw [Sink.frontWord, le32_le32inv]
  refine List.ext_getElem (by simp [Sink.live_length]; omega) fun i h1 h2 => ?_
  rw [List.getElem_take, Sink.live_getElem]
  simp only [List.length_cons, List.length_nil] at h1
  interval_cases i <;> simp [Nat.mod_eq_of_lt hr]

/-- A pop takes the first four live bytes away (R109). -/
theorem Sink.live_pop {cap : Nat} {ts : Sink} : (ts.pop cap).live cap = (ts.live cap).drop 4 := by
  refine List.ext_getElem (by simp [Sink.live_length]) fun i h1 h2 => ?_
  rw [List.getElem_drop, Sink.live_getElem, Sink.live_getElem]
  simp only [Sink.pop_buf, Sink.pop_rp, Nat.mod_add_mod]
  congr 2; omega

end Sys2Proof.Machine
end

