-- ==== Sys2Proof/Laws/Ops.lean ====
section
/-! SUPPORT. For each shared operation, once, everything it can do: the cases of the pushes, the reads and the writes, and
what they leave unchanged; and where the driver's addresses resolve. -/

namespace Sys2Proof.Machine

/-- The cases of TS.PUSH. -/
theorem sinkPush_cases (data : List Byte) (s : State) :
    (tsGate s.ts = true ∧ sinkPush data s = { s with ts := s.ts.storeAll s.cfg.cap data }) ∨
    (tsGate s.ts = false ∧ sinkPush data s = s.logged .sinkGated) := by
  unfold sinkPush
  cases tsGate s.ts <;> simp

/-- The cases of TF.PUSH. -/
theorem funnelPush_cases (data : List Byte) (s : State) :
    (tfGate s.tf = true ∧ s.tf.dis = 0 ∧ funnelPush data s = sinkPush data s) ∨
    (tfGate s.tf = true ∧ s.tf.dis ≠ 0 ∧ funnelPush data s = s.logged .funnelInputDisabled) ∨
    (tfGate s.tf = false ∧ funnelPush data s = s.logged .funnelGated) := by
  unfold funnelPush
  split_ifs with hg hd
  · exact .inl ⟨hg, hd, rfl⟩
  · exact .inr (.inl ⟨hg, hd, rfl⟩)
  · exact .inr (.inr ⟨by simpa using hg, rfl⟩)

/-- The cases of EMIT. -/
theorem encoderEmit_cases (pc op : Word) (s : State) :
    (teGate s.te = true ∧
      encoderEmit pc op s = funnelPush (traceRecord pc op) { s with te := s.te.setEmpty false }) ∨
    (teGate s.te = false ∧ encoderEmit pc op s = s) := by
  unfold encoderEmit
  cases teGate s.te <;> simp

/-- What a push into the Sink leaves unchanged. -/
theorem sinkPush_frame (data : List Byte) (s : State) :
    (sinkPush data s).cfg = s.cfg ∧ (sinkPush data s).te = s.te ∧ (sinkPush data s).tf = s.tf ∧
    (sinkPush data s).pending = s.pending ∧ (sinkPush data s).running = s.running := by
  rcases sinkPush_cases data s with ⟨_, h⟩ | ⟨_, h⟩ <;> rw [h] <;> simp

/-- What a push into the Funnel leaves unchanged. -/
theorem funnelPush_frame (data : List Byte) (s : State) :
    (funnelPush data s).cfg = s.cfg ∧ (funnelPush data s).te = s.te ∧ (funnelPush data s).tf = s.tf ∧
    (funnelPush data s).pending = s.pending ∧ (funnelPush data s).running = s.running := by
  rcases funnelPush_cases data s with ⟨_, _, h⟩ | ⟨_, _, h⟩ | ⟨_, h⟩ <;> rw [h]
  · exact sinkPush_frame data s
  · simp
  · simp

/-- What a push into the Funnel can do to the Sink: nothing, or what a push into the Sink does. -/
theorem funnelPush_ts (data : List Byte) (s : State) :
    (funnelPush data s).ts = s.ts ∨ (funnelPush data s).ts = (sinkPush data s).ts := by
  rcases funnelPush_cases data s with ⟨_, _, h⟩ | ⟨_, _, h⟩ | ⟨_, h⟩ <;> rw [h] <;> simp

/-- The cases of TS.DATA.RD. -/
theorem tsDataRead_cases (s : State) :
    (s.ts.count < 4 ∧ tsDataRead s = (0, s.logged .shortRead)) ∨
    (4 ≤ s.ts.count ∧ tsDataRead s = (s.ts.frontWord s.cfg.cap, { s with ts := s.ts.pop s.cfg.cap })) := by
  unfold tsDataRead
  by_cases h : s.ts.count < 4
  · exact .inl ⟨h, by simp [h]⟩
  · exact .inr ⟨by omega, by simp [h]⟩

/-- The cases of TS.CONTROL.WR. -/
theorem tsControlWrite_cases (v : Word) (s : State) :
    (v.getLsbD 0 = false ∧ tsControlWrite v s = { s with ts := Sink.cleared s.ts.dropped }) ∨
    (v.getLsbD 0 = true ∧ tsControlWrite v s =
      { s with ts := { s.ts with
          ctrl := setBit (ctrlWrite (tsDesc s.cfg.fmax) s.ts.ctrl v) maskEmpty (decide (s.ts.count = 0)) } }) := by
  unfold tsControlWrite
  cases h : v.getLsbD 0
  · exact .inl ⟨rfl, if_pos ((and_active_eq_zero v).2 h)⟩
  · refine .inr ⟨rfl, if_neg ?_⟩
    rw [and_active_eq_zero, h]; decide

/-- TF.DIS_INPUT.WR stores the low 16 bits: the clamp never fires (R99). -/
theorem tfDisInputWrite_eq (v : Word) (s : State) :
    tfDisInputWrite v s = { s with tf := { s.tf with dis := v &&& maskDisInput } } := by
  have h : (v &&& maskDisInput).toNat ≤ 0xFFFF := by
    rw [BitVec.toNat_and]; exact Nat.and_le_right
  unfold tfDisInputWrite
  rw [if_neg (by omega)]

/-- What a device read can do: it returns a word, and changes nothing but, for the Sink, its state, and the ghost log. -/
theorem devRead_cases (d : Device) (off : Nat) (s : State) :
    (devRead d off s).2 = s ∨ (∃ e, (devRead d off s).2 = s.logged e) ∨
    (d = .sink ∧ off = offControl ∧ devRead d off s = tsControlRead s) ∨
    (d = .sink ∧ off = offData ∧ devRead d off s = tsDataRead s) := by
  unfold devRead
  cases d
  · dsimp only
    split
    · exact .inl rfl
    · exact .inr (.inl ⟨_, rfl⟩)
  · dsimp only
    split
    · exact .inl rfl
    · split
      · exact .inl rfl
      · exact .inr (.inl ⟨_, rfl⟩)
  · dsimp only
    split
    · exact .inr (.inr (.inl ⟨rfl, ‹_›, rfl⟩))
    · split
      · exact .inl rfl
      · split
        · exact .inl rfl
        · split
          · exact .inr (.inr (.inr ⟨rfl, ‹_›, rfl⟩))
          · exact .inr (.inl ⟨_, rfl⟩)

/-- What a device write can do: one of the four writes of a writable register, nothing, or nothing with a log event. -/
theorem devWrite_cases (d : Device) (off : Nat) (v : Word) (s : State) :
    (d = .encoder ∧ off = offControl ∧ devWrite d off v s = teControlWrite v s) ∨
    (d = .funnel ∧ off = offControl ∧ devWrite d off v s = tfControlWrite v s) ∨
    (d = .funnel ∧ off = offDisInput ∧ devWrite d off v s = tfDisInputWrite v s) ∨
    (d = .sink ∧ off = offControl ∧ devWrite d off v s = tsControlWrite v s) ∨
    (off ≠ offControl ∧ (devWrite d off v s = s ∨ ∃ e, devWrite d off v s = s.logged e)) := by
  unfold devWrite
  cases d
  · dsimp only
    split
    · exact .inl ⟨rfl, ‹_›, rfl⟩
    · exact .inr (.inr (.inr (.inr ⟨‹_›, .inr ⟨_, rfl⟩⟩)))
  · dsimp only
    split
    · exact .inr (.inl ⟨rfl, ‹_›, rfl⟩)
    · split
      · exact .inr (.inr (.inl ⟨rfl, ‹_›, rfl⟩))
      · exact .inr (.inr (.inr (.inr ⟨‹_›, .inr ⟨_, rfl⟩⟩)))
  · dsimp only
    split
    · exact .inr (.inr (.inr (.inl ⟨rfl, ‹_›, rfl⟩)))
    · refine .inr (.inr (.inr (.inr ⟨‹_›, ?_⟩)))
      repeat' split
      all_goals first | exact .inl rfl | exact .inr ⟨_, rfl⟩

/-- What a well-formed configuration says of the map, as numbers (R7, R33). -/
theorem Config.wf_iff (c : Config) : c.wf = true ↔
    (c.teBase + c.teSize ≤ 2 ^ 32 ∧ c.tfBase + c.tfSize ≤ 2 ^ 32 ∧ c.tsBase + c.tsSize ≤ 2 ^ 32) ∧
    (0x004 ≤ c.teSize ∧ 0x00C ≤ c.tfSize ∧ 0x044 ≤ c.tsSize) ∧
    (c.teBase + c.teSize ≤ c.tfBase ∨ c.tfBase + c.tfSize ≤ c.teBase) ∧
    (c.teBase + c.teSize ≤ c.tsBase ∨ c.tsBase + c.tsSize ≤ c.teBase) ∧
    (c.tfBase + c.tfSize ≤ c.tsBase ∨ c.tsBase + c.tsSize ≤ c.tfBase) ∧
    1 ≤ c.cap ∧ c.cap ≤ 2 ^ 32 ∧ c.fmax.wf = true := by
  simp only [Config.wf, Config.mapWf, Mapping.wf, Mapping.disjoint, Bool.and_eq_true, Bool.or_eq_true, decide_eq_true_eq]
  constructor
  · intro h; refine ⟨?_, ?_, ?_, ?_, ?_, ?_, ?_, h.2⟩ <;> omega
  · intro h; refine ⟨⟨⟨⟨⟨⟨⟨⟨?_, ?_⟩, ?_⟩, ?_⟩, ?_⟩, ?_⟩, ?_⟩, ?_⟩, h.2.2.2.2.2.2.2⟩ <;> omega

theorem resolve_eq (c : Config) (a : Word) : resolve c a =
    if c.teBase ≤ a.toNat ∧ a.toNat - c.teBase < c.teSize then some (.encoder, a.toNat - c.teBase)
    else if c.tfBase ≤ a.toNat ∧ a.toNat - c.tfBase < c.tfSize then some (.funnel, a.toNat - c.tfBase)
    else if c.tsBase ≤ a.toNat ∧ a.toNat - c.tsBase < c.tsSize then some (.sink, a.toNat - c.tsBase)
    else none := by
  simp [resolve, Config.table, resolveIn, contains]

theorem resolve_teAddr {c : Config} (h : c.wf = true) {off : Nat} (ho : off < c.teSize) :
    resolve c (teAddr c off) = some (.encoder, off) := by
  rw [Config.wf_iff] at h
  have : (teAddr c off).toNat = c.teBase + off := by
    simp only [teAddr, BitVec.toNat_ofNat]; exact Nat.mod_eq_of_lt (by omega)
  rw [resolve_eq, this, if_pos (by omega), Nat.add_sub_cancel_left]

theorem resolve_tfAddr {c : Config} (h : c.wf = true) {off : Nat} (ho : off < c.tfSize) :
    resolve c (tfAddr c off) = some (.funnel, off) := by
  rw [Config.wf_iff] at h
  have : (tfAddr c off).toNat = c.tfBase + off := by
    simp only [tfAddr, BitVec.toNat_ofNat]; exact Nat.mod_eq_of_lt (by omega)
  rw [resolve_eq, this, if_neg (by omega), if_pos (by omega), Nat.add_sub_cancel_left]

theorem resolve_tsAddr {c : Config} (h : c.wf = true) {off : Nat} (ho : off < c.tsSize) :
    resolve c (tsAddr c off) = some (.sink, off) := by
  rw [Config.wf_iff] at h
  have : (tsAddr c off).toNat = c.tsBase + off := by
    simp only [tsAddr, BitVec.toNat_ofNat]; exact Nat.mod_eq_of_lt (by omega)
  rw [resolve_eq, this, if_neg (by omega), if_neg (by omega), if_pos (by omega), Nat.add_sub_cancel_left]

/-- A load by the driver from a mapped address. -/
theorem busLoad_of_resolve {s : State} {a : Word} {d : Device} {off : Nat} (h : resolve s.cfg a = some (d, off)) :
    busLoad a s = some (devRead d off s) := by
  simp [busLoad, h]

/-- A store by the driver to a mapped address. -/
theorem busStore_of_resolve {s : State} {a v : Word} {d : Device} {off : Nat} (h : resolve s.cfg a = some (d, off)) :
    busStore a v s = some (devWrite d off v s) := by
  simp [busStore, h]

end Sys2Proof.Machine
end

