-- ==== Sys2Proof/Laws/Exec.lean ====
section
/-! SUPPORT. Everything an operation can do to a state, said once: it is a sequence of the few changes of `Move`, which are
indexed by the operation. An invariant of every operation is proved by showing that each of these changes keeps it. -/

namespace Sys2Proof.Machine

/-- The bytes an operation offers to the link. -/
def offeredBytes : Instr → Option (List Byte)
  | .emit pc opcode => some (traceRecord pc opcode)
  | .tfPush data => some data
  | .tsPush data => some data
  | _ => none

/-- One change of the state that the operation `i` can consist of. -/
inductive Move (i : Instr) : State → State → Prop where
  | report (s : State) (r : Response) : Move i s (s.respond r)
  | event (s : State) (e : LogEvent) : Move i s (s.logged e)
  | teEmit (s : State) : offeredBytes i ≠ none → teGate s.te = true → Move i s { s with te := s.te.setEmpty false }
  | teWrite (v : Word) (s : State) : mayWriteControl i = true → Move i s (teControlWrite v s)
  | tfWrite (v : Word) (s : State) : mayWriteControl i = true → Move i s (tfControlWrite v s)
  | tfDis (v : Word) (s : State) : Move i s (tfDisInputWrite v s)
  | tsStore (data : List Byte) (s : State) : offeredBytes i = some data → tsGate s.ts = true →
      Move i s { s with ts := s.ts.storeAll s.cfg.cap data }
  | tsRecompute (s : State) : Move i s { s with ts := s.ts.recomputeEmpty }
  | tsPop (s : State) : 4 ≤ s.ts.count → Move i s { s with ts := s.ts.pop s.cfg.cap }
  | tsWrite (v : Word) (s : State) : mayWriteControl i = true → Move i s (tsControlWrite v s)

/-- A sequence of moves. -/
abbrev Moves (i : Instr) : State → State → Prop := Relation.ReflTransGen (Move i)

variable {i : Instr}

theorem Moves.one {s t : State} (h : Move i s t) : Moves i s t := Relation.ReflTransGen.single h

/-- What every move keeps, every sequence of moves keeps. -/
theorem Moves.keeps {P : State → Prop} (hP : ∀ s t, Move i s t → P s → P t) {s t : State} (h : Moves i s t) (hs : P s) : P t := by
  induction h with
  | refl => exact hs
  | tail _ hm ih => exact hP _ _ hm ih

theorem sinkPush_moves {data : List Byte} (hd : offeredBytes i = some data) (s : State) : Moves i s (sinkPush data s) := by
  rcases sinkPush_cases data s with ⟨hg, h⟩ | ⟨_, h⟩ <;> rw [h]
  · exact .one (.tsStore data s hd hg)
  · exact .one (.event s _)

theorem funnelPush_moves {data : List Byte} (hd : offeredBytes i = some data) (s : State) : Moves i s (funnelPush data s) := by
  rcases funnelPush_cases data s with ⟨_, _, h⟩ | ⟨_, _, h⟩ | ⟨_, h⟩ <;> rw [h]
  · exact sinkPush_moves hd s
  · exact .one (.event s _)
  · exact .one (.event s _)

theorem encoderEmit_moves (pc op : Word) (s : State) : Moves (.emit pc op) s (encoderEmit pc op s) := by
  rcases encoderEmit_cases pc op s with ⟨hg, h⟩ | ⟨_, h⟩ <;> rw [h]
  exact (Moves.one (.teEmit s (by simp [offeredBytes]) hg)).trans (funnelPush_moves rfl _)

theorem tsDataRead_moves (s : State) : Moves i s (tsDataRead s).2 := by
  rcases tsDataRead_cases s with ⟨_, h⟩ | ⟨hc, h⟩ <;> rw [h]
  · exact .one (.event s _)
  · exact .one (.tsPop s hc)

theorem devRead_moves (d : Device) (off : Nat) (s : State) : Moves i s (devRead d off s).2 := by
  rcases devRead_cases d off s with h | ⟨e, h⟩ | ⟨_, _, h⟩ | ⟨_, _, h⟩ <;> rw [h]
  · exact .one (.event s e)
  · exact .one (.tsRecompute s)
  · exact tsDataRead_moves s

theorem devWrite_moves (hi : mayWriteControl i = true) (d : Device) (off : Nat) (v : Word) (s : State) : Moves i s (devWrite d off v s) := by
  rcases devWrite_cases d off v s with ⟨_, _, h⟩ | ⟨_, _, h⟩ | ⟨_, _, h⟩ | ⟨_, _, h⟩ | ⟨_, h | ⟨e, h⟩⟩ <;> rw [h]
  · exact .one (.teWrite v s hi)
  · exact .one (.tfWrite v s hi)
  · exact .one (.tfDis v s)
  · exact .one (.tsWrite v s hi)
  · exact .one (.event s e)

theorem busLoad_moves {a : Word} {s t : State} {w : Word} (h : busLoad a s = some (w, t)) : Moves i s t := by
  unfold busLoad at h
  split at h
  · cases h
  · rename_i d off _
    have := devRead_moves (i := i) d off s
    rw [Option.some.inj h] at this
    exact this

theorem busStore_moves (hi : mayWriteControl i = true) {a v : Word} {s t : State} (h : busStore a v s = some t) : Moves i s t := by
  unfold busStore at h
  split at h
  · cases h
  · cases h; exact devWrite_moves hi _ _ v s

/-- The state in which a driver sequence stands or has ended. -/
def Progress.state : Progress → State
  | .going _ s => s
  | .ended _ s => s

@[simp] theorem Progress.state_going (q : Sequence) (s : State) : (Progress.going q s).state = s := rfl
@[simp] theorem Progress.state_ended (r : Response) (s : State) : (Progress.ended r s).state = s := rfl

/-- Whether a sequence holds a line that writes. -/
def Sequence.writes : Sequence → Bool
  | .lines _ _ _ => true
  | .fetch _ _ _ => false

@[simp] theorem nextLine_state (rest : List Line) (c : Word) (s : State) : (nextLine rest c s).state = s := by
  cases rest <;> rfl

@[simp] theorem fetchFrom_state (n : Nat) (ws : List Word) (s : State) : (fetchFrom n ws s).state = s := by
  cases n <;> rfl

/-- A read of a device register reports nothing by itself. -/
theorem devRead_response (d : Device) (off : Nat) (s : State) : (devRead d off s).2.response = s.response := by
  rcases devRead_cases d off s with h | ⟨e, h⟩ | ⟨_, _, h⟩ | ⟨_, _, h⟩ <;> rw [h]
  · rfl
  · rfl
  · rcases tsDataRead_cases s with ⟨_, h⟩ | ⟨_, h⟩ <;> rw [h] <;> rfl

/-- A write of a device register reports nothing by itself. -/
theorem devWrite_response (d : Device) (off : Nat) (v : Word) (s : State) : (devWrite d off v s).response = s.response := by
  rcases devWrite_cases d off v s with ⟨_, _, h⟩ | ⟨_, _, h⟩ | ⟨_, _, h⟩ | ⟨_, _, h⟩ | ⟨_, h | ⟨e, h⟩⟩ <;> rw [h] <;> try rfl
  unfold tsControlWrite; split <;> rfl

theorem State.respond_undone {s t : State} (r : Response) (h : t.response = s.response) :
    { t.respond r with response := s.response } = t := by rw [← h]; rfl

/-- Everything a line can do: it is one bus operation, whose effect on the state is the line's whole effect. -/
theorem advance_exec (q : Sequence) (s : State) :
    ∃ u, exec (q.operation s.cfg) s = .next u ∧ (q.advance s).state = { u with response := s.response } := by
  have load : ∀ a, ∃ u, exec (.busRead a) s = .next u ∧
      (busLoad a s).elim s Prod.snd = { u with response := s.response } := by
    intro a
    rw [show exec (.busRead a) s = execBusRead a s from rfl]
    unfold execBusRead busLoad
    cases resolve s.cfg a with
    | none => exact ⟨_, rfl, rfl⟩
    | some p =>
      exact ⟨_, rfl, (State.respond_undone _ (devRead_response p.1 p.2 s)).symm⟩
  have store : ∀ a v, ∃ u, exec (.busWrite a v) s = .next u ∧
      (busStore a v s).elim s id = { u with response := s.response } := by
    intro a v
    rw [show exec (.busWrite a v) s = execBusWrite a v s from rfl]
    unfold execBusWrite busStore
    cases resolve s.cfg a with
    | none => exact ⟨_, rfl, rfl⟩
    | some p =>
      exact ⟨_, rfl, (State.respond_undone _ (devWrite_response p.1 p.2 v s)).symm⟩
  cases q with
  | lines l rest c =>
    cases l with
    | write a v =>
      obtain ⟨u, h, e⟩ := store a v
      refine ⟨u, h, e ▸ ?_⟩
      simp only [Sequence.advance, performLine]
      cases busStore a v s <;> simp
    | update a x =>
      obtain ⟨u, h, e⟩ := store a (x.apply c)
      refine ⟨u, h, e ▸ ?_⟩
      simp only [Sequence.advance, performLine]
      cases busStore a (x.apply c) s <;> simp
    | readBack a m x =>
      obtain ⟨u, h, e⟩ := load a
      refine ⟨u, h, e ▸ ?_⟩
      simp only [Sequence.advance, performLine]
      cases busLoad a s with
      | none => rfl
      | some p => dsimp only; split <;> simp
    | load a =>
      obtain ⟨u, h, e⟩ := load a
      refine ⟨u, h, e ▸ ?_⟩
      simp only [Sequence.advance, performLine]
      cases busLoad a s <;> simp
    | verify a x =>
      obtain ⟨u, h, e⟩ := load a
      refine ⟨u, h, e ▸ ?_⟩
      simp only [Sequence.advance, performLine]
      cases busLoad a s with
      | none => rfl
      | some p => dsimp only; split <;> simp
  | fetch more ws l =>
    cases l with
    | wpLow =>
      obtain ⟨u, h, e⟩ := load (tsAddr s.cfg offWpLow)
      refine ⟨u, h, e ▸ ?_⟩
      simp only [Sequence.advance, performFetch]
      cases busLoad (tsAddr s.cfg offWpLow) s <;> rfl
    | rpLow w =>
      obtain ⟨u, h, e⟩ := load (tsAddr s.cfg offRpLow)
      refine ⟨u, h, e ▸ ?_⟩
      simp only [Sequence.advance, performFetch]
      cases busLoad (tsAddr s.cfg offRpLow) s with
      | none => rfl
      | some p => dsimp only; split <;> rfl
    | data =>
      obtain ⟨u, h, e⟩ := load (tsAddr s.cfg offData)
      refine ⟨u, h, e ▸ ?_⟩
      simp only [Sequence.advance, performFetch]
      cases busLoad (tsAddr s.cfg offData) s with
      | none => rfl
      | some p => simp

theorem advance_moves {q : Sequence} (hq : q.writes = true → mayWriteControl i = true) (s : State) :
    Moves i s (q.advance s).state := by
  have load : ∀ a, Moves i s ((busLoad a s).elim s Prod.snd) := by
    intro a
    cases h : busLoad a s with
    | none => exact .refl
    | some p => exact busLoad_moves h
  have store : q.writes = true → ∀ a v, Moves i s ((busStore a v s).elim s id) := by
    intro hw a v
    cases h : busStore a v s with
    | none => exact .refl
    | some t => exact busStore_moves (hq hw) h
  cases q with
  | lines l rest c =>
    cases l <;> simp only [Sequence.advance, performLine]
    case write a v => have := store rfl a v; revert this; cases busStore a v s <;> simp
    case update a u => have := store rfl a (u.apply c); revert this; cases busStore a (u.apply c) s <;> simp
    case load a => have := load a; revert this; cases busLoad a s <;> simp
    case readBack a m e =>
      have := load a; revert this
      cases busLoad a s with
      | none => exact id
      | some p => dsimp only; split <;> simp
    case verify a u =>
      have := load a; revert this
      cases busLoad a s with
      | none => exact id
      | some p => dsimp only; split <;> simp
  | fetch more ws l =>
    cases l <;> simp only [Sequence.advance, performFetch]
    case wpLow => have := load (tsAddr s.cfg offWpLow); revert this; cases busLoad (tsAddr s.cfg offWpLow) s <;> exact id
    case rpLow w =>
      have := load (tsAddr s.cfg offRpLow); revert this
      cases busLoad (tsAddr s.cfg offRpLow) s with
      | none => exact id
      | some p => dsimp only; split <;> exact id
    case data =>
      have := load (tsAddr s.cfg offData); revert this
      cases busLoad (tsAddr s.cfg offData) s with
      | none => exact id
      | some p => simp

/-- A sequence that goes on is the same kind of sequence, with fewer lines to perform. -/
theorem advance_going {q q' : Sequence} {s t : State} (h : q.advance s = .going q' t) :
    q'.writes = q.writes ∧ q'.lineBound < q.lineBound := by
  have next : ∀ (l : Line) (rest : List Line) (c c' : Word) (u : State), nextLine rest c' u = .going q' t →
      q'.writes = (Sequence.lines l rest c).writes ∧ q'.lineBound < (Sequence.lines l rest c).lineBound := by
    intro l rest c c' u h
    cases rest with
    | nil => cases h
    | cons _ _ => cases h; simp [Sequence.writes, Sequence.lineBound]
  cases q with
  | lines l rest c =>
    cases l <;> simp only [Sequence.advance, performLine] at h <;> (repeat' split at h) <;>
      first | exact next _ _ _ _ _ h | cases h
  | fetch more ws l =>
    cases l <;> simp only [Sequence.advance, performFetch] at h <;> (repeat' split at h) <;> first
      | (cases h; exact ⟨rfl, by simp [Sequence.lineBound]⟩)
      | (cases more with
          | zero => cases h
          | succ n => cases h; exact ⟨rfl, by simp only [Sequence.lineBound]; omega⟩)
      | cases h

/-- A sequence alone, with fuel for all its lines, ends, and does what its lines do. -/
theorem runAlone_moves (fuel : Nat) : ∀ {p : Progress} {t : State},
    (∀ q s, p = .going q s → (q.writes = true → mayWriteControl i = true) ∧ q.lineBound ≤ fuel) →
    runAlone fuel p = .next t → Moves i p.state t := by
  induction fuel with
  | zero =>
    intro p t hp h
    cases p with
    | going q s =>
      have := (hp q s rfl).2
      rcases q with ⟨_, rest, _⟩ | ⟨_, _, l⟩
      · simp [Sequence.lineBound] at this
      · cases l <;> simp [Sequence.lineBound] at this
    | ended r s => cases h; exact .one (.report _ _)
  | succ n ih =>
    intro p t hp h
    cases p with
    | going q s =>
      obtain ⟨hw, hb⟩ := hp q s rfl
      refine (advance_moves hw s).trans (ih ?_ h)
      intro q' u e
      obtain ⟨e1, e2⟩ := advance_going e
      exact ⟨fun hq => hw (e1 ▸ hq), by omega⟩
    | ended r s => cases h; exact .one (.report _ _)

theorem runAlone_going_moves {fuel : Nat} {q : Sequence} {s t : State} (hi : mayWriteControl i = true) (hb : q.lineBound ≤ fuel)
    (h : runAlone fuel (.going q s) = .next t) : Moves i s t := by
  refine runAlone_moves (p := .going q s) fuel ?_ h
  rintro _ _ ⟨⟩
  exact ⟨fun _ => hi, hb⟩

theorem execFetch_moves {n : Nat} {s t : State} (h : execFetch n s = .next t) : Moves i s t := by
  have := runAlone_moves (i := i) (p := fetchFrom n [] s) (3 * n) ?_ h
  · rwa [fetchFrom_state] at this
  · intro q u e
    cases n with
    | zero => cases e
    | succ n => cases e; exact ⟨nofun, by simp only [Sequence.lineBound]; omega⟩

theorem endDone_moves {s t u : State} (h : Moves i s t) (hu : endDone t = .next u) : Moves i s u := by
  cases hu; exact h.trans (Moves.one (.report _ _))

theorem endWord_moves {s u : State} {p : Word × State} (h : Moves i s p.2) (hu : endWord p = .next u) : Moves i s u := by
  cases hu; exact h.trans (Moves.one (.report _ _))

/-- Everything an operation can do: when it goes on, it has performed a sequence of moves. -/
theorem exec_moves {i : Instr} {s t : State} (h : exec i s = .next t) : Moves i s t := by
  cases i with
  | busRead a =>
    simp only [exec, execBusRead] at h
    split at h
    · cases h; exact .one (.report _ _)
    · exact endWord_moves (devRead_moves _ _ s) h
  | busWrite a v =>
    simp only [exec, execBusWrite] at h
    split at h
    · cases h; exact .one (.report _ _)
    · exact endDone_moves (devWrite_moves rfl _ _ v s) h
  | busRangeError d a =>
    simp only [exec, execBusRangeError] at h
    split at h
    · cases h; exact .one (.report _ _)
    · cases h
  | teControlRd => exact endWord_moves .refl h
  | teControlWr v => exact endDone_moves (.one (.teWrite v s rfl)) h
  | teInvalidRd _ => exact endWord_moves (.one (.event s _)) h
  | teInvalidWr _ _ => exact endDone_moves (.one (.event s _)) h
  | tfControlRd => exact endWord_moves .refl h
  | tfControlWr v => exact endDone_moves (.one (.tfWrite v s rfl)) h
  | tfDisInputRd => exact endWord_moves .refl h
  | tfDisInputWr v => exact endDone_moves (.one (.tfDis v s)) h
  | tfInvalidRd _ => exact endWord_moves (.one (.event s _)) h
  | tfInvalidWr _ _ => exact endDone_moves (.one (.event s _)) h
  | tsControlRd => exact endWord_moves (.one (.tsRecompute s)) h
  | tsControlWr v => exact endDone_moves (.one (.tsWrite v s rfl)) h
  | tsWpLowRd => exact endWord_moves .refl h
  | tsWpLowWr _ => exact endDone_moves .refl h
  | tsRpLowRd => exact endWord_moves .refl h
  | tsRpLowWr _ => exact endDone_moves .refl h
  | tsDataRd => exact endWord_moves (tsDataRead_moves s) h
  | tsDataWr _ => exact endDone_moves .refl h
  | tsInvalidRd _ => exact endWord_moves (.one (.event s _)) h
  | tsInvalidWr _ _ => exact endDone_moves (.one (.event s _)) h
  | emit pc op => exact endDone_moves (encoderEmit_moves pc op s) h
  | tfPush data => exact endDone_moves (funnelPush_moves rfl s) h
  | tsPush data => exact endDone_moves (sinkPush_moves rfl s) h
  | configure => exact runAlone_going_moves (q := configureSequence s.cfg) rfl (Nat.le_refl 8) h
  | start => exact runAlone_going_moves (q := startSequence s.cfg) rfl (Nat.le_refl 3) h
  | stop => exact runAlone_going_moves (q := stopSequence s.cfg) rfl (Nat.le_refl 9) h
  | fetch n => exact execFetch_moves h

end Sys2Proof.Machine
end

