-- ==== Sys2Proof/Laws/Driver.lean ====
section
/-! SUPPORT. The lines of the driver sequences under a well-formed configuration: each address resolves to the register it
names, so that a line is one register operation and no `RangeError` ends a sequence. -/

namespace Sys2Proof.Machine

variable {s : State} {c : Config}

theorem busLoad_te (hs : s.cfg = c) (h : c.wf = true) : busLoad (teAddr c offControl) s = some (teControlRead s) := by
  subst hs
  have := (Config.wf_iff _).1 h
  exact busLoad_of_resolve (resolve_teAddr h (by simp only [offControl]; omega))

theorem busLoad_tf (hs : s.cfg = c) (h : c.wf = true) : busLoad (tfAddr c offControl) s = some (tfControlRead s) := by
  subst hs
  have := (Config.wf_iff _).1 h
  exact busLoad_of_resolve (resolve_tfAddr h (by simp only [offControl]; omega))

theorem busLoad_dis (hs : s.cfg = c) (h : c.wf = true) : busLoad (tfAddr c offDisInput) s = some (tfDisInputRead s) := by
  subst hs
  have := (Config.wf_iff _).1 h
  exact busLoad_of_resolve (resolve_tfAddr h (by simp only [offDisInput]; omega))

theorem busLoad_ts (hs : s.cfg = c) (h : c.wf = true) : busLoad (tsAddr c offControl) s = some (tsControlRead s) := by
  subst hs
  have := (Config.wf_iff _).1 h
  exact busLoad_of_resolve (resolve_tsAddr h (by simp only [offControl]; omega))

theorem busLoad_wp (hs : s.cfg = c) (h : c.wf = true) : busLoad (tsAddr c offWpLow) s = some (tsWpLowRead s) := by
  subst hs
  have := (Config.wf_iff _).1 h
  exact busLoad_of_resolve (resolve_tsAddr h (by simp only [offWpLow]; omega))

theorem busLoad_rp (hs : s.cfg = c) (h : c.wf = true) : busLoad (tsAddr c offRpLow) s = some (tsRpLowRead s) := by
  subst hs
  have := (Config.wf_iff _).1 h
  exact busLoad_of_resolve (resolve_tsAddr h (by simp only [offRpLow]; omega))

theorem busLoad_data (hs : s.cfg = c) (h : c.wf = true) : busLoad (tsAddr c offData) s = some (tsDataRead s) := by
  subst hs
  have := (Config.wf_iff _).1 h
  exact busLoad_of_resolve (resolve_tsAddr h (by simp only [offData]; omega))

theorem busStore_te (hs : s.cfg = c) (h : c.wf = true) (v : Word) :
    busStore (teAddr c offControl) v s = some (teControlWrite v s) := by
  subst hs
  have := (Config.wf_iff _).1 h
  exact busStore_of_resolve (resolve_teAddr h (by simp only [offControl]; omega))

theorem busStore_tf (hs : s.cfg = c) (h : c.wf = true) (v : Word) :
    busStore (tfAddr c offControl) v s = some (tfControlWrite v s) := by
  subst hs
  have := (Config.wf_iff _).1 h
  exact busStore_of_resolve (resolve_tfAddr h (by simp only [offControl]; omega))

theorem busStore_dis (hs : s.cfg = c) (h : c.wf = true) (v : Word) :
    busStore (tfAddr c offDisInput) v s = some (tfDisInputWrite v s) := by
  subst hs
  have := (Config.wf_iff _).1 h
  exact busStore_of_resolve (resolve_tfAddr h (by simp only [offDisInput]; omega))

theorem busStore_ts (hs : s.cfg = c) (h : c.wf = true) (v : Word) :
    busStore (tsAddr c offControl) v s = some (tsControlWrite v s) := by
  subst hs
  have := (Config.wf_iff _).1 h
  exact busStore_of_resolve (resolve_tsAddr h (by simp only [offControl]; omega))

@[simp] theorem tsControlWrite_cfg (v : Word) (s : State) : (tsControlWrite v s).cfg = s.cfg := by
  unfold tsControlWrite; split <;> rfl

@[simp] theorem tsDataRead_cfg (s : State) : (tsDataRead s).2.cfg = s.cfg := by
  unfold tsDataRead; split <;> rfl

theorem runAlone_ended (fuel : Nat) (r : Response) (s : State) : runAlone fuel (.ended r s) = .next (s.respond r) := by
  cases fuel <;> rfl

/-- The rest of a sequence after a line whose assertion holds or not. -/
theorem runAlone_ite (fuel : Nat) (p : Prop) [Decidable p] (x y : Progress) :
    runAlone fuel (if p then x else y) = if p then runAlone fuel x else runAlone fuel y := by
  split <;> rfl

/-- A read-modify-write of the Encoder's CONTROL, with nothing between its lines. -/
theorem runAlone_update_te (h : s.cfg.wf = true) (fuel : Nat) (u : EnableUpdate) (rest : List Line) (c : Word) :
    runAlone (fuel + 3) (.going (.lines (.load (teAddr s.cfg offControl))
      (.update (teAddr s.cfg offControl) u :: .verify (teAddr s.cfg offControl) u :: rest) c) s) =
      if u.holds s.te.ctrl (teControlWrite (u.apply s.te.ctrl) s).te.ctrl
      then runAlone fuel (nextLine rest s.te.ctrl (teControlWrite (u.apply s.te.ctrl) s))
      else .next ((teControlWrite (u.apply s.te.ctrl) s).respond .assertionFailed) := by
  have h2 : busLoad (teAddr s.cfg offControl) (teControlWrite (u.apply s.te.ctrl) s) = _ := busLoad_te rfl h
  simp only [runAlone, Sequence.advance, performLine, busLoad_te rfl h, nextLine, teControlRead, busStore_te rfl h, h2,
    runAlone_ite, runAlone_ended]

/-- A read-modify-write of the Funnel's CONTROL, with nothing between its lines. -/
theorem runAlone_update_tf (h : s.cfg.wf = true) (fuel : Nat) (u : EnableUpdate) (rest : List Line) (c : Word) :
    runAlone (fuel + 3) (.going (.lines (.load (tfAddr s.cfg offControl))
      (.update (tfAddr s.cfg offControl) u :: .verify (tfAddr s.cfg offControl) u :: rest) c) s) =
      if u.holds s.tf.ctrl (tfControlWrite (u.apply s.tf.ctrl) s).tf.ctrl
      then runAlone fuel (nextLine rest s.tf.ctrl (tfControlWrite (u.apply s.tf.ctrl) s))
      else .next ((tfControlWrite (u.apply s.tf.ctrl) s).respond .assertionFailed) := by
  have h2 : busLoad (tfAddr s.cfg offControl) (tfControlWrite (u.apply s.tf.ctrl) s) = _ := busLoad_tf rfl h
  simp only [runAlone, Sequence.advance, performLine, busLoad_tf rfl h, nextLine, tfControlRead, busStore_tf rfl h, h2,
    runAlone_ite, runAlone_ended]

/-- A read-modify-write of the Sink's CONTROL, with nothing between its lines; both reads recompute Empty (R105). -/
theorem runAlone_update_ts (h : s.cfg.wf = true) (fuel : Nat) (u : EnableUpdate) (rest : List Line) (c : Word) :
    runAlone (fuel + 3) (.going (.lines (.load (tsAddr s.cfg offControl))
      (.update (tsAddr s.cfg offControl) u :: .verify (tsAddr s.cfg offControl) u :: rest) c) s) =
      if u.holds (tsControlRead s).1 (tsControlRead (tsControlWrite (u.apply (tsControlRead s).1) (tsControlRead s).2)).1
      then runAlone fuel (nextLine rest (tsControlRead s).1
        (tsControlRead (tsControlWrite (u.apply (tsControlRead s).1) (tsControlRead s).2)).2)
      else .next ((tsControlRead (tsControlWrite (u.apply (tsControlRead s).1) (tsControlRead s).2)).2.respond
        .assertionFailed) := by
  have h1 := busStore_ts (s := (tsControlRead s).2) (c := s.cfg) rfl h (u.apply (tsControlRead s).1)
  have h2 := busLoad_ts (s := tsControlWrite (u.apply (tsControlRead s).1) (tsControlRead s).2) (c := s.cfg)
    (by rw [tsControlWrite_cfg]; rfl) h
  simp only [runAlone, Sequence.advance, performLine, busLoad_ts rfl h, nextLine, h1, h2, runAlone_ite, runAlone_ended]

/-- One turn of `FETCH` (R121), with nothing between its reads: the two cursor registers are compared, then one word is read from
`DATA`. -/
theorem runAlone_fetch_succ (h : s.cfg.wf = true) (n : Nat) (ws : List Word) :
    runAlone (3 * (n + 1)) (fetchFrom (n + 1) ws s) =
      if cursorWord s.ts.wp = cursorWord s.ts.rp then .next (s.respond (.words ws))
      else runAlone (3 * n) (fetchFrom n (ws ++ [(tsDataRead s).1]) (tsDataRead s).2) := by
  rw [show 3 * (n + 1) = 3 * n + 3 from rfl]
  rw [show fetchFrom (n + 1) ws s = .going (.fetch n ws .wpLow) s from rfl]
  simp only [runAlone, Sequence.advance, performFetch, busLoad_wp rfl h, tsWpLowRead, busLoad_rp rfl h, tsRpLowRead]
  rw [apply_ite (fun p => runAlone (3 * n + 1) p)]
  simp only [runAlone, Sequence.advance, performFetch, busLoad_data rfl h]

end Sys2Proof.Machine
end

