-- ==== Sys2Proof/Laws/PerInstr.lean ====
section
/-! SUPPORT. One statement about every operation, with one lemma per constructor: the frame of an operation is built from one
operation code, two operand words and a payload, its code is one of those the decoder gives a meaning, and only the two pushes
carry a payload. -/

namespace Sys2Proof.Laws.FrameShape

/-- The shape of an operation's frame (log entry 2). -/
def Statement (i : Instr) : Prop :=
  ∃ (code : Byte) (a b : Word) (p : List Byte),
    encode i = frameOf code a b p ∧ code.toNat ≤ 0x10 ∧ (p = [] ∨ code = 0x0B ∨ code = 0x0C)

theorem busRead (x : Word) : Statement (.busRead x) := ⟨_, _, _, _, rfl, by decide, .inl rfl⟩

theorem busWrite (x y : Word) : Statement (.busWrite x y) := ⟨_, _, _, _, rfl, by decide, .inl rfl⟩

theorem busRangeError (x : Dir) (y : Word) : Statement (.busRangeError x y) := by
  cases x
  · exact ⟨0x08, _, _, _, rfl, by decide, .inl rfl⟩
  · exact ⟨0x09, _, _, _, rfl, by decide, .inl rfl⟩

theorem teControlRd : Statement .teControlRd := ⟨_, _, _, _, rfl, by decide, .inl rfl⟩

theorem teControlWr (x : Word) : Statement (.teControlWr x) := ⟨_, _, _, _, rfl, by decide, .inl rfl⟩

theorem teInvalidRd (x : Word) : Statement (.teInvalidRd x) := ⟨_, _, _, _, rfl, by decide, .inl rfl⟩

theorem teInvalidWr (x y : Word) : Statement (.teInvalidWr x y) := ⟨_, _, _, _, rfl, by decide, .inl rfl⟩

theorem tfControlRd : Statement .tfControlRd := ⟨_, _, _, _, rfl, by decide, .inl rfl⟩

theorem tfControlWr (x : Word) : Statement (.tfControlWr x) := ⟨_, _, _, _, rfl, by decide, .inl rfl⟩

theorem tfDisInputRd : Statement .tfDisInputRd := ⟨_, _, _, _, rfl, by decide, .inl rfl⟩

theorem tfDisInputWr (x : Word) : Statement (.tfDisInputWr x) := ⟨_, _, _, _, rfl, by decide, .inl rfl⟩

theorem tfInvalidRd (x : Word) : Statement (.tfInvalidRd x) := ⟨_, _, _, _, rfl, by decide, .inl rfl⟩

theorem tfInvalidWr (x y : Word) : Statement (.tfInvalidWr x y) := ⟨_, _, _, _, rfl, by decide, .inl rfl⟩

theorem tsControlRd : Statement .tsControlRd := ⟨_, _, _, _, rfl, by decide, .inl rfl⟩

theorem tsControlWr (x : Word) : Statement (.tsControlWr x) := ⟨_, _, _, _, rfl, by decide, .inl rfl⟩

theorem tsWpLowRd : Statement .tsWpLowRd := ⟨_, _, _, _, rfl, by decide, .inl rfl⟩

theorem tsWpLowWr (x : Word) : Statement (.tsWpLowWr x) := ⟨_, _, _, _, rfl, by decide, .inl rfl⟩

theorem tsRpLowRd : Statement .tsRpLowRd := ⟨_, _, _, _, rfl, by decide, .inl rfl⟩

theorem tsRpLowWr (x : Word) : Statement (.tsRpLowWr x) := ⟨_, _, _, _, rfl, by decide, .inl rfl⟩

theorem tsDataRd : Statement .tsDataRd := ⟨_, _, _, _, rfl, by decide, .inl rfl⟩

theorem tsDataWr (x : Word) : Statement (.tsDataWr x) := ⟨_, _, _, _, rfl, by decide, .inl rfl⟩

theorem tsInvalidRd (x : Word) : Statement (.tsInvalidRd x) := ⟨_, _, _, _, rfl, by decide, .inl rfl⟩

theorem tsInvalidWr (x y : Word) : Statement (.tsInvalidWr x y) := ⟨_, _, _, _, rfl, by decide, .inl rfl⟩

theorem emit (x y : Word) : Statement (.emit x y) := ⟨_, _, _, _, rfl, by decide, .inl rfl⟩

theorem tfPush (x : List Byte) : Statement (.tfPush x) := ⟨_, _, _, _, rfl, by decide, .inr (.inl rfl)⟩

theorem tsPush (x : List Byte) : Statement (.tsPush x) := ⟨_, _, _, _, rfl, by decide, .inr (.inr rfl)⟩

theorem configure : Statement .configure := ⟨_, _, _, _, rfl, by decide, .inl rfl⟩

theorem start : Statement .start := ⟨_, _, _, _, rfl, by decide, .inl rfl⟩

theorem stop : Statement .stop := ⟨_, _, _, _, rfl, by decide, .inl rfl⟩

theorem fetch (x : Nat) : Statement (.fetch x) := ⟨_, _, _, _, rfl, by decide, .inl rfl⟩

end Sys2Proof.Laws.FrameShape
end

