-- ==== Sys2Proof/Laws/Schedule.lean ====
section
/-! SUPPORT. Everything a step can do, said once: it performs at most one operation on the block, the one of `stepOperation`,
and besides that it writes only the model's own fields. -/

namespace Sys2Proof.Machine

/-- Calling a sequence changes nothing of the state. -/
theorem callSequence_cases {i : Instr} {s : State} {p : Progress} (h : callSequence i s = some p) : p.state = s := by
  cases i <;> cases h
  case fetch => exact fetchFrom_state _ _ s
  all_goals rfl

/-- Whether an operation is a sequence does not depend on the state. -/
theorem callSequence_none (i : Instr) (s t : State) : callSequence i s = none ↔ callSequence i t = none := by
  cases i <;> simp [callSequence]

/-- Everything a turn for a line can do: with a sequence at that place, what its bus operation does; else nothing. -/
theorem lineTurn_cases {k : Nat} {s t : State} (h : lineTurn k s = .next t) :
    (s.running[k]? = none ∧ t = s) ∨
    ∃ q u r qs, s.running[k]? = some q ∧ exec (q.operation s.cfg) s = .next u ∧ t = { u with response := r, running := qs } := by
  unfold lineTurn at h
  split at h
  · cases h; exact .inl ⟨‹_›, rfl⟩
  · rename_i q hq
    obtain ⟨u, hu, e⟩ := advance_exec q s
    refine .inr ⟨q, u, ?_⟩
    split at h <;> rename_i v ha <;> rw [ha] at e <;> cases h <;> obtain rfl : v = _ := e
    · exact ⟨s.response, _, hq, hu, rfl⟩
    · exact ⟨_, _, hq, hu, rfl⟩

/-- Everything a step can do. -/
theorem step_cases {s t : State} (h : step s = .next t) :
    ∃ r qs,
      (stepOperation s = none ∧ t = { s with pending := s.pending.tail, response := r, running := qs }) ∨
      ∃ i u, stepOperation s = some i ∧ exec i { s with pending := s.pending.tail } = .next u ∧
        t = { u with response := r, running := qs } := by
  unfold step at h
  split at h
  case isFalse => cases h
  split at h
  case isFalse => cases h
  cases hp : s.pending with
  | nil =>
    rw [hp] at h; cases h
    refine ⟨s.response, s.running, .inl ⟨by simp [stepOperation, hp], ?_⟩⟩
    cases s; cases hp; rfl
  | cons x rest =>
    rw [hp] at h
    have ho : stepOperation s = turnOperation x s := by simp [stepOperation, hp]
    simp only [List.tail_cons, ho]
    cases x with
    | operation f =>
      simp only [performTurn] at h
      split at h
      · rename_i i hd
        exact ⟨t.response, t.running, .inr ⟨i, t, by simp [turnOperation, hd, Except.toOption], h, rfl⟩⟩
      · cases h
    | call f =>
      simp only [performTurn] at h
      split at h
      · rename_i i hd
        unfold callTurn at h
        split at h
        · rename_i hc
          refine ⟨t.response, t.running, .inr ⟨i, t, ?_, h, rfl⟩⟩
          simp [turnOperation, hd, (callSequence_none i _ s).1 hc]
        · rename_i r u hc
          cases h
          have := callSequence_cases hc
          refine ⟨r, s.running, .inl ⟨?_, by rw [show u = _ from this]; rfl⟩⟩
          have : callSequence i s ≠ none := fun e => by rw [(callSequence_none i _ s).2 e] at hc; cases hc
          simp [turnOperation, hd, this]
        · rename_i q u hc
          cases h
          have := callSequence_cases hc
          refine ⟨s.response, s.running ++ [q], .inl ⟨?_, by rw [show u = _ from this]⟩⟩
          have : callSequence i s ≠ none := fun e => by rw [(callSequence_none i _ s).2 e] at hc; cases hc
          simp [turnOperation, hd, this]
      · cases h
    | line k =>
      rcases lineTurn_cases h with ⟨hn, rfl⟩ | ⟨q, u, r, qs, hq, hu, rfl⟩
      · exact ⟨s.response, s.running, .inl ⟨by simp [turnOperation, show s.running[k]? = none from hn], rfl⟩⟩
      · exact ⟨r, qs, .inr ⟨_, u, by simp [turnOperation, show s.running[k]? = some q from hq], hu, rfl⟩⟩

end Sys2Proof.Machine
end

