-- ==== Sys2Proof/Tests/Slice0.lean ====
section
/-! SUPPORT. Small tests on fixed values, and for every statement with hypotheses a witness that meets them. The expected values
are the spec's: the examples of the operations' rules and the vectors of `95_test_vectors.md`. -/

namespace Sys2Proof.Tests

open Machine

/-! Helpers. -/

/-- The example parameters of R7 with a ring buffer of 16 bytes. -/
def cfg16 : Config := { Config.specExample with cap := 16 }

/-- A running instance that holds the record of `EMIT(0x3000, 0xDEADBEEF)` (the example of R88). -/
def demo : State :=
  { State.construct cfg16 with
    te := { ctrl := 0x05000007 }
    tf := { ctrl := 0x00000003, dis := 0x00000000 }
    ts := { ctrl := 0x00000003, buf := [(1, 0x30), (4, 0xEF), (5, 0xBE), (6, 0xAD), (7, 0xDE)]
            wp := 8, rp := 0, count := 8, dropped := 0 } }

/-- A running instance with `count` live bytes of value 0 from cursor `rp` on. -/
def zeros (rp count : Nat) : State :=
  { demo with ts := { ctrl := if count = 0 then 0x0000000B else 0x00000003, buf := []
                      wp := (rp + count) % 16, rp := rp, count := count, dropped := 0 } }

/-- An instance with one device register replaced. -/
def withTe (c : Word) : State := { demo with te := { ctrl := c } }
def withTf (c d : Word) : State := { demo with tf := { ctrl := c, dis := d } }
def withTs (c : Word) : State := { demo with ts := { demo.ts with ctrl := c } }

/-- The running instance of `demo` with a driver sequence in progress and turns waiting. -/
def driving (q : Sequence) (turns : List Turn) : State := { demo with running := [q], pending := turns }

/-- An instance that holds nothing, and a `FETCH` of two words with emissions between its lines. -/
def interleaved : State :=
  { zeros 0 0 with
    pending := [.operation (encode (.emit 1 2)), .call (encode (.fetch 2)), .line 0, .operation (encode (.emit 3 4)), .line 0,
      .line 0] }

/-- The state after so many steps, if they go on. -/
def afterSteps (n : Nat) (s : State) : Option State :=
  match runSteps n s with
  | .next t => some t
  | _ => none

/-- The state an operation leaves, if it goes on. -/
def after (i : Instr) (s : State) : Option State :=
  match exec i s with
  | .next t => some t
  | _ => none

/-- The outcome an operation reports. -/
def reply (i : Instr) (s : State) : Option Response := (after i s).map State.response

/-! Well-formedness: each check refuses an ill-formed term. -/

theorem test_wf_teInvalidRd : (Instr.teInvalidRd 0x000).wf = false := by decide
theorem test_wf_teInvalidWr : (Instr.teInvalidWr 0x000 1).wf = false := by decide
theorem test_wf_tfInvalidRd : (Instr.tfInvalidRd 0x008).wf = false := by decide
theorem test_wf_tfInvalidWr : (Instr.tfInvalidWr 0x000 1).wf = false := by decide
theorem test_wf_tsInvalidRd : (Instr.tsInvalidRd 0x040).wf = false := by decide
theorem test_wf_tsInvalidWr : (Instr.tsInvalidWr 0x028 1).wf = false := by decide
theorem test_wf_fetch : (Instr.fetch 0x100000000).wf = false := by decide
theorem test_wf_base : ({ cfg16 with tsBase := 0x100000000 } : Config).wf = false := by decide
theorem test_wf_end : ({ cfg16 with tsBase := 0xFFFFF001 } : Config).wf = false := by decide
theorem test_wf_teSize : ({ cfg16 with teSize := 0x003 } : Config).wf = false := by decide
theorem test_wf_tfSize : ({ cfg16 with tfSize := 0x00B } : Config).wf = false := by decide
theorem test_wf_tsSize : ({ cfg16 with tsSize := 0x043 } : Config).wf = false := by decide
theorem test_wf_overlap_te_tf : ({ cfg16 with tfBase := 0x10000FFF } : Config).wf = false := by decide
theorem test_wf_overlap_te_ts : ({ cfg16 with tsBase := 0x0FFFF001 } : Config).wf = false := by decide
theorem test_wf_overlap_tf_ts : ({ cfg16 with tfBase := 0x10002FFF } : Config).wf = false := by decide
theorem test_wf_cap_zero : ({ cfg16 with cap := 0 } : Config).wf = false := by decide
theorem test_wf_cap_large : ({ cfg16 with cap := 0x100000001 } : Config).wf = false := by decide
theorem test_wf_fmax : ({ cfg16 with fmax := { FieldMax.full with format := 8 } } : Config).wf = false := by decide
theorem test_wf_smallest : ({ cfg16 with teSize := 0x004, tfSize := 0x00C, tsSize := 0x044, cap := 1 } : Config).wf = true := by
  decide

/-! Decoding: one frame written out for every constructor, byte by byte from the offsets of R51 and the formats of R48. -/

theorem test_decode_bus :
    decode [0x40, 0x20, 0x00, 0x10, 0x06, 0, 0, 0, 0] = .ok (.busRead 0x10002040) ∧
    decode [0x08, 0x10, 0x00, 0x10, 0x07, 0x45, 0x23, 0x01, 0x00] = .ok (.busWrite 0x10001008 0x00012345) ∧
    decode [0xFF, 0xFF, 0xFF, 0x0F, 0x08, 0, 0, 0, 0] = .ok (.busRangeError .read 0x0FFFFFFF) ∧
    decode [0x00, 0x30, 0x00, 0x10, 0x09, 0, 0, 0, 0] = .ok (.busRangeError .write 0x10003000) := by decide

theorem test_decode_encoder :
    decode [0x00, 0, 0, 0, 0x04, 0, 0, 0, 0] = .ok .teControlRd ∧
    decode [0x00, 0, 0, 0, 0x05, 0x05, 0x00, 0x00, 0x05] = .ok (.teControlWr 0x05000005) ∧
    decode [0x08, 0, 0, 0, 0x04, 0, 0, 0, 0] = .ok (.teInvalidRd 0x008) ∧
    decode [0x04, 0, 0, 0, 0x05, 0x01, 0, 0, 0x80] = .ok (.teInvalidWr 0x004 0x80000001) ∧
    decode [0x00, 0x30, 0, 0, 0x0A, 0xEF, 0xBE, 0xAD, 0xDE] = .ok (.emit 0x00003000 0xDEADBEEF) := by decide

theorem test_decode_funnel :
    decode [0x00, 0, 0, 0, 0x02, 0, 0, 0, 0] = .ok .tfControlRd ∧
    decode [0x00, 0, 0, 0, 0x03, 0x03, 0, 0, 0] = .ok (.tfControlWr 0x00000003) ∧
    decode [0x08, 0, 0, 0, 0x02, 0, 0, 0, 0] = .ok .tfDisInputRd ∧
    decode [0x08, 0, 0, 0, 0x03, 0x34, 0x12, 0xCD, 0xAB] = .ok (.tfDisInputWr 0xABCD1234) ∧
    decode [0x04, 0, 0, 0, 0x02, 0, 0, 0, 0] = .ok (.tfInvalidRd 0x004) ∧
    decode [0x0C, 0, 0, 0, 0x03, 0xFF, 0, 0, 0] = .ok (.tfInvalidWr 0x00C 0x000000FF) ∧
    decode [0, 0, 0, 0, 0x0B, 0, 0, 0, 0, 0xAA, 0xBB, 0xCC] = .ok (.tfPush [0xAA, 0xBB, 0xCC]) := by decide

theorem test_decode_sink :
    decode [0x00, 0, 0, 0, 0x00, 0, 0, 0, 0] = .ok .tsControlRd ∧
    decode [0x00, 0, 0, 0, 0x01, 0x03, 0, 0, 0] = .ok (.tsControlWr 0x00000003) ∧
    decode [0x20, 0, 0, 0, 0x00, 0, 0, 0, 0] = .ok .tsWpLowRd ∧
    decode [0x20, 0, 0, 0, 0x01, 0x10, 0, 0, 0] = .ok (.tsWpLowWr 0x00000010) ∧
    decode [0x28, 0, 0, 0, 0x00, 0, 0, 0, 0] = .ok .tsRpLowRd ∧
    decode [0x28, 0, 0, 0, 0x01, 0x10, 0, 0, 0] = .ok (.tsRpLowWr 0x00000010) ∧
    decode [0x40, 0, 0, 0, 0x00, 0, 0, 0, 0] = .ok .tsDataRd ∧
    decode [0x40, 0, 0, 0, 0x01, 0x01, 0, 0, 0] = .ok (.tsDataWr 0x00000001) ∧
    decode [0x24, 0, 0, 0, 0x00, 0, 0, 0, 0] = .ok (.tsInvalidRd 0x024) ∧
    decode [0x10, 0, 0, 0, 0x01, 0, 0, 0, 0] = .ok (.tsInvalidWr 0x010 0) ∧
    decode [0, 0, 0, 0, 0x0C, 0, 0, 0, 0] = .ok (.tsPush []) := by decide

theorem test_decode_driver :
    decode [0, 0, 0, 0, 0x0D, 0, 0, 0, 0] = .ok .configure ∧
    decode [0, 0, 0, 0, 0x0E, 0, 0, 0, 0] = .ok .start ∧
    decode [0, 0, 0, 0, 0x0F, 0, 0, 0, 0] = .ok .stop ∧
    decode [0x04, 0x01, 0, 0, 0x10, 0, 0, 0, 0] = .ok (.fetch 260) := by decide

theorem test_decode_rejects :
    decode [0, 0, 0, 0, 0x06, 0, 0, 0] = .error .truncated ∧
    decode [0, 0, 0, 0, 0x06, 0, 0, 0, 0, 0] = .error .trailingBytes ∧
    decode [0, 0, 0, 0, 0x06, 1, 0, 0, 0] = .error .strayOperand ∧
    decode [1, 0, 0, 0, 0x0D, 0, 0, 0, 0] = .error .strayOperand ∧
    decode [0, 0, 0, 0, 0x16, 0, 0, 0, 0] = .error .unknownOperation ∧
    decode [0, 0, 0, 0, 0x11, 0, 0, 0, 0] = .error .unboundedFetch ∧
    decode [0, 0, 0, 0, 0x15, 0, 0, 0, 0] = .error .narrowAccess := by decide

theorem test_table_words :
    decodeTableWord 32 0x000 = some .tsControlRd ∧ decodeTableWord 32 0x020 = some .tsWpLowRd ∧
    decodeTableWord 32 0x028 = some .tsRpLowRd ∧ decodeTableWord 32 0x040 = some .tsDataRd := by decide

/-- The operation of a table word placed after reset is what the next step performs. -/
theorem test_step_from_reset :
    (match step (State.reset.withFetchWord 32 0x000) with
      | .next t => decide (t.response = .word 0x00000008) && decide (t.pending = [])
      | _ => false) = true := by decide

/-! The operations, at most two tests each. -/

/-- R67, and R41: an offset one byte above a register is an invalid offset. -/
theorem test_busRead : (after (.busRead 0x10002040) demo).map (fun t => (t.response, t.ts.rp, t.ts.count))
    = some (.word 0x00003000, 4, 4) ∧ reply (.busRead 0x10002041) demo = some (.word 0) := by decide

/-- R67: the last address of a mapping is inside, the one after it is not. -/
theorem test_busRead_edges : reply (.busRead 0x10002FFF) demo = some (.word 0) ∧
    reply (.busRead 0x10003000) demo = some (.rangeError 0x10003000) := by decide

/-- R68. -/
theorem test_busWrite : (after (.busWrite 0x10001008 0x00012345) demo).map (fun t => t.tf.dis) = some 0x2345 := by decide

/-- R64: a write outside every mapping changes no state of a device. -/
theorem test_busWrite_range :
    after (.busWrite 0x0FFFFFFF 0) demo = some { demo with response := .rangeError 0x0FFFFFFF } := by decide

/-- R126, at both ends of the address space. -/
theorem test_busRangeError : reply (.busRangeError .read 0xFFFFFFFF) demo = some (.rangeError 0xFFFFFFFF) ∧
    reply (.busRangeError .write 0x00000000) demo = some (.rangeError 0x00000000) := by decide

/-- R89: Empty as stored, not recomputed. -/
theorem test_teControlRd : reply .teControlRd (withTe 0x05000005) = some (.word 0x05000005) ∧
    reply .teControlRd State.reset = some (.word 0) := by decide

/-- R90: all ones over 0, and all ones but Active. -/
theorem test_teControlWr : (after (.teControlWr 0xFFFFFFFF) (withTe 0)).map State.te = some ⟨0x07F3AA77⟩ ∧
    (after (.teControlWr 0xFFFFFFFE) (withTe 0x05000007)).map State.te = some ⟨0x00000008⟩ := by decide

/-- R78 and R79 with a smaller maximum: InstMode 7 saturates at 5, InstStallOrOverflow is cleared by writing 1. -/
theorem test_teControlWr_clamp :
    (after (.teControlWr 0x00001071)
      { withTe 0x00001009 with cfg := { cfg16 with fmax := { FieldMax.full with instMode := 5 } } }).map State.te
    = some ⟨0x00000059⟩ := by decide

theorem test_teInvalidRd : reply (.teInvalidRd 0x008) demo = some (.word 0) := by decide

/-- R92: a write of 0 is no master reset. -/
theorem test_teInvalidWr : (after (.teInvalidWr 0x004 0) demo).map State.te = some ⟨0x05000007⟩ := by decide

theorem test_tfControlRd : reply .tfControlRd demo = some (.word 0x00000003) := by decide

/-- R97, and S2-TF: `tf_dis` is kept by a master reset. -/
theorem test_tfControlWr : (after (.tfControlWr 0xFFFFFFFF) (withTf 0 0)).map State.tf = some ⟨0x3, 0⟩ ∧
    (after (.tfControlWr 0) (withTf 0x3 0x55)).map State.tf = some ⟨0, 0x55⟩ := by decide

theorem test_tfDisInputRd : reply .tfDisInputRd (withTf 0x3 0x1234) = some (.word 0x1234) := by decide

/-- R99: the mask comes before the clamp. -/
theorem test_tfDisInputWr : (after (.tfDisInputWr 0xABCD1234) demo).map State.tf = some ⟨0x3, 0x1234⟩ ∧
    (after (.tfDisInputWr 0x00010000) (withTf 0x3 7)).map State.tf = some ⟨0x3, 0⟩ := by decide

theorem test_tfInvalidRd : reply (.tfInvalidRd 0x004) demo = some (.word 0) := by decide
theorem test_tfInvalidWr : (after (.tfInvalidWr 0x00C 0xFFFFFFFF) demo).map State.tf = some ⟨0x3, 0⟩ := by decide

/-- R105. -/
theorem test_tsControlRd : reply .tsControlRd State.reset = some (.word 0x00000008) ∧
    reply .tsControlRd demo = some (.word 0x00000003) := by decide

/-- R106: all ones on an empty Sink. -/
theorem test_tsControlWr : (after (.tsControlWr 0xFFFFFFFF) (zeros 0 0)).map (fun t => t.ts.ctrl) = some 0x0000771B := by
  decide

/-- S2-TS: a master reset empties the buffer and keeps `dropped`. -/
theorem test_tsControlWr_reset :
    (after (.tsControlWr 0xFFFFFFFE) { demo with ts := { demo.ts with dropped := 4 } }).map State.ts
    = some { ctrl := 0x00000008, buf := [], wp := 0, rp := 0, count := 0, dropped := 4 } := by decide

/-- R107: a cursor of 6 reads as 4. -/
theorem test_tsWpLowRd : reply .tsWpLowRd (zeros 0 6) = some (.word 0x00000004) := by decide
theorem test_tsWpLowWr : (after (.tsWpLowWr 0) demo).map State.ts = some demo.ts := by decide
theorem test_tsRpLowRd : reply .tsRpLowRd (zeros 8 4) = some (.word 0x00000008) := by decide
theorem test_tsRpLowWr : (after (.tsRpLowWr 0x10) demo).map State.ts = some demo.ts := by decide

/-- R109: the word is little-endian; three live bytes are a short read. -/
theorem test_tsDataRd : (after .tsDataRd demo).map (fun t => (t.response, t.ts.rp, t.ts.count)) = some (.word 0x3000, 4, 4) ∧
    (after .tsDataRd (zeros 0 3)).map (fun t => (t.response, t.ts.rp, t.ts.count)) = some (.word 0, 0, 3) := by decide

/-- R109: the last word sets Empty, the read cursor wraps. -/
theorem test_tsDataRd_last :
    (after .tsDataRd (zeros 12 4)).map (fun t => (t.ts.ctrl, t.ts.rp)) = some (0x0000000B, 0) := by decide

theorem test_tsDataWr : (after (.tsDataWr 0x12345678) demo).map State.ts = some demo.ts := by decide
theorem test_tsInvalidRd : reply (.tsInvalidRd 0x024) demo = some (.word 0) := by decide
theorem test_tsInvalidWr : (after (.tsInvalidWr 0x010 0) demo).map State.ts = some demo.ts := by decide

/-- R88: the example's record, from an empty Sink. -/
theorem test_emit : (after (.emit 0x00003000 0xDEADBEEF) (zeros 0 0)).map State.ts = some demo.ts := by decide

/-- R88: gate closed by InstTracing, nothing happens; Funnel closed, the Encoder's Empty is cleared all the same. -/
theorem test_emit_gates : (after (.emit 1 2) (withTe 0x0000000B)).map (fun t => (t.te, t.ts)) = some (⟨0xB⟩, demo.ts) ∧
    (after (.emit 1 2) { withTe 0x0000000F with tf := ⟨0x1, 0⟩ }).map (fun t => (t.te, t.ts)) = some (⟨0x7⟩, demo.ts) := by
  decide

/-- R95: any bit of `tf_dis` blocks the input. -/
theorem test_tfPush : (after (.tfPush [0xAA, 0xBB, 0xCC, 0xDD]) (withTf 0x3 0x0001)).map State.ts = some demo.ts ∧
    (after (.tfPush [0xAA]) (withTf 0x3 0x8000)).map State.ts = some demo.ts := by decide

/-- R104: the example of a push cut at a full buffer. -/
theorem test_tsPush : (after (.tsPush [1, 2, 3, 4, 5, 6, 7, 8]) (zeros 0 12)).map State.ts
    = some { ctrl := 0x3, buf := [(12, 1), (13, 2), (14, 3), (15, 4)], wp := 0, rp := 0, count := 16, dropped := 4 } := by
  decide

/-- R118: the end state from reset. -/
theorem test_configure : (after .configure State.reset).map (fun t => (t.te.ctrl, t.tf, t.ts.ctrl, t.response))
    = some (0x05000005, ⟨0x3, 0⟩, 0x0000000B, .done) := by decide

/-- S3: Empty is kept; an Inactive Encoder fails the assertion. -/
theorem test_start : (after .start (withTe 0x00000009)).map (fun t => (t.te.ctrl, t.response)) = some (0xB, .done) ∧
    (after .start (withTe 0)).map (fun t => (t.te.ctrl, t.response)) = some (0x8, .assertionFailed) := by decide

/-- R120: the end states from the running state, buffer not empty and empty. -/
theorem test_stop : (after .stop demo).map (fun t => (t.te.ctrl, t.tf.ctrl, t.ts.ctrl)) = some (0x05000005, 0x1, 0x1) ∧
    (after .stop (zeros 0 0)).map (fun t => t.ts.ctrl) = some 0x9 := by decide

/-- R121: the words in order, and a budget of 1. -/
theorem test_fetch : reply (.fetch 4) demo = some (.words [0x00003000, 0xDEADBEEF]) ∧
    (after (.fetch 1) demo).map (fun t => (t.response, t.ts.count)) = some (.words [0x00003000], 4) := by decide

/-- R146: a full buffer looks drained. -/
theorem test_fetch_full : reply (.fetch 4) (zeros 0 16) = some (.words []) := by decide

/-- R149: an emission after the `WP_LOW` read of an empty buffer; the `FETCH` ends on the stale cursor and the record stays live. -/
theorem test_fetch_stale :
    (afterSteps 4 { zeros 0 0 with
      pending := [.call (encode (.fetch 2)), .line 0, .operation (encode (.emit 1 2)), .line 0] }).map
      (fun t => (t.response, t.ts.count, t.running)) = some (.words [], 8, []) := by decide

/-- R149: the emissions between the lines only add bytes behind the word collected. -/
theorem test_fetch_interleaved :
    (afterSteps 6 interleaved).map (fun t => (t.running, t.ts.count)) = some ([.fetch 0 [1] .wpLow], 12) := by decide

/-- R150: a write of 0x05000005 by another master between the read and the write-back of `START` is overwritten; after the
write-back it fails the assertion. -/
theorem test_start_interleaved :
    (afterSteps 4 { withTe 0x02000005 with
      pending := [.call (encode .start), .line 0, .operation (encode (.busWrite 0x10000000 0x05000005)), .line 0] }).map State.te
      = some ⟨0x02000007⟩ ∧
    (afterSteps 5 { withTe 0x02000005 with
      pending := [.call (encode .start), .line 0, .line 0, .operation (encode (.busWrite 0x10000000 0x05000005)), .line 0] }).map
      (fun t => (t.response, t.te)) = some (.assertionFailed, ⟨0x05000005⟩) := by decide

/-! Witnesses: for every statement with hypotheses, a concrete state and operands that meet them. -/

/-- The running state with eight live bytes satisfies the invariants. -/
theorem witness_inv : demo.Inv where
  cfg := by decide
  sink :=
    { bufWf := by decide, bufWithin := by decide, wpLt := by decide, rpLt := by decide, countLe := by decide
      cursors := by decide, empty := by decide, legal := ⟨by decide, by decide⟩, rpAligned := by decide
      inactive := by decide }
  teLegal := ⟨by decide, by decide⟩
  teNoOverflow := by decide
  teInactive := by decide
  tfLegal := ⟨by decide, by decide⟩
  tfNotEmpty := by decide
  tfInactive := by decide
  tfDis := by decide

/-- So do a full buffer whose cursors stand at 12, an empty one, and one with residual bytes. -/
theorem witness_inv_zeros : (zeros 12 16).Inv ∧ (zeros 0 0).Inv ∧ (zeros 8 7).Inv := by
  refine ⟨⟨?_, ⟨?_, ?_, ?_, ?_, ?_, ?_, ?_, ⟨?_, ?_⟩, ?_, ?_⟩, ⟨?_, ?_⟩, ?_, ?_, ⟨?_, ?_⟩, ?_, ?_, ?_⟩,
    ⟨?_, ⟨?_, ?_, ?_, ?_, ?_, ?_, ?_, ⟨?_, ?_⟩, ?_, ?_⟩, ⟨?_, ?_⟩, ?_, ?_, ⟨?_, ?_⟩, ?_, ?_, ?_⟩,
    ⟨?_, ⟨?_, ?_, ?_, ?_, ?_, ?_, ?_, ⟨?_, ?_⟩, ?_, ?_⟩, ⟨?_, ?_⟩, ?_, ?_, ⟨?_, ?_⟩, ?_, ?_, ?_⟩⟩ <;> decide

/-- A state whose Encoder is Inactive satisfies them too. -/
theorem witness_inv_inactive : (withTe 0x00000008).Inv := by
  refine ⟨?_, witness_inv.sink, ⟨?_, ?_⟩, ?_, ?_, ⟨?_, ?_⟩, ?_, ?_, ?_⟩ <;> decide

/-- What waits and what is in progress does not matter for them. -/
theorem witness_inv_interleaved : interleaved.Inv :=
  have h := witness_inv_zeros.2.1
  ⟨h.cfg, h.sink, h.teLegal, h.teNoOverflow, h.teInactive, h.tfLegal, h.tfNotEmpty, h.tfInactive, h.tfDis⟩

/-- The same of a state with a sequence in progress. -/
theorem witness_inv_driving (q : Sequence) (turns : List Turn) : (driving q turns).Inv :=
  have h := witness_inv
  ⟨h.cfg, h.sink, h.teLegal, h.teNoOverflow, h.teInactive, h.tfLegal, h.tfNotEmpty, h.tfInactive, h.tfDis⟩

theorem witness_DecodeEncodeRoundTrip : (Instr.tsInvalidRd 0x041).wf = true ∧ (Instr.fetch 0xFFFFFFFF).wf = true := by decide

theorem witness_AcceptedFramesAreCanonical : decode [0x28, 0, 0, 0, 0x01, 0x10, 0, 0, 0] = .ok (.tsRpLowWr 0x10) := by decide

/-- An operation, a call of an atomic operation and of a sequence, a line of a sequence and a line of none. -/
theorem witness_StepRunsDecodedOperation :
    (demo.cfg.wf = true ∧ demo.ts.wp < demo.cfg.cap ∧ demo.ts.rp < demo.cfg.cap ∧ demo.ts.count ≤ demo.cfg.cap) ∧
    (({ demo with pending := [.operation (encode .stop)] } : State).pending = .operation (encode .stop) :: [] ∧
      decode (encode .stop) = .ok .stop) ∧
    (({ demo with pending := [.call (encode .tsDataRd)] } : State).pending = .call (encode .tsDataRd) :: [] ∧
      decode (encode .tsDataRd) = .ok .tsDataRd ∧ callSequence .tsDataRd demo = none) ∧
    callSequence .start demo = some (.going (startSequence demo.cfg) demo) ∧
    (driving (startSequence cfg16) [.line 0]).running[0]? = some (startSequence cfg16) ∧
    (driving (startSequence cfg16) [.line 1]).running[1]? = none := by
  decide

theorem witness_IdleStepChangesNothing :
    demo.cfg.wf = true ∧ demo.ts.wp < demo.cfg.cap ∧ demo.ts.rp < demo.cfg.cap ∧ demo.ts.count ≤ demo.cfg.cap ∧
    demo.pending = [] := by decide

/-- One byte of overlap; no capacity; sizes one byte short. -/
theorem witness_ExcludedConfigurationsAreRefused :
    (⟨0x10000000, 0x1001, .encoder⟩ ∈ ({ cfg16 with teSize := 0x1001 } : Config).table ∧
      ⟨0x10001000, 0x1000, .funnel⟩ ∈ ({ cfg16 with teSize := 0x1001 } : Config).table ∧
      Device.encoder ≠ Device.funnel ∧ 0x10000000 ≤ (0x10001000#32).toNat ∧ (0x10001000#32).toNat < 0x10000000 + 0x1001 ∧
      0x10001000 ≤ (0x10001000#32).toNat ∧ (0x10001000#32).toNat < 0x10001000 + 0x1000) ∧
    ({ cfg16 with cap := 0 } : Config).cap = 0 ∧
    ({ cfg16 with teSize := 0x003 } : Config).teSize < 0x004 ∧ ({ cfg16 with tfSize := 0x00B } : Config).tfSize < 0x00C ∧
    ({ cfg16 with tsSize := 0x043 } : Config).tsSize < 0x044 := by decide

theorem witness_NarrowAccessIsRefused :
    (State.reset.cfg.wf = true ∧ State.reset.ts.wp < State.reset.cfg.cap ∧ State.reset.ts.rp < State.reset.cfg.cap ∧
      State.reset.ts.count ≤ State.reset.cfg.cap) ∧
    0x12#8 ∈ [0x12#8, 0x13#8, 0x14#8, 0x15#8] ∧ 0x15#8 ∈ [0x12#8, 0x13#8, 0x14#8, 0x15#8] ∧
    ({ State.reset with pending := [.operation (frameOf 0x15 0 0 [])] } : State).pending = .operation (frameOf 0x15 0 0 []) :: [] ∧
    ({ State.reset with pending := [.call (frameOf 0x11 0 0 [])] } : State).pending = .call (frameOf 0x11 0 0 []) :: [] := by
  decide

/-- The smallest and the largest capacity. -/
theorem witness_ConstructionSatisfiesInvariants :
    ({ cfg16 with cap := 1 } : Config).wf = true ∧ ({ cfg16 with cap := 0x100000000 } : Config).wf = true := by decide

theorem witness_StepKeepsInvariants : demo.Inv ∧ ∃ t, step demo = .next t := ⟨witness_inv, _, rfl⟩

theorem witness_ReachableStatesKeepInvariants :
    cfg16.wf = true ∧ ∃ t, runOps [.configure, .start, .emit 1 2, .tsControlWr 0xFFFFFFFF] (State.construct cfg16) = .next t :=
  ⟨by decide, _, rfl⟩

theorem witness_ReachableStatesKeepRingLaws :
    cfg16.wf = true ∧ ∃ t, runOps [.configure, .start, .emit 1 2, .tsDataRd] (State.construct cfg16) = .next t :=
  ⟨by decide, _, rfl⟩

theorem witness_WiredSystemKeepsCursorsAligned :
    cfg16.wf = true ∧ 4 ∣ cfg16.cap ∧ (∀ i ∈ [Instr.configure, .start, .emit 1 2, .tsDataRd], wiredOperation i = true) ∧
    ∃ t, runOps [.configure, .start, .emit 1 2, .tsDataRd] (State.construct cfg16) = .next t :=
  ⟨by decide, by decide, by decide, _, rfl⟩

theorem witness_ConfigurationIsNeverWritten : (∃ t, exec (.tsPush [1]) demo = .next t) ∧
    ∃ t, step (driving (stopSequence cfg16) [.line 0]) = .next t := ⟨⟨_, rfl⟩, _, rfl⟩

/-- The first and the last address of each mapping are contained in it; the neighbours of the map are in none. -/
theorem witness_ResolutionIsContainment : cfg16.wf = true ∧
    (∀ m ∈ cfg16.table, m.base ≤ m.base ∧ m.base - m.base < m.size ∧ (m.base + m.size - 1) - m.base < m.size) ∧
    resolve cfg16 0x0FFFFFFF = none ∧ resolve cfg16 0x10003000 = none := by decide

theorem witness_RangeErrorExactlyWhenUnmapped :
    (resolve demo.cfg 0x0FFFFFFF = none ∧ resolve demo.cfg 0x10003000 = none ∧ resolve demo.cfg 0xFFFFFFFF = none) ∧
    (resolve demo.cfg 0x10000000 ≠ none ∧ resolve demo.cfg 0x10002FFF ≠ none) := by decide

theorem witness_RangeErrorRowIsRefusedAtMappedAddress :
    resolve demo.cfg 0x10000000 ≠ none ∧ resolve demo.cfg 0x10002FFF ≠ none := by decide

/-- An address for each row of the tables of R70 and R71. -/
theorem witness_BusReadPerformsTableRow :
    resolve demo.cfg 0x10000000 = some (.encoder, 0x000) ∧ resolve demo.cfg 0x10000FFF = some (.encoder, 0xFFF) ∧
    resolve demo.cfg 0x10001000 = some (.funnel, 0x000) ∧ resolve demo.cfg 0x10001008 = some (.funnel, 0x008) ∧
    resolve demo.cfg 0x10001009 = some (.funnel, 0x009) ∧ resolve demo.cfg 0x10002000 = some (.sink, 0x000) ∧
    resolve demo.cfg 0x10002020 = some (.sink, 0x020) ∧ resolve demo.cfg 0x10002028 = some (.sink, 0x028) ∧
    resolve demo.cfg 0x10002040 = some (.sink, 0x040) ∧ resolve demo.cfg 0x10002041 = some (.sink, 0x041) := by decide

theorem witness_BusWritePerformsTableRow :
    resolve demo.cfg 0x10000000 = some (.encoder, 0x000) ∧ resolve demo.cfg 0x10000001 = some (.encoder, 0x001) ∧
    resolve demo.cfg 0x10001000 = some (.funnel, 0x000) ∧ resolve demo.cfg 0x10001008 = some (.funnel, 0x008) ∧
    resolve demo.cfg 0x10001FFF = some (.funnel, 0xFFF) ∧ resolve demo.cfg 0x10002000 = some (.sink, 0x000) ∧
    resolve demo.cfg 0x10002020 = some (.sink, 0x020) ∧ resolve demo.cfg 0x10002028 = some (.sink, 0x028) ∧
    resolve demo.cfg 0x10002040 = some (.sink, 0x040) ∧ resolve demo.cfg 0x10002FFF = some (.sink, 0xFFF) := by decide

theorem witness_EveryOperationCompletes : ∀ dir a, Instr.stop ≠ .busRangeError dir a := by
  intro dir a; exact nofun

theorem witness_BusOperationTouchesOneDevice :
    resolve demo.cfg 0x10002040 = some (.sink, 0x040) ∧ (∃ t, exec (.busRead 0x10002040) demo = .next t) ∧
    (∃ t, exec (.busWrite 0x10002040 1) demo = .next t) := ⟨by decide, ⟨_, rfl⟩, ⟨_, rfl⟩⟩

theorem witness_CtrlWriteLaws :
    FieldMax.full.wf = true ∧ teDesc FieldMax.full ∈ [teDesc FieldMax.full, tfDesc, tsDesc FieldMax.full] ∧
    (0xFFFFFFFE#32).getLsbD 0 = false ∧ (0xFFFFFFFF#32).getLsbD 0 = true ∧
    0x07F3BA7F#32 &&& reservedMask (teDesc FieldMax.full) = 0 ∧
    (CtrlLegal (teDesc FieldMax.full) 0x07F3AA7F ∧ (0x07F3AA7F#32).getLsbD 0 = true ∧
      0x07F3AA7F#32 &&& (teDesc FieldMax.full).w1cMask = 0) :=
  ⟨by decide, by decide, by decide, by decide, by decide, ⟨by decide, by decide⟩, by decide, by decide⟩

/-- With a maximum of 5 the written values 5, 6 and 7 meet the hypotheses. -/
theorem witness_FieldsSaturateAtMaximum :
    ({ FieldMax.full with format := 5 } : FieldMax).wf = true ∧
    fieldFormat { FieldMax.full with format := 5 } ∈ (teDesc { FieldMax.full with format := 5 }).fields ∧
    (0x05000001#32).getLsbD 0 = true ∧ (0x06000001#32).getLsbD 0 = true ∧ (0x07000001#32).getLsbD 0 = true := by decide

theorem witness_WriteOneClearsOverflowBit :
    teDesc FieldMax.full ∈ [teDesc FieldMax.full, tfDesc, tsDesc FieldMax.full] ∧ (0x00001001#32).getLsbD 0 = true ∧
    (0x00000001#32).getLsbD 0 = true ∧ (teDesc FieldMax.full).w1cMask.getLsbD 12 = true := by decide

theorem witness_EncoderControlWrite : demo.cfg.fmax = FieldMax.full := by decide

theorem witness_SinkControlWrite :
    demo.cfg.fmax = FieldMax.full ∧ 0xFFFFFFFE#32 &&& 0x00000001 = 0 ∧ 0x00000001#32 &&& 0x00000001 ≠ 0 := by decide

theorem witness_ControlWriteSetsDeviceState : (∃ t, exec (.teControlWr 0x00000007) demo = .next t) ∧
    (∃ t, exec (.tfControlWr 0x00000002) demo = .next t) ∧ (∃ t, exec (.tsControlWr 0x00000001) demo = .next t) :=
  ⟨⟨_, rfl⟩, ⟨_, rfl⟩, ⟨_, rfl⟩⟩

theorem witness_OnlyControlWritesChangeDeviceStates :
    ((∃ t, exec (.emit 1 2) demo = .next t) ∧ mayWriteControl (.emit 1 2) = false) ∧
    ((∃ t, exec (.busWrite 0x10001008 1) demo = .next t) ∧ resolve demo.cfg 0x10001008 = some (.funnel, 0x008) ∧
      (0x008 : Nat) ≠ 0x000) := ⟨⟨⟨_, rfl⟩, by decide⟩, ⟨_, rfl⟩, by decide, by decide⟩

theorem witness_CursorRegistersRoundDown : (zeros 8 7).Inv ∧ (zeros 8 7).ts.wp = 15 := ⟨witness_inv_zeros.2.2, by decide⟩

theorem witness_SinkControlRead : demo.Inv := witness_inv

/-- Each of the three bits alone closes the gate. -/
theorem witness_EmitPushesRecord :
    (withTe 0x6).te.ctrl.getLsbD 0 = false ∧ (withTe 0x5).te.ctrl.getLsbD 1 = false ∧ (withTe 0x3).te.ctrl.getLsbD 2 = false ∧
    (demo.te.ctrl.getLsbD 0 = true ∧ demo.te.ctrl.getLsbD 1 = true ∧ demo.te.ctrl.getLsbD 2 = true) := by decide

theorem witness_FunnelForwardsOrDrops :
    (withTf 0x1 0).tf.ctrl.getLsbD 1 = false ∧ (withTf 0x2 0).tf.ctrl.getLsbD 0 = false ∧
    ((withTf 0x3 0x8000).tf.ctrl.getLsbD 0 = true ∧ (withTf 0x3 0x8000).tf.ctrl.getLsbD 1 = true ∧
      (withTf 0x3 0x8000).tf.dis ≠ 0) ∧
    (demo.tf.ctrl.getLsbD 0 = true ∧ demo.tf.ctrl.getLsbD 1 = true ∧ demo.tf.dis = 0) := by decide

/-- The gate closed; open with room for a part of the data; open and full. -/
theorem witness_SinkPushNetEffect :
    (withTs 0x1).ts.ctrl.getLsbD 1 = false ∧
    (∀ s ∈ [zeros 0 12, zeros 12 16], s.ts.ctrl.getLsbD 0 = true ∧ s.ts.ctrl.getLsbD 1 = true ∧ s.ts.buf.wf = true ∧
      s.ts.wp < s.cfg.cap ∧ s.ts.count ≤ s.cfg.cap) := by decide

theorem witness_DataReadPopsOneWord : (zeros 0 3).ts.count < 4 ∧ 4 ≤ (zeros 0 4).ts.count := by decide

theorem witness_OperationConservesLiveBytes :
    demo.Inv ∧ resetsSink (.emit 1 2) demo = false ∧ resetsSink (.busWrite 0x10002000 0x00000001) demo = false ∧
    (∃ t, exec (.emit 1 2) demo = .next t) ∧ (∃ t, exec (.busWrite 0x10002000 0x00000001) demo = .next t) :=
  ⟨witness_inv, by decide, by decide, ⟨_, rfl⟩, ⟨_, rfl⟩⟩

theorem witness_RunPopsAcceptedBytesInOrder :
    ((zeros 0 0).Inv ∧ (zeros 0 0).ts.count = 0 ∧ neverResetsSink [.emit 1 2, .tsPush [7], .fetch 1] (zeros 0 0) = true ∧
      ∃ t, runOps [.emit 1 2, .tsPush [7], .fetch 1] (zeros 0 0) = .next t) ∧
    (interleaved.Inv ∧ interleaved.ts.count = 0 ∧ stepsNeverResetSink 6 interleaved = true ∧
      ∃ t, runSteps 6 interleaved = .next t) :=
  ⟨⟨witness_inv_zeros.2.1, by decide, by decide, _, rfl⟩, witness_inv_interleaved, by decide, by decide, _, rfl⟩

theorem witness_PushedWordIsPoppedUnchanged :
    (zeros 0 0).Inv ∧ (zeros 0 0).ts.ctrl.getLsbD 0 = true ∧ (zeros 0 0).ts.ctrl.getLsbD 1 = true ∧
    (zeros 0 0).ts.count = 0 ∧ 4 ≤ (zeros 0 0).cfg.cap := ⟨witness_inv_zeros.2.1, by decide⟩

theorem witness_DisabledInputBlocksEverything :
    (withTf 0x3 0x8000).tf.dis ≠ 0 ∧ (∀ i ∈ [Instr.emit 1 2, .tfPush [1]], funnelProducer i = true) ∧
    ∃ t, runOps [.emit 1 2, .tfPush [1]] (withTf 0x3 0x8000) = .next t := ⟨by decide, by decide, _, rfl⟩

theorem witness_DiagnosticsAreUnobservable : ∃ t, exec (.tsPush [1]) (zeros 0 16) = .next t := ⟨_, rfl⟩

/-- Index 9 is not live. -/
theorem witness_DeadBytesAreUnobservable :
    demo.Inv ∧ Memory.wf (demo.ts.buf.write 9 1) = true ∧ Memory.within (demo.ts.buf.write 9 1) demo.cfg.cap = true ∧
    ({ demo with ts := { demo.ts with buf := demo.ts.buf.write 9 1 } } : State).live = demo.live ∧
    (∃ t, exec (.fetch 2) demo = .next t) :=
  ⟨witness_inv, by decide, by decide, by decide, _, rfl⟩

theorem witness_StorageOnlyFieldsHaveNoFunction :
    (0x07F3AA77#32 &&& 0x00000007 = demo.te.ctrl &&& 0x00000007 ∧ (∃ t, exec (.emit 1 2) demo = .next t) ∧
      (∃ u, exec (.emit 1 2) { demo with te := { ctrl := 0x07F3AA77 } } = .next u)) ∧
    (0x00007713#32 &&& 0x00000003 = demo.ts.ctrl &&& 0x00000003 ∧ (∃ t, exec (.tsPush [1]) demo = .next t) ∧
      (∃ u, exec (.tsPush [1]) { demo with ts := { demo.ts with ctrl := 0x00007713 } } = .next u)) :=
  ⟨⟨by decide, ⟨_, rfl⟩, ⟨_, rfl⟩⟩, ⟨by decide, ⟨_, rfl⟩, ⟨_, rfl⟩⟩⟩

theorem witness_ConfigureAlwaysSucceeds : demo.cfg.wf = true ∧ demo.cfg.fmax = FieldMax.full := by decide

theorem witness_StartSetsEnableOnly : (demo.Inv ∧ demo.te.ctrl.getLsbD 0 = true) ∧
    ((withTe 0x00000008).Inv ∧ (withTe 0x00000008).te.ctrl.getLsbD 0 = false) :=
  ⟨⟨witness_inv, by decide⟩, witness_inv_inactive, by decide⟩

theorem witness_StopClearsEnablesAndKeepsData : demo.Inv ∧ (withTe 0x00000008).Inv := ⟨witness_inv, witness_inv_inactive⟩

/-- An empty buffer ends the loop, a full one does too, eight live bytes do not. -/
theorem witness_FetchUnrollsByOneWord :
    demo.cfg.wf = true ∧ cursorWord (zeros 0 0).ts.wp = cursorWord (zeros 0 0).ts.rp ∧
    cursorWord (zeros 12 16).ts.wp = cursorWord (zeros 12 16).ts.rp ∧ cursorWord demo.ts.wp ≠ cursorWord demo.ts.rp := by decide

theorem witness_FetchReturnsLiveWords :
    (demo.Inv ∧ 4 ∣ demo.cfg.cap ∧ demo.ts.count ≠ demo.cfg.cap) ∧
    ((zeros 0 0).Inv ∧ 4 ∣ (zeros 0 0).cfg.cap ∧ (zeros 0 0).ts.count ≠ (zeros 0 0).cfg.cap) :=
  ⟨⟨witness_inv, by decide, by decide⟩, witness_inv_zeros.2.1, by decide, by decide⟩

theorem witness_FetchOnFullBufferReturnsNothing : (zeros 12 16).Inv ∧ (zeros 12 16).ts.count = (zeros 12 16).cfg.cap :=
  ⟨witness_inv_zeros.1, by decide⟩

theorem witness_FetchEndsWithinBudget : demo.cfg.wf = true := by decide

theorem witness_EmissionCannotDisturbReadModifyWrite :
    ∃ t u, exec .teControlRd demo = .next t ∧ t.response = .word 0x05000007 ∧ exec (.emit 1 2) t = .next u ∧
      demo.Inv ∧ demo.te.ctrl.getLsbD 0 = true :=
  ⟨_, _, rfl, rfl, rfl, witness_inv, by decide⟩

theorem witness_MasterResetAgainstConstruction : (0xFFFFFFFE#32).getLsbD 0 = false := by decide

/-- The four sequences, with exactly the turns they need, one to spare for `START`, and none for a budget of 0. -/
theorem witness_CallWithNothingBetweenIsTheOperation :
    demo.Inv ∧ decode (encode .configure) = .ok .configure ∧ decode (encode .start) = .ok .start ∧
    decode (encode .stop) = .ok .stop ∧ decode (encode (.fetch 2)) = .ok (.fetch 2) ∧ decode (encode (.fetch 0)) = .ok (.fetch 0) ∧
    8 ≤ 8 ∧ 3 ≤ 4 ∧ 9 ≤ 9 ∧ 3 * 2 ≤ 6 ∧ 3 * 0 ≤ 0 ∧
    ({ demo with pending := .call (encode .start) :: (List.replicate 4 (.line demo.running.length) ++ [.line 0]) } : State).pending
      = .call (encode .start) :: (List.replicate 4 (.line 0) ++ [.line 0]) := ⟨witness_inv, by decide⟩

/-- The `WP_LOW` read with cursors that differ (`demo`) and that are equal (an empty buffer); the `DATA` read, with and without
budget left. -/
theorem witness_EmissionBetweenLinesOfFetch :
    let f := encode (.emit 1 2)
    (∀ q turns, (driving q turns).Inv) ∧ decode f = .ok (.emit 1 2) ∧
    (driving (.fetch 1 [] .wpLow) [.line 0, .operation f, .line 0]).running[0]? = some (.fetch 1 [] .wpLow) ∧
    cursorWord demo.ts.wp ≠ cursorWord demo.ts.rp ∧
    (interleaved.Inv ∧ cursorWord interleaved.ts.wp = cursorWord interleaved.ts.rp) ∧
    (driving (.fetch 0 [9] .data) [.operation f, .line 0]).running[0]? = some (.fetch 0 [9] .data) ∧
    (driving (.fetch 1 [9] .data) [.operation f, .line 0]).running[0]? = some (.fetch 1 [9] .data) ∧
    4 ≤ demo.ts.count :=
  ⟨witness_inv_driving, by decide, by decide, by decide, ⟨witness_inv_interleaved, by decide⟩, by decide, by decide, by decide⟩

/-- The first line of `START` and of each of the three groups of `STOP`, and the last line of `START`. -/
theorem witness_WriteBetweenReadAndWriteBackIsOverwritten :
    let f := encode (.busWrite 0x10000000 0x05000005)
    let turns := [.line 0, .operation f, .line 0]
    (∀ q turns, (driving q turns).Inv) ∧ (∃ x, runSteps 2 (driving (startSequence cfg16) turns) = .next x) ∧
    (driving (startSequence cfg16) turns).running[0]? = some (.lines (.load (teAddr cfg16 0x000))
      [.update (teAddr cfg16 0x000) .set, .verify (teAddr cfg16 0x000) .set] 0) ∧
    (driving (.lines (.load (tfAddr cfg16 0x000)) [.update (tfAddr cfg16 0x000) .clear] 0) turns).running[0]?
      = some (.lines (.load (tfAddr cfg16 0x000)) [.update (tfAddr cfg16 0x000) .clear] 0) ∧
    (∃ x, runSteps 2 (driving (.lines (.load (tfAddr cfg16 0x000)) [.update (tfAddr cfg16 0x000) .clear] 0) turns) = .next x) ∧
    (∃ x, runSteps 2 (driving (.lines (.load (tsAddr cfg16 0x000)) [.update (tsAddr cfg16 0x000) .clear] 0) turns) = .next x) ∧
    (driving (.lines (.verify (teAddr cfg16 0x000) .set) [] 0x05000005) [.line 0]).running[0]?
      = some (.lines (.verify (teAddr cfg16 0x000) .set) [] 0x05000005) :=
  ⟨witness_inv_driving, ⟨_, rfl⟩, by decide, by decide, ⟨_, rfl⟩, ⟨_, rfl⟩, by decide⟩

end Sys2Proof.Tests
end

section
/-! The control registers. What a write leaves in each field, and why no write leaves a reserved bit or a field above its
maximum (`10_state.md` R26, `41_control_register.md` R76 to R79). -/

namespace Sys2Proof.Machine

/-- A field depends on the bits of its range only. -/
theorem Field.get_congr {f : Field} (hf : FieldInWord f) {v w : Word}
    (h : ∀ i, f.lo ≤ i → i ≤ f.hi → v.getLsbD i = w.getLsbD i) : f.get v = f.get w := by
  obtain ⟨hlo, -⟩ := id hf
  refine Nat.eq_of_testBit_eq fun j => ?_
  rw [Field.get_testBit f hf.width_le, Field.get_testBit f hf.width_le]
  by_cases hj : j < f.width
  · rw [h _ (Nat.le_add_right _ _) (by simp only [Field.width] at hj; omega)]
  · simp [hj]

/-- A field whose range holds the bits of `n` has the value `n`. -/
theorem Field.get_eq_of_bits {f : Field} (hf : FieldInWord f) {w : Word} {n : Nat} (hn : n < 2 ^ f.width)
    (h : ∀ i, f.lo ≤ i → i ≤ f.hi → w.getLsbD i = n.testBit (i - f.lo)) : f.get w = n := by
  obtain ⟨hlo, -⟩ := id hf
  refine Nat.eq_of_testBit_eq fun j => ?_
  rw [Field.get_testBit f hf.width_le]
  by_cases hj : j < f.width
  · rw [h _ (Nat.le_add_right _ _) (by simp only [Field.width] at hj; omega)]
    simp [hj]
  · have : n < 2 ^ j := hn.trans_le (Nat.pow_le_pow_right (by omega) (by omega))
    simp [hj, Nat.testBit_lt_two_pow this]

@[simp] theorem Field.get_zero (f : Field) : f.get 0#32 = 0 := by simp [Field.get]

/-- Every legal maximum of the Encoder fits its field (R78). -/
theorem teFields_max_lt {m : FieldMax} (hm : m.wf = true) {f : Field} (hf : f ∈ (teDesc m).fields) :
    f.fmax < 2 ^ f.width := by
  rw [FieldMax.wf_iff] at hm
  simp only [teDesc, List.mem_cons, List.not_mem_nil, or_false] at hf
  rcases hf with rfl | rfl | rfl | rfl <;>
    simp only [fieldInstMode, fieldInstSyncMode, fieldInstSyncMax, fieldFormat, Field.width] <;> omega

/-- Every legal maximum of the Sink fits its field (R78). -/
theorem tsFields_max_lt {m : FieldMax} (hm : m.wf = true) {f : Field} (hf : f ∈ (tsDesc m).fields) :
    f.fmax < 2 ^ f.width := by
  rw [FieldMax.wf_iff] at hm
  simp only [tsDesc, List.mem_cons, List.not_mem_nil, or_false] at hf
  rcases hf with rfl | rfl <;> simp only [fieldMemFormat, fieldAsyncFreq, Field.width] <;> omega

/-- A field of the Encoder's CONTROL after a write with Active = 1: the value written, saturated (R78). -/
theorem get_ctrlWrite_te {m : FieldMax} (hm : m.wf = true) (old : Word) {v : Word} (hv : v.getLsbD 0 = true) {f : Field}
    (hf : f ∈ (teDesc m).fields) : f.get (ctrlWrite (teDesc m) old v) = min (f.get v) f.fmax := by
  have hw := teFields_inWord hf
  refine Field.get_eq_of_bits hw ((min_le_right _ _).trans_lt (teFields_max_lt hm hf)) fun i hlo hhi => ?_
  rw [ctrlWrite_te_getLsbD m old hv (hhi.trans_lt hw.2)]
  simp only [teDesc, List.mem_cons, List.not_mem_nil, or_false] at hf
  rcases hf with rfl | rfl | rfl | rfl
  · rw [if_pos ⟨hlo, hhi⟩]; rfl
  · have : 16 ≤ i := hlo
    rw [if_neg (by omega), if_pos ⟨hlo, hhi⟩]; rfl
  · have : 20 ≤ i := hlo
    rw [if_neg (by omega), if_neg (by omega), if_pos ⟨hlo, hhi⟩]; rfl
  · have : 24 ≤ i := hlo
    rw [if_neg (by omega), if_neg (by omega), if_neg (by omega), if_pos ⟨hlo, hhi⟩]; rfl

/-- A field of the Sink's CONTROL after `CtrlWrite` with Active = 1: the value written, saturated (R78). -/
theorem get_ctrlWrite_ts {m : FieldMax} (hm : m.wf = true) (old : Word) {v : Word} (hv : v.getLsbD 0 = true) {f : Field}
    (hf : f ∈ (tsDesc m).fields) : f.get (ctrlWrite (tsDesc m) old v) = min (f.get v) f.fmax := by
  have hw := tsFields_inWord hf
  refine Field.get_eq_of_bits hw ((min_le_right _ _).trans_lt (tsFields_max_lt hm hf)) fun i hlo hhi => ?_
  rw [ctrlWrite_ts_getLsbD m old hv (hhi.trans_lt hw.2)]
  simp only [tsDesc, List.mem_cons, List.not_mem_nil, or_false] at hf
  rcases hf with rfl | rfl
  · rw [if_pos ⟨hlo, hhi⟩]; rfl
  · have : 12 ≤ i := hlo
    rw [if_neg (by omega), if_pos ⟨hlo, hhi⟩]; rfl

/-- Whether a word is legal does not depend on bit 3: Empty is not reserved and lies in no WARL-lite field. -/
structure EmptyIsFree (d : Desc) : Prop where
  notReserved : (reservedMask d).getLsbD 3 = false
  inWord : ∀ f ∈ d.fields, FieldInWord f
  outside : ∀ f ∈ d.fields, f.hi < 3 ∨ 3 < f.lo

theorem teDesc_emptyIsFree (m : FieldMax) : EmptyIsFree (teDesc m) where
  notReserved := by rw [reservedMask_te]; decide
  inWord _ := teFields_inWord
  outside := by simp [teDesc, fieldInstMode, fieldInstSyncMode, fieldInstSyncMax, fieldFormat]

theorem tsDesc_emptyIsFree (m : FieldMax) : EmptyIsFree (tsDesc m) where
  notReserved := by rw [reservedMask_ts]; decide
  inWord _ := tsFields_inWord
  outside := by simp [tsDesc, fieldMemFormat, fieldAsyncFreq]

theorem ctrlLegal_zero (d : Desc) : CtrlLegal d 0 := ⟨BitVec.zero_and, by simp⟩

/-- Device logic that sets or clears Empty keeps a register legal. -/
theorem CtrlLegal.setEmpty {d : Desc} (hd : EmptyIsFree d) {w : Word} (h : CtrlLegal d w) (b : Bool) :
    CtrlLegal d (setBit w maskEmpty b) := by
  refine ⟨(word_and_eq_zero_iff _ _).2 fun i hi hr => ?_, fun f hf => ?_⟩
  · have hi3 : i ≠ 3 := by rintro rfl; rw [hd.notReserved] at hr; cases hr
    rw [setBit_empty_ne hi3]
    exact (word_and_eq_zero_iff _ _).1 h.reserved i hi hr
  · have hout := hd.outside f hf
    rw [Field.get_congr (hd.inWord f hf) fun i hlo hhi => setBit_empty_ne (by omega) w b]
    exact h.fields f hf

theorem ctrlLegal_te_deact (m : FieldMax) : CtrlLegal (teDesc m) 0x00000008 :=
  (ctrlLegal_zero _).setEmpty (teDesc_emptyIsFree m) true

theorem ctrlLegal_ts_deact (m : FieldMax) : CtrlLegal (tsDesc m) 0x00000008 :=
  (ctrlLegal_zero _).setEmpty (tsDesc_emptyIsFree m) true

/-- `CtrlWrite` leaves a legal register in the Encoder, whatever stood there (R80). -/
theorem ctrlLegal_ctrlWrite_te {m : FieldMax} (hm : m.wf = true) (old v : Word) :
    CtrlLegal (teDesc m) (ctrlWrite (teDesc m) old v) := by
  cases hv : v.getLsbD 0
  case false => rw [ctrlWrite_inactive rfl hv]; exact ctrlLegal_te_deact m
  refine ⟨(word_and_eq_zero_iff _ _).2 fun i hi hr => ?_, fun f hf => ?_⟩
  · rw [reservedMask_te] at hr
    rw [ctrlWrite_te_getLsbD m old hv hi]
    interval_cases i <;> simp [teBitRw] at hr ⊢
  · rw [get_ctrlWrite_te hm old hv hf]; exact min_le_right _ _

/-- `CtrlWrite` leaves a legal register in the Funnel, whatever stood there (R80). -/
theorem ctrlLegal_ctrlWrite_tf (old v : Word) : CtrlLegal tfDesc (ctrlWrite tfDesc old v) := by
  cases hv : v.getLsbD 0
  case false => rw [ctrlWrite_inactive rfl hv]; exact ctrlLegal_zero _
  refine ⟨(word_and_eq_zero_iff _ _).2 fun i hi hr => ?_, by simp [tfDesc]⟩
  rw [reservedMask_tf] at hr
  rw [ctrlWrite_tf_getLsbD old hv hi]
  interval_cases i <;> simp at hr ⊢

/-- `CtrlWrite` leaves a legal register in the Sink, whatever stood there (R80). -/
theorem ctrlLegal_ctrlWrite_ts {m : FieldMax} (hm : m.wf = true) (old v : Word) :
    CtrlLegal (tsDesc m) (ctrlWrite (tsDesc m) old v) := by
  cases hv : v.getLsbD 0
  case false => rw [ctrlWrite_inactive rfl hv]; exact ctrlLegal_ts_deact m
  refine ⟨(word_and_eq_zero_iff _ _).2 fun i hi hr => ?_, fun f hf => ?_⟩
  · rw [reservedMask_ts] at hr
    rw [ctrlWrite_ts_getLsbD m old hv hi]
    interval_cases i <;> simp [tsBitRw] at hr ⊢
  · rw [get_ctrlWrite_ts hm old hv hf]; exact min_le_right _ _

/-- The Encoder is Active after a write exactly when the value written says so. -/
theorem ctrlWrite_te_active (m : FieldMax) (old v : Word) :
    (ctrlWrite (teDesc m) old v).getLsbD 0 = v.getLsbD 0 := by
  cases hv : v.getLsbD 0
  · rw [ctrlWrite_inactive rfl hv]; simp [teDesc, maskEmpty]
  · rw [ctrlWrite_te_getLsbD m old hv (by decide)]; simp [teBitRw, hv]

/-- The Funnel is Active after a write exactly when the value written says so. -/
theorem ctrlWrite_tf_active (old v : Word) : (ctrlWrite tfDesc old v).getLsbD 0 = v.getLsbD 0 := by
  cases hv : v.getLsbD 0
  · rw [ctrlWrite_inactive rfl hv]; rfl
  · rw [ctrlWrite_tf_getLsbD old hv (by decide)]; simp [hv]

/-- The Sink is Active after a write exactly when the value written says so. -/
theorem ctrlWrite_ts_active (m : FieldMax) (old v : Word) :
    (ctrlWrite (tsDesc m) old v).getLsbD 0 = v.getLsbD 0 := by
  cases hv : v.getLsbD 0
  · rw [ctrlWrite_inactive rfl hv]; simp [tsDesc, maskEmpty]
  · rw [ctrlWrite_ts_getLsbD m old hv (by decide)]; simp [tsBitRw, hv]

/-- No write sets InstStallOrOverflow (R79, R93). -/
theorem ctrlWrite_te_noOverflow (m : FieldMax) {old : Word} (h : old.getLsbD 12 = false) (v : Word) :
    (ctrlWrite (teDesc m) old v).getLsbD 12 = false := by
  cases hv : v.getLsbD 0
  · rw [ctrlWrite_inactive rfl hv]; simp [teDesc, maskEmpty]
  · rw [ctrlWrite_te_getLsbD m old hv (by decide), h]; rfl

/-- No write sets the Funnel's Empty (R102). -/
theorem ctrlWrite_tf_notEmpty {old : Word} (h : old.getLsbD 3 = false) (v : Word) :
    (ctrlWrite tfDesc old v).getLsbD 3 = false := by
  cases hv : v.getLsbD 0
  · rw [ctrlWrite_inactive rfl hv]; rfl
  · rw [ctrlWrite_tf_getLsbD old hv (by decide), h]; rfl

end Sys2Proof.Machine
end

section
/-! The state after construction (`10_state.md` R30) and the device states of `41_control_register.md` R81. -/

namespace Sys2Proof.Machine

/-- A device is Inactive exactly when Active is 0, whatever its gate. -/
theorem deviceStateOf_eq_inactive_iff (active gate : Bool) : deviceStateOf active gate = .inactive ↔ active = false := by
  cases active <;> cases gate <;> decide

theorem teState_eq_inactive_iff (te : Encoder) : teState te = .inactive ↔ te.ctrl.getLsbD 0 = false := by
  rw [teState, deviceStateOf_eq_inactive_iff, bitOn_active]

theorem tfState_eq_inactive_iff (tf : Funnel) : tfState tf = .inactive ↔ tf.ctrl.getLsbD 0 = false := by
  rw [tfState, deviceStateOf_eq_inactive_iff, bitOn_active]

theorem tsState_eq_inactive_iff (ts : Sink) : tsState ts = .inactive ↔ ts.ctrl.getLsbD 0 = false := by
  rw [tsState, deviceStateOf_eq_inactive_iff, bitOn_active]

/-- Settles O8: the registers as constructed, and none of the three has Active set. -/
theorem constructionValues : Obligations.ConstructionValues := by
  intro c
  refine ⟨rfl, rfl, rfl, rfl, Memory.read_nil, rfl, rfl, rfl, rfl, ?_, ?_, ?_⟩
  · exact (teState_eq_inactive_iff _).2 (by decide : (0x00000000#32).getLsbD 0 = false)
  · exact (tfState_eq_inactive_iff _).2 (by decide : (0x00000000#32).getLsbD 0 = false)
  · exact (tsState_eq_inactive_iff _).2 (by decide : (0x00000008#32).getLsbD 0 = false)

end Sys2Proof.Machine
end

section
/-! The invariants. The changes a Sink can undergo keep its part of them, so every `Move` does, so every operation, so every run
from construction (`10_state.md` R26 to R28). -/

namespace Sys2Proof.Machine

/-- An empty cleared Sink satisfies its invariants, whatever it has dropped. -/
theorem Sink.inv_cleared {c : Config} (hc : 1 ≤ c.cap) (n : Nat) : Sink.Inv c (Sink.cleared n) where
  bufWf := rfl
  bufWithin := rfl
  wpLt := hc
  rpLt := hc
  countLe := Nat.zero_le _
  cursors := Nat.zero_mod _
  empty := by rw [bitOn_empty]; simp
  legal := ctrlLegal_ts_deact c.fmax
  rpAligned _ := Nat.dvd_zero _
  inactive _ := rfl

/-- The gate is open only when Active is set. -/
theorem tsGate_active {ts : Sink} (h : tsGate ts = true) : ts.ctrl.getLsbD 0 = true := by
  rw [tsGate, Bool.and_eq_true, bitOn_active] at h; exact h.1

theorem teGate_active {te : Encoder} (h : teGate te = true) : te.ctrl.getLsbD 0 = true := by
  simp only [teGate, Bool.and_eq_true, bitOn_active] at h; exact h.1.1

/-- Empty tracks `count` already, so recomputing it changes nothing (R105). -/
theorem Sink.Inv.recomputeEmpty_eq {c : Config} {ts : Sink} (h : Sink.Inv c ts) : ts.recomputeEmpty = ts := by
  have hbit : ts.ctrl.getLsbD 3 = decide (ts.count = 0) := by
    rw [← bitOn_empty, Bool.eq_iff_iff, decide_eq_true_iff]; exact h.empty
  have hctrl : setBit ts.ctrl maskEmpty (decide (ts.count = 0)) = ts.ctrl := setBit_empty_same hbit
  show { ts with ctrl := setBit ts.ctrl maskEmpty (decide (ts.count = 0)) } = ts
  rw [hctrl]

/-- A push through the open gate keeps the invariants (R104). -/
theorem Sink.Inv.storeAll {c : Config} {ts : Sink} (h : Sink.Inv c ts) (hg : tsGate ts = true) (data : List Byte) :
    Sink.Inv c (ts.storeAll c.cap data) := by
  obtain ⟨hcount, -, hrp, -, hctrl⟩ := Sink.storeAll_fields data h.wpLt h.countLe
  have hring := h.ring.storeAll data
  have hact : (ts.storeAll c.cap data).ctrl.getLsbD 0 = true := by
    rw [hctrl]; split
    · rw [setBit_empty_ne (by decide)]; exact tsGate_active hg
    · exact tsGate_active hg
  exact
    { bufWf := hring.bufWf
      bufWithin := Sink.storeAll_within data h.bufWithin h.wpLt
      wpLt := hring.wpLt
      rpLt := hrp ▸ h.rpLt
      countLe := hring.countLe
      cursors := hring.cursors
      empty := by
        have hold := h.empty
        rw [bitOn_empty] at hold ⊢
        rw [hctrl, hcount]
        split
        · rw [setBit_empty_getLsbD, if_pos rfl]
          simp only [Bool.false_eq_true, false_iff]; omega
        · rw [hold]; omega
      legal := by
        rw [hctrl]; split
        · exact h.legal.setEmpty (tsDesc_emptyIsFree _) false
        · exact h.legal
      rpAligned := hrp ▸ h.rpAligned
      inactive := by rw [bitOn_active, hact]; nofun }

/-- A pop keeps the invariants (R109). -/
theorem Sink.Inv.pop {c : Config} {ts : Sink} (h : Sink.Inv c ts) (hc : 4 ≤ ts.count) : Sink.Inv c (ts.pop c.cap) where
  bufWf := h.bufWf
  bufWithin := h.bufWithin
  wpLt := h.wpLt
  rpLt := Nat.mod_lt _ (Nat.zero_lt_of_lt h.rpLt)
  countLe := (Nat.sub_le _ _).trans h.countLe
  cursors := by
    rw [Sink.pop_rp, Sink.pop_count, Sink.pop_wp, Nat.mod_add_mod, ← h.cursors]
    congr 1; omega
  empty := by rw [bitOn_empty, Sink.pop_ctrl, setBit_empty_getLsbD, if_pos rfl, decide_eq_true_iff, Sink.pop_count]
  legal := h.legal.setEmpty (tsDesc_emptyIsFree _) _
  rpAligned hd := (Nat.dvd_mod_iff hd).2 (Nat.dvd_add (h.rpAligned hd) (Nat.dvd_refl 4))
  inactive ha := by
    rw [bitOn_active, Sink.pop_ctrl, setBit_empty_ne (by decide), ← bitOn_active] at ha
    rw [h.inactive ha] at hc
    exact absurd hc (by simp)

/-- A write of CONTROL with Active = 1 keeps the invariants (R106). -/
theorem Sink.Inv.controlWrite {c : Config} {ts : Sink} (hm : c.fmax.wf = true) (h : Sink.Inv c ts) {v : Word}
    (hv : v.getLsbD 0 = true) : Sink.Inv c
      { ts with ctrl := setBit (ctrlWrite (tsDesc c.fmax) ts.ctrl v) maskEmpty (decide (ts.count = 0)) } where
  bufWf := h.bufWf
  bufWithin := h.bufWithin
  wpLt := h.wpLt
  rpLt := h.rpLt
  countLe := h.countLe
  cursors := h.cursors
  empty := by rw [bitOn_empty, setBit_empty_getLsbD, if_pos rfl, decide_eq_true_iff]
  legal := (ctrlLegal_ctrlWrite_ts hm _ v).setEmpty (tsDesc_emptyIsFree _) _
  rpAligned := h.rpAligned
  inactive := by rw [bitOn_active, setBit_empty_ne (by decide), ctrlWrite_ts_active, hv]; nofun

section
variable {s : State}

/-- A well-formed configuration has room for a byte. -/
theorem State.Inv.cap_pos (h : s.Inv) : 1 ≤ s.cfg.cap := Nat.zero_lt_of_lt h.sink.rpLt

theorem State.Inv.fmax_wf (h : s.Inv) : s.cfg.fmax.wf = true := by
  obtain ⟨-, -, -, -, -, -, -, hm⟩ := (Config.wf_iff _).1 h.cfg; exact hm

/-- A change of the Sink alone keeps the invariants when the new Sink satisfies its own. -/
theorem State.Inv.withSink (h : s.Inv) {ts : Sink} (hts : Sink.Inv s.cfg ts) : State.Inv { s with ts := ts } :=
  { h with sink := hts }

theorem State.Inv.teEmit (h : s.Inv) (hg : teGate s.te = true) : State.Inv { s with te := s.te.setEmpty false } :=
  { h with
    teLegal := h.teLegal.setEmpty (teDesc_emptyIsFree _) false
    teNoOverflow := by
      have hold := h.teNoOverflow
      rw [bitOn_instStallOrOverflow] at hold ⊢
      rwa [Encoder.setEmpty_ctrl, setBit_empty_ne (by decide)]
    teInactive := by
      rw [bitOn_active, Encoder.setEmpty_ctrl, setBit_empty_ne (by decide), teGate_active hg]; nofun }

theorem State.Inv.teWrite (h : s.Inv) (v : Word) : (teControlWrite v s).Inv :=
  { h with
    teLegal := ctrlLegal_ctrlWrite_te h.fmax_wf _ v
    teNoOverflow := by
      have hold := h.teNoOverflow
      rw [bitOn_instStallOrOverflow] at hold ⊢
      exact ctrlWrite_te_noOverflow _ hold v
    teInactive := fun ha => by
      rw [bitOn_active, teControlWrite_te, ctrlWrite_te_active] at ha
      exact .inr (ctrlWrite_inactive rfl ha _) }

theorem State.Inv.tfWrite (h : s.Inv) (v : Word) : (tfControlWrite v s).Inv :=
  { h with
    tfLegal := ctrlLegal_ctrlWrite_tf _ v
    tfNotEmpty := by
      have hold := h.tfNotEmpty
      rw [bitOn_empty] at hold ⊢
      exact ctrlWrite_tf_notEmpty hold v
    tfInactive := fun ha => by
      rw [bitOn_active, tfControlWrite_tf, ctrlWrite_tf_active] at ha
      exact ctrlWrite_inactive rfl ha _ }

theorem State.Inv.tfDisWrite (h : s.Inv) (v : Word) : (tfDisInputWrite v s).Inv := by
  rw [tfDisInputWrite_eq]
  exact { h with tfDis := by rw [BitVec.toNat_and]; exact Nat.and_le_right }

theorem State.Inv.tsWrite (h : s.Inv) (v : Word) : (tsControlWrite v s).Inv := by
  rcases tsControlWrite_cases v s with ⟨_, e⟩ | ⟨hv, e⟩ <;> rw [e]
  · exact h.withSink (Sink.inv_cleared h.cap_pos _)
  · exact h.withSink (h.sink.controlWrite h.fmax_wf hv)

end

/-- Every change that an operation consists of keeps the invariants. -/
theorem Move.keeps_inv {i : Instr} {s t : State} (m : Move i s t) (h : s.Inv) : t.Inv := by
  cases m with
  | report => exact { h with }
  | event => exact { h with }
  | teEmit _ _ hg => exact h.teEmit hg
  | teWrite v => exact h.teWrite v
  | tfWrite v => exact h.tfWrite v
  | tfDis v => exact h.tfDisWrite v
  | tsStore data _ _ hg => exact h.withSink (h.sink.storeAll hg data)
  | tsRecompute => rw [h.sink.recomputeEmpty_eq]; exact h
  | tsPop _ hc => exact h.withSink (h.sink.pop hc)
  | tsWrite v => exact h.tsWrite v

theorem Move.cfg_eq {i : Instr} {s t : State} (m : Move i s t) : t.cfg = s.cfg := by
  cases m with
  | tfDis v => rw [tfDisInputWrite_eq]
  | tsWrite v => exact tsControlWrite_cfg v s
  | _ => rfl

/-- Every operation keeps the invariants. -/
theorem exec_keeps_inv {i : Instr} {s t : State} (h : exec i s = .next t) (hs : s.Inv) : t.Inv :=
  (exec_moves h).keeps (fun _ _ => Move.keeps_inv) hs

/-- No operation writes the configuration (R16). -/
theorem exec_cfg {i : Instr} {s t : State} (h : exec i s = .next t) : t.cfg = s.cfg :=
  (exec_moves h).keeps (P := fun u => u.cfg = s.cfg) (fun _ _ m e => m.cfg_eq.trans e) rfl

/-- What every operation keeps, every run keeps. -/
theorem runOps_keeps {P : State → Prop} (hP : ∀ i s t, exec i s = .next t → P s → P t) :
    ∀ {is : List Instr} {s t : State}, runOps is s = .next t → P s → P t := by
  intro is
  induction is with
  | nil => rintro s t ⟨⟩ hs; exact hs
  | cons i is ih =>
    intro s t h hs
    simp only [runOps] at h
    split at h
    · exact ih h (hP _ _ _ ‹_› hs)
    · cases h
    · cases h

/-- Construction with well-formed parameters satisfies the invariants (R30). -/
theorem State.construct_inv {c : Config} (h : c.wf = true) : (State.construct c).Inv where
  cfg := h
  sink := by
    obtain ⟨-, -, -, -, -, hcap, -, -⟩ := (Config.wf_iff c).1 h
    exact Sink.inv_cleared hcap 0
  teLegal := ctrlLegal_zero _
  teNoOverflow := (by decide : bitOn 0 maskInstStallOrOverflow = false)
  teInactive _ := .inl rfl
  tfLegal := ctrlLegal_zero _
  tfNotEmpty := (by decide : bitOn 0 maskEmpty = false)
  tfInactive _ := rfl
  tfDis := Nat.zero_le _

/-- Every state that a run reaches from construction satisfies the invariants, with the configuration of its construction. -/
theorem reachable_inv {c : Config} (hc : c.wf = true) {is : List Instr} {t : State}
    (h : runOps is (State.construct c) = .next t) : t.Inv ∧ t.cfg = c :=
  runOps_keeps (P := fun s => s.Inv ∧ s.cfg = c)
    (fun _ _ _ hx ⟨hs, e⟩ => ⟨exec_keeps_inv hx hs, (exec_cfg hx).trans e⟩) h ⟨State.construct_inv hc, rfl⟩

/-- The cursors meet exactly in an empty and in a full buffer (R27). -/
theorem ringIndex_eq_self_iff {cap r n : Nat} (hr : r < cap) (hn : n ≤ cap) : (r + n) % cap = r ↔ n = 0 ∨ n = cap := by
  constructor
  · intro h
    by_contra hne
    refine ringIndex_ne (r := r) (i := 0) (j := n) (cap := cap) (by omega) (by omega) ?_
    rw [h, Nat.add_zero, Nat.mod_eq_of_lt hr]
  · rintro (rfl | rfl)
    · exact Nat.mod_eq_of_lt hr
    · rw [Nat.add_mod_right, Nat.mod_eq_of_lt hr]

/-- Settles O11, from the invariants of every reachable state. -/
theorem reachableStatesKeepInvariants : Obligations.ReachableStatesKeepInvariants := by
  intro c is t hc h
  obtain ⟨hinv, rfl⟩ := reachable_inv hc h
  have hte := hinv.teLegal
  have hts := hinv.sink.legal
  refine ⟨rfl, hinv.sink.countLe, hinv.sink.wpLt, hinv.sink.rpLt, ?_, hinv.tfDis, ?_, ?_, ?_,
    hte.fields _ (by simp [teDesc]), hte.fields _ (by simp [teDesc]), hte.fields _ (by simp [teDesc]),
    hte.fields _ (by simp [teDesc]), hts.fields _ (by simp [tsDesc]), hts.fields _ (by simp [tsDesc])⟩
  · rw [← bitOn_empty]; exact hinv.sink.empty
  · rw [← reservedMask_te t.cfg.fmax]; exact hte.reserved
  · rw [← reservedMask_tf]; exact hinv.tfLegal.reserved
  · rw [← reservedMask_ts t.cfg.fmax]; exact hts.reserved

/-- Settles O12, from the invariants of every reachable state. -/
theorem reachableStatesKeepRingLaws : Obligations.ReachableStatesKeepRingLaws := by
  intro c is t hc h
  obtain ⟨hinv, rfl⟩ := reachable_inv hc h
  refine ⟨hinv.sink.cursors, ?_, ?_, ?_⟩
  · rw [← hinv.sink.cursors]; exact ringIndex_eq_self_iff hinv.sink.rpLt hinv.sink.countLe
  · rw [← bitOn_empty]; exact hinv.tfNotEmpty
  · rw [← bitOn_instStallOrOverflow]; exact hinv.teNoOverflow

end Sys2Proof.Machine
end

section
/-! The live bytes of the ring buffer (`10_state.md` R27, `45_sink.md` R113). What each shared operation does to them, then the
conservation law of every operation: the driver sequences but `FETCH` keep them, `FETCH` pops words off their front. -/

namespace Sys2Proof.Machine

/-- A Sink with count 0 has no live bytes. -/
theorem Sink.live_of_count_zero (cap : Nat) {ts : Sink} (h : ts.count = 0) : ts.live cap = [] := by
  rw [Sink.live, h]; rfl

@[simp] theorem State.respond_live (s : State) (r : Response) : (s.respond r).live = s.live := rfl
@[simp] theorem State.logged_live (s : State) (e : LogEvent) : (s.logged e).live = s.live := rfl
@[simp] theorem teControlWrite_live (v : Word) (s : State) : (teControlWrite v s).live = s.live := rfl
@[simp] theorem tfControlWrite_live (v : Word) (s : State) : (tfControlWrite v s).live = s.live := rfl
@[simp] theorem tsControlRead_live (s : State) : (tsControlRead s).2.live = s.live := rfl

@[simp] theorem tfDisInputWrite_live (v : Word) (s : State) : (tfDisInputWrite v s).live = s.live := by
  rw [tfDisInputWrite_eq]; rfl

/-- A write of the Sink's CONTROL keeps the live bytes, unless it is a master reset of a Sink that holds some (R106). -/
theorem tsControlWrite_live {v : Word} {s : State} (h : v.getLsbD 0 = false → s.ts.count = 0) :
    (tsControlWrite v s).live = s.live := by
  rcases tsControlWrite_cases v s with ⟨hv, e⟩ | ⟨-, e⟩ <;> rw [e]
  · exact (Sink.live_of_count_zero _ rfl).trans (Sink.live_of_count_zero _ (h hv)).symm
  · rfl

/-- A push into the Sink appends what it accepts (R104). -/
theorem sinkPush_live {s : State} (h : Ring s.cfg.cap s.ts) (data : List Byte) :
    (sinkPush data s).live = s.live ++ acceptedBySink data s := by
  rcases sinkPush_cases data s with ⟨hg, e⟩ | ⟨hg, e⟩ <;> rw [e, acceptedBySink, hg]
  · exact Sink.live_storeAll data h
  · simp

/-- A push into the Funnel appends what the Sink behind it accepts (R95). -/
theorem funnelPush_live {s : State} (h : Ring s.cfg.cap s.ts) (data : List Byte) :
    (funnelPush data s).live = s.live ++ acceptedByFunnel data s := by
  rcases funnelPush_cases data s with ⟨hg, hd, e⟩ | ⟨hg, hd, e⟩ | ⟨hg, e⟩ <;> rw [e, acceptedByFunnel, hg]
  · rw [decide_eq_true hd]; exact sinkPush_live h data
  · rw [decide_eq_false hd]; simp
  · simp

/-- An emission appends the bytes of its record that are accepted downstream (R88). -/
theorem encoderEmit_live {s : State} (h : Ring s.cfg.cap s.ts) (pc op : Word) :
    (encoderEmit pc op s).live = s.live ++ accepted (.emit pc op) s := by
  rcases encoderEmit_cases pc op s with ⟨hg, e⟩ | ⟨hg, e⟩ <;> rw [e, accepted, hg]
  · exact funnelPush_live (s := { s with te := s.te.setEmpty false }) h _
  · simp

/-- The word a pop returns, as bytes, and what is live after it are what was live before it (R109). -/
theorem Sink.frontWord_append_live_pop {cap : Nat} {ts : Sink} (hr : ts.rp < cap) (hc : 4 ≤ ts.count) :
    le32 (ts.frontWord cap) ++ (ts.pop cap).live cap = ts.live cap := by
  rw [Sink.le32_frontWord hr hc, Sink.live_pop, List.take_append_drop]

/-- A read of DATA moves the word it pops, as bytes, off the front of the live bytes (R109). -/
theorem tsDataRead_live {s : State} (hr : s.ts.rp < s.cfg.cap) :
    (poppedWord s).flatMap le32 ++ (tsDataRead s).2.live = s.live := by
  rcases tsDataRead_cases s with ⟨hc, e⟩ | ⟨hc, e⟩ <;> rw [e, poppedWord]
  · rw [if_pos hc]; rfl
  · rw [if_neg (by omega), List.flatMap_singleton]
    exact Sink.frontWord_append_live_pop hr hc

/-- A device read keeps the live bytes, but for the word that a read of DATA pops. -/
theorem devRead_live {s : State} (hr : s.ts.rp < s.cfg.cap) (d : Device) (off : Nat) :
    (if some (d, off) = some (.sink, offData) then poppedWord s else []).flatMap le32 ++ (devRead d off s).2.live = s.live := by
  split
  · rename_i h
    cases h
    exact tsDataRead_live hr
  · rename_i h
    rcases devRead_cases d off s with e | ⟨_, e⟩ | ⟨_, _, e⟩ | ⟨hd, ho, _⟩
    · rw [e]; rfl
    · rw [e]; rfl
    · rw [e]; rfl
    · rw [hd, ho] at h; exact absurd rfl h

/-- A device write keeps the live bytes, unless it is a master reset of the Sink. -/
theorem devWrite_live {d : Device} {off : Nat} {v : Word} (s : State)
    (h : (d, off) = (.sink, offControl) → v.getLsbD 0 = true) : (devWrite d off v s).live = s.live := by
  rcases devWrite_cases d off v s with ⟨_, _, e⟩ | ⟨_, _, e⟩ | ⟨_, _, e⟩ | ⟨hd, ho, e⟩ | ⟨_, e | ⟨_, e⟩⟩ <;> rw [e]
  · exact teControlWrite_live v s
  · exact tfControlWrite_live v s
  · exact tfDisInputWrite_live v s
  · refine tsControlWrite_live fun hv => ?_
    rw [h (by rw [hd, ho])] at hv; cases hv
  · exact State.logged_live s _

/-- What a word with Enable cleared says of Active: what it said before (R120). -/
theorem enableClear_active (c : Word) : (EnableUpdate.clear.apply c).getLsbD 0 = c.getLsbD 0 := by
  simp [EnableUpdate.apply, maskEnable]

/-- A Sink that is not Active holds nothing. -/
theorem State.Inv.count_of_inactive {s : State} (h : s.Inv) (ha : s.ts.ctrl.getLsbD 0 = false) : s.ts.count = 0 := by
  rw [← bitOn_active] at ha
  rw [h.sink.inactive ha]; rfl

/-- The write-back of STOP to the Sink keeps the live bytes: it is a master reset only of a Sink that is inactive, and that one
holds nothing (R120). -/
theorem stopWriteBack_live {s : State} (h : s.Inv) :
    (tsControlWrite (EnableUpdate.clear.apply (tsControlRead s).1) (tsControlRead s).2).live = s.live := by
  refine tsControlWrite_live fun hv => ?_
  rw [enableClear_active] at hv
  refine h.count_of_inactive ?_
  rwa [tsControlRead, Sink.recomputeEmpty_ctrl, setBit_empty_ne (by decide)] at hv

theorem execStart_live {s t : State} (hs : s.Inv) (h : execStart s = .next t) : t.live = s.live := by
  rw [execStart, startSequence, runAlone_update_te hs.cfg 0] at h
  split at h <;> cases h <;> rfl

theorem execStop_live {s t : State} (hs : s.Inv) (h : execStop s = .next t) : t.live = s.live := by
  rw [execStop, stopSequence, runAlone_update_te hs.cfg 6] at h
  split at h
  case isFalse => cases h; rfl
  replace h := (runAlone_update_tf (s := teControlWrite _ s) hs.cfg 3 .clear _ _).symm.trans h
  split at h
  case isFalse => cases h; rfl
  replace h := (runAlone_update_ts (s := tfControlWrite _ (teControlWrite _ s)) hs.cfg 0 .clear [] _).symm.trans h
  split at h <;> cases h <;> exact stopWriteBack_live ((hs.teWrite _).tfWrite _)

/-- A line that writes, with what follows it. -/
theorem runAlone_write {fuel : Nat} {a v c : Word} {rest : List Line} {s t : State} (h : busStore a v s = some t) :
    runAlone (fuel + 1) (.going (.lines (.write a v) rest c) s) = runAlone fuel (nextLine rest c t) := by
  simp only [runAlone, Sequence.advance, performLine, h]

/-- The lines of CONFIGURE that assert: each reads a CONTROL or DIS_INPUT register, so they keep the live bytes, whether they
all hold or one of them ends the sequence (R118). -/
theorem configure_readBacks_live {s t : State} {c : Config} (hs : s.cfg = c) (hc : c.wf = true)
    {m1 m2 m3 m4 e1 e2 e3 e4 w : Word}
    (h : runAlone 4 (.going (.lines (.readBack (tsAddr c offControl) m1 e1)
      [.readBack (tfAddr c offControl) m2 e2, .readBack (tfAddr c offDisInput) m3 e3,
       .readBack (teAddr c offControl) m4 e4] w) s) = .next t) : t.live = s.live := by
  have hs' : (tsControlRead s).2.cfg = c := hs
  simp only [runAlone, Sequence.advance, performLine, nextLine, busLoad_ts hs hc, busLoad_tf hs' hc, busLoad_dis hs' hc,
    busLoad_te hs' hc, tfControlRead, tfDisInputRead, teControlRead, runAlone_ite] at h
  repeat' split at h
  all_goals cases h; rfl

theorem execConfigure_live {s t : State} (hs : s.Inv) (h : execConfigure s = .next t) : t.live = s.live := by
  rw [execConfigure, configureSequence, runAlone_write (busStore_ts rfl hs.cfg _)] at h
  have hcfg : (tsControlWrite 0x00000003 s).cfg = s.cfg := tsControlWrite_cfg _ s
  have hlive : (tsControlWrite 0x00000003 s).live = s.live := tsControlWrite_live nofun
  rw [← hlive]
  generalize tsControlWrite 0x00000003 s = u at h hcfg ⊢
  replace h := (runAlone_write (fuel := 6) (busStore_tf hcfg hs.cfg _)).symm.trans h
  replace h := (runAlone_write (fuel := 5) (busStore_dis (s := tfControlWrite _ u) hcfg hs.cfg _)).symm.trans h
  replace h := (runAlone_write (fuel := 4)
    (busStore_te (s := tfDisInputWrite _ (tfControlWrite _ u)) hcfg hs.cfg _)).symm.trans h
  have hread := configure_readBacks_live (s := teControlWrite _ (tfDisInputWrite _ (tfControlWrite _ u))) hcfg hs.cfg h
  rw [hread, teControlWrite_live, tfDisInputWrite_live, tfControlWrite_live]

/-- What a FETCH returns and pops: the words it adds to those collected before are, as bytes, the live bytes that it removed,
for as many words as `count` has fallen by fours; any word after them is the 0 of a short read (R109, R121, R130). -/
theorem runAlone_fetch_live (n : Nat) : ∀ {ws : List Word} {s t : State}, s.cfg.wf = true → s.ts.rp < s.cfg.cap →
    runAlone (3 * n) (fetchFrom n ws s) = .next t →
    ∃ new, t.response = .words (ws ++ new) ∧ t.ts.count ≤ s.ts.count ∧
      (new.take ((s.ts.count - t.ts.count) / 4)).flatMap le32 ++ t.live = s.live := by
  induction n with
  | zero => rintro ws s t - - ⟨⟩; exact ⟨[], by simp⟩
  | succ n ih =>
    intro ws s t hc hr h
    rw [runAlone_fetch_succ hc] at h
    split at h
    case isTrue => cases h; exact ⟨[], by simp⟩
    rcases tsDataRead_cases s with ⟨hlt, e⟩ | ⟨hge, e⟩ <;> rw [e] at h
    · obtain ⟨new, hres, hle, hlive⟩ := ih (s := s.logged .shortRead) hc hr h
      rw [State.logged_ts] at hle hlive
      refine ⟨0 :: new, by simpa using hres, hle, ?_⟩
      rw [show (s.ts.count - t.ts.count) / 4 = 0 by omega, List.take_zero] at hlive ⊢
      exact hlive
    · obtain ⟨new, hres, hle, hlive⟩ :=
        ih (s := { s with ts := s.ts.pop s.cfg.cap }) hc (Nat.mod_lt _ (Nat.zero_lt_of_lt hr)) h
      rw [Sink.pop_count] at hle hlive
      refine ⟨s.ts.frontWord s.cfg.cap :: new, by simpa using hres, by omega, ?_⟩
      rw [show (s.ts.count - t.ts.count) / 4 = (s.ts.count - 4 - t.ts.count) / 4 + 1 by omega, List.take_succ_cons,
        List.flatMap_cons, List.append_assoc, hlive]
      exact Sink.frontWord_append_live_pop hr hge

/-- The conservation law of one operation: what it pops, followed by what is live after it, is what was live before it followed
by what it accepts (R27, R113). -/
def ConservesLive (i : Instr) (s t : State) : Prop :=
  (popped i s).flatMap le32 ++ t.live = s.live ++ accepted i s

/-- An operation that pops nothing. -/
theorem ConservesLive.of_append {i : Instr} {s t : State} (hp : popped i s = []) (h : t.live = s.live ++ accepted i s) :
    ConservesLive i s t := by
  rw [ConservesLive, hp, h]; rfl

/-- An operation that accepts nothing. -/
theorem ConservesLive.of_pop {i : Instr} {s t : State} (ha : accepted i s = [])
    (h : (popped i s).flatMap le32 ++ t.live = s.live) : ConservesLive i s t := by
  rw [ConservesLive, h, ha, List.append_nil]

/-- An operation that does neither. -/
theorem ConservesLive.of_live_eq {i : Instr} {s t : State} (hp : popped i s = []) (ha : accepted i s = [])
    (h : t.live = s.live) : ConservesLive i s t :=
  .of_append hp (by rw [h, ha, List.append_nil])

theorem execBusRead_conserves {a : Word} {s t : State} (hs : s.Inv) (h : execBusRead a s = .next t) :
    (popped (.busRead a) s).flatMap le32 ++ t.live = s.live := by
  have hp : popped (.busRead a) s = if resolve s.cfg a = some (.sink, offData) then poppedWord s else [] := rfl
  rw [hp]
  unfold execBusRead at h
  rcases hres : resolve s.cfg a with _ | ⟨d, off⟩ <;> rw [hres] at h <;> cases h
  · rfl
  · exact devRead_live hs.sink.rpLt d off

theorem execBusWrite_live {a v : Word} {s t : State} (hr : resetsSink (.busWrite a v) s = false)
    (h : execBusWrite a v s = .next t) : t.live = s.live := by
  unfold execBusWrite at h
  rcases hres : resolve s.cfg a with _ | ⟨d, off⟩ <;> rw [hres] at h <;> cases h
  · rfl
  · refine devWrite_live s fun hp => ?_
    rw [resetsSink, hres, hp, decide_eq_true rfl, Bool.true_and, decide_eq_false_iff_not, and_active_eq_zero] at hr
    simpa using hr

theorem execFetch_conserves {n : Nat} {s t : State} (hs : s.Inv) (h : execFetch n s = .next t) :
    (popped (.fetch n) s).flatMap le32 ++ t.live = s.live := by
  obtain ⟨new, hres, -, hlive⟩ := runAlone_fetch_live n hs.cfg hs.sink.rpLt h
  have hexec : exec (.fetch n) s = .next t := h
  have hpop : popped (.fetch n) s = new.take ((s.ts.count - t.ts.count) / 4) := by
    simp only [popped, hexec, hres, List.nil_append]
  rw [hpop, hlive]

/-- Every operation but a master reset of the Sink conserves the live bytes: pushes append what they accept, reads of DATA pop
off the front, and everything else keeps them. -/
theorem exec_conservesLive {i : Instr} {s t : State} (hs : s.Inv) (hr : resetsSink i s = false) (h : exec i s = .next t) :
    ConservesLive i s t := by
  have hring := hs.sink.ring
  cases i with
  | busRead a => exact .of_pop rfl (execBusRead_conserves hs h)
  | busWrite a v => exact .of_live_eq rfl rfl (execBusWrite_live hr h)
  | busRangeError d a =>
    refine .of_live_eq rfl rfl ?_
    simp only [exec, execBusRangeError] at h
    split at h
    · cases h; rfl
    · cases h
  | tsControlWr v =>
    cases h
    refine .of_live_eq rfl rfl (tsControlWrite_live fun hv => ?_)
    rw [resetsSink, decide_eq_false_iff_not, and_active_eq_zero] at hr
    exact absurd hv hr
  | tfDisInputWr v => cases h; exact .of_live_eq rfl rfl (tfDisInputWrite_live v s)
  | tsDataRd => cases h; exact .of_pop rfl (tsDataRead_live hs.sink.rpLt)
  | emit pc op => cases h; exact .of_append rfl (encoderEmit_live hring pc op)
  | tfPush data => cases h; exact .of_append rfl (funnelPush_live hring data)
  | tsPush data => cases h; exact .of_append rfl (sinkPush_live hring data)
  | configure => exact .of_live_eq rfl rfl (execConfigure_live hs h)
  | start => exact .of_live_eq rfl rfl (execStart_live hs h)
  | stop => exact .of_live_eq rfl rfl (execStop_live hs h)
  | fetch n => exact .of_pop rfl (execFetch_conserves hs h)
  | _ => cases h; exact .of_live_eq rfl rfl rfl

/-- Settles O41: the conservation law of every operation. -/
theorem operationConservesLiveBytes : Obligations.OperationConservesLiveBytes :=
  fun _ _ _ hs hr h => exec_conservesLive hs hr h

end Sys2Proof.Machine
end

section
/-! Memory (`20_memory.md`). Address resolution as containment (R34), the cursor registers as numbers (R42), the alignment of the
ring buffer in the wired system (R43), and the byte order of a word through the ring buffer (R40). -/

namespace Sys2Proof.Machine

theorem contains_iff (m : Mapping) (a : Word) : contains m a = true ↔ m.base ≤ a.toNat ∧ a.toNat - m.base < m.size := by
  rw [contains, Bool.and_eq_true, decide_eq_true_iff, decide_eq_true_iff]

/-- An address resolves to nothing exactly when no entry contains it, whatever the table. -/
theorem resolveIn_eq_none_iff (ms : List Mapping) (a : Word) : resolveIn ms a = none ↔ ∀ m ∈ ms, ¬ contains m a = true := by
  induction ms with
  | nil => simp [resolveIn]
  | cons m ms ih =>
    rw [resolveIn, List.forall_mem_cons]
    by_cases hm : contains m a = true
    · simp [hm]
    · rw [if_neg hm, ih, and_iff_right hm]

/-- The entries of a well-formed map are disjoint, so the first containing entry is the only one (R33, R69). -/
theorem resolve_of_mem {c : Config} (hc : c.wf = true) {a : Word} {m : Mapping} (hm : m ∈ c.table) (hlo : m.base ≤ a.toNat)
    (hhi : a.toNat - m.base < m.size) : resolve c a = some (m.dev, a.toNat - m.base) := by
  obtain ⟨-, -, hteTf, hteTs, htfTs, -⟩ := (Config.wf_iff c).1 hc
  simp only [Config.table, List.mem_cons, List.not_mem_nil, or_false] at hm
  rw [resolve_eq]
  rcases hm with rfl | rfl | rfl <;> dsimp only at hlo hhi
  · rw [if_pos ⟨hlo, hhi⟩]
  · rw [if_neg (by omega), if_pos ⟨hlo, hhi⟩]
  · rw [if_neg (by omega), if_neg (by omega), if_pos ⟨hlo, hhi⟩]

/-- Settles O15: containment picks the entry, and no other entry can stand before it. -/
theorem resolutionIsContainment : Obligations.ResolutionIsContainment := by
  intro c a hc
  refine ⟨fun m hm hlo hhi => resolve_of_mem hc hm hlo hhi, ?_⟩
  simp only [← contains_iff]
  exact resolveIn_eq_none_iff c.table a

/-- Clearing the low two bits is a shift down and back up (R57). -/
theorem and_ptrMask_eq_shift (w : Word) : w &&& ptrMask = (w >>> 2) <<< 2 := by
  refine word_ext fun i hi => ?_
  rw [BitVec.getLsbD_and, BitVec.getLsbD_shiftLeft, BitVec.getLsbD_ushiftRight]
  interval_cases i <;> simp [ptrMask]

/-- A cursor register returns its cursor rounded down to a multiple of 4 (R42). -/
theorem cursorWord_toNat {n : Nat} (hn : n < 2 ^ 32) : (cursorWord n).toNat = n - n % 4 := by
  rw [cursorWord, and_ptrMask_eq_shift, BitVec.toNat_shiftLeft, BitVec.toNat_ushiftRight, BitVec.toNat_ofNat,
    Nat.mod_eq_of_lt hn, Nat.shiftRight_eq_div_pow, Nat.shiftLeft_eq]
  omega

/-- An aligned cursor is returned exactly (R43). -/
theorem cursorWord_toNat_of_dvd {n : Nat} (hn : n < 2 ^ 32) (hd : 4 ∣ n) : (cursorWord n).toNat = n := by
  rw [cursorWord_toNat hn, Nat.mod_eq_zero_of_dvd hd, Nat.sub_zero]

theorem State.Inv.cap_le {s : State} (h : s.Inv) : s.cfg.cap ≤ 2 ^ 32 := by
  obtain ⟨-, -, -, -, -, -, hcap, -⟩ := (Config.wf_iff _).1 h.cfg; exact hcap

theorem State.Inv.wp_lt_word {s : State} (h : s.Inv) : s.ts.wp < 2 ^ 32 := h.sink.wpLt.trans_le h.cap_le

theorem State.Inv.rp_lt_word {s : State} (h : s.Inv) : s.ts.rp < 2 ^ 32 := h.sink.rpLt.trans_le h.cap_le

/-- Settles O34: the cursors fit a word, and the invariant keeps the read cursor aligned when 4 divides CAP. -/
theorem cursorRegistersRoundDown : Obligations.CursorRegistersRoundDown := fun _ hs =>
  ⟨⟨_, rfl, cursorWord_toNat hs.wp_lt_word⟩,
   ⟨_, rfl, cursorWord_toNat hs.rp_lt_word, fun hd => cursorWord_toNat_of_dvd hs.rp_lt_word (hs.sink.rpAligned hd)⟩⟩

/-- What every operation of a run keeps, the run keeps. -/
theorem runOps_keeps_of_mem {P : State → Prop} : ∀ {is : List Instr} {s t : State},
    (∀ i ∈ is, ∀ s t, exec i s = .next t → P s → P t) → runOps is s = .next t → P s → P t := by
  intro is
  induction is with
  | nil => rintro s t - ⟨⟩ hs; exact hs
  | cons i is ih =>
    intro s t hP h hs
    obtain ⟨hi, his⟩ := List.forall_mem_cons.1 hP
    simp only [runOps] at h
    split at h
    · exact ih his h (hi _ _ ‹_› hs)
    · cases h
    · cases h

/-- What the wired system keeps when 4 divides CAP: whole words are live (R43). -/
structure WordAligned (s : State) : Prop where
  inv : s.Inv
  cap : 4 ∣ s.cfg.cap
  count : 4 ∣ s.ts.count

/-- The only bytes offered to the link in the wired system are trace records, of two words each (R86). -/
theorem four_dvd_offered {i : Instr} (hi : wiredOperation i = true) {data : List Byte} (hd : offeredBytes i = some data) :
    4 ∣ data.length := by
  cases i with
  | emit pc op => cases hd; rw [traceRecord_length]; decide
  | tfPush _ => cases hi
  | tsPush _ => cases hi
  | _ => cases hd

/-- A push of whole words into an aligned buffer stores whole words: an overflow cuts it at CAP, which is aligned too. -/
theorem four_dvd_count_storeAll {cap : Nat} {ts : Sink} {data : List Byte} (hring : Ring cap ts) (hcap : 4 ∣ cap)
    (hcount : 4 ∣ ts.count) (hd : 4 ∣ data.length) : 4 ∣ (ts.storeAll cap data).count := by
  obtain ⟨hstored, -⟩ := Sink.storeAll_fields data hring.wpLt hring.countLe
  have := hring.countLe
  omega

/-- A write of CONTROL keeps the count, or a master reset makes it 0 (R106). -/
theorem tsControlWrite_count (v : Word) (s : State) :
    (tsControlWrite v s).ts.count = 0 ∨ (tsControlWrite v s).ts.count = s.ts.count := by
  rcases tsControlWrite_cases v s with ⟨-, e⟩ | ⟨-, e⟩ <;> rw [e]
  · exact .inl rfl
  · exact .inr rfl

/-- Every change that an operation of the wired system consists of keeps the live bytes whole words. -/
theorem Move.keeps_wordAligned {i : Instr} (hi : wiredOperation i = true) {s t : State} (m : Move i s t) (h : WordAligned s) :
    WordAligned t := by
  refine ⟨m.keeps_inv h.inv, m.cfg_eq ▸ h.cap, ?_⟩
  cases m with
  | tfDis v => rw [tfDisInputWrite_eq]; exact h.count
  | tsStore data _ hd _ => exact four_dvd_count_storeAll h.inv.sink.ring h.cap h.count (four_dvd_offered hi hd)
  | tsPop _ _ => exact Nat.dvd_sub h.count (Nat.dvd_refl 4)
  | tsWrite v =>
    rcases tsControlWrite_count v s with e | e <;> rw [e]
    · exact Nat.dvd_zero 4
    · exact h.count
  | _ => exact h.count

/-- A run without direct pushes keeps the live bytes whole words. -/
theorem runOps_keeps_wordAligned {is : List Instr} (his : ∀ i ∈ is, wiredOperation i = true) {s t : State}
    (h : runOps is s = .next t) (hs : WordAligned s) : WordAligned t :=
  runOps_keeps_of_mem (fun i hi _ _ hx => (exec_moves hx).keeps fun _ _ m => m.keeps_wordAligned (his i hi)) h hs

/-- The read cursor is aligned by the invariants. -/
theorem WordAligned.rp {s : State} (h : WordAligned s) : 4 ∣ s.ts.rp := h.inv.sink.rpAligned h.cap

/-- The write cursor follows the read cursor and the count around an aligned ring (R27). -/
theorem WordAligned.wp {s : State} (h : WordAligned s) : 4 ∣ s.ts.wp := by
  rw [← h.inv.sink.cursors]
  exact (Nat.dvd_mod_iff h.cap).2 (Nat.dvd_add h.rp h.count)

/-- Settles O13, by the invariant `WordAligned` along the run from construction. -/
theorem wiredSystemKeepsCursorsAligned : Obligations.WiredSystemKeepsCursorsAligned := by
  intro c is t hc hcap his h
  have ht : WordAligned t := runOps_keeps_wordAligned his h ⟨State.construct_inv hc, hcap, Nat.dvd_zero 4⟩
  exact ⟨ht.rp, ht.wp, ht.count, cursorWord_toNat_of_dvd ht.inv.wp_lt_word ht.wp,
    cursorWord_toNat_of_dvd ht.inv.rp_lt_word ht.rp⟩

/-- A word is determined by its four bytes (R39). -/
theorem le32_injective : Function.Injective le32 := by
  intro v w h
  simp only [le32, List.cons.injEq, and_true] at h
  obtain ⟨h0, h1, h2, h3⟩ := h
  rw [← le32inv_extract v, h0, h1, h2, h3, le32inv_extract]

/-- The Sink's gate is open when Active and Enable are set (R103). -/
theorem tsGate_of_bits {ts : Sink} (ha : ts.ctrl.getLsbD 0 = true) (he : ts.ctrl.getLsbD 1 = true) : tsGate ts = true := by
  rw [tsGate, bitOn_active, bitOn_enable, ha, he]; rfl

/-- After a word is pushed into an open and empty Sink, its bytes are all that is live. -/
theorem sinkPush_word_live {s : State} (hs : s.Inv) (hg : tsGate s.ts = true) (hcount : s.ts.count = 0) (hcap : 4 ≤ s.cfg.cap)
    (w : Word) : (sinkPush (le32 w) s).live = le32 w := by
  rw [sinkPush_live hs.sink.ring, acceptedBySink, if_pos hg, hcount, Nat.sub_zero, List.take_of_length_le hcap, State.live,
    Sink.live_of_count_zero _ hcount, List.nil_append]

/-- When a word's four bytes are all that is live, a read of DATA pops that word and nothing is left (R109). -/
theorem tsDataRead_of_live {s : State} (hr : s.ts.rp < s.cfg.cap) {w : Word} (hl : s.live = le32 w) :
    (tsDataRead s).1 = w ∧ (tsDataRead s).2.ts.count = 0 := by
  have hcount : s.ts.count = 4 := by rw [← Sink.live_length s.cfg.cap, ← State.live, hl, le32_length]
  rcases tsDataRead_cases s with ⟨hlt, -⟩ | ⟨hge, e⟩
  · omega
  · rw [e]
    refine ⟨le32_injective ?_, by rw [Sink.pop_count, hcount]⟩
    rw [Sink.le32_frontWord hr hge, ← State.live, hl]
    rfl

/-- Settles O43: the pushed bytes are the live bytes, and the read pops the word they are. -/
theorem pushedWordIsPoppedUnchanged : Obligations.PushedWordIsPoppedUnchanged := by
  intro s w hs ha he hcount hcap
  have hpush : exec (.tsPush (le32 w)) s = .next ((sinkPush (le32 w) s).respond .done) := rfl
  have hlive : ((sinkPush (le32 w) s).respond .done).live = le32 w :=
    sinkPush_word_live hs (tsGate_of_bits ha he) hcount hcap w
  obtain ⟨hword, hempty⟩ := tsDataRead_of_live (exec_keeps_inv hpush hs).sink.rpLt hlive
  exact ⟨_, _, hpush, rfl, congrArg Response.word hword, hempty⟩

end Sys2Proof.Machine
end

section
/-! The bus (`40_bus.md`). A bus operation at a mapped address is the device mux, reported to its agent; the mux is then
compared with the tables of R70 and R71 row by row. -/

namespace Sys2Proof.Machine

section
variable {s : State} {d : Device} {off : Nat}

/-- A bus read of a mapped address completes with the word of the device mux (R67). -/
theorem exec_busRead_of_resolve {a : Word} (h : resolve s.cfg a = some (d, off)) :
    exec (.busRead a) s = endWord (devRead d off s) := by
  rw [show exec (.busRead a) s = execBusRead a s from rfl, execBusRead, h]

/-- A bus write of a mapped address completes normally in the state of the device mux (R68). -/
theorem exec_busWrite_of_resolve {a : Word} (v : Word) (h : resolve s.cfg a = some (d, off)) :
    exec (.busWrite a v) s = endDone (devWrite d off v s) := by
  rw [show exec (.busWrite a v) s = execBusWrite a v s from rfl, execBusWrite, h]

theorem notMem_registerOffsets_encoder (hc : off ≠ 0x000) : off ∉ registerOffsets .encoder := by
  simp [registerOffsets, offControl, hc]

theorem notMem_registerOffsets_funnel (hc : off ≠ 0x000) (hd : off ≠ 0x008) : off ∉ registerOffsets .funnel := by
  simp [registerOffsets, offControl, offDisInput, hc, hd]

theorem notMem_registerOffsets_sink (hc : off ≠ 0x000) (hw : off ≠ 0x020) (hr : off ≠ 0x028) (hd : off ≠ 0x040) :
    off ∉ registerOffsets .sink := by
  simp [registerOffsets, offControl, offWpLow, offRpLow, offData, hc, hw, hr, hd]

/-- Where a device has no register, the mux performs its invalid read (R70, R127). -/
theorem devRead_of_notMem (h : off ∉ registerOffsets d) : devRead d off s = invalidRead d s := by
  cases d with
  | encoder =>
    rw [registerOffsets, List.mem_singleton] at h
    exact if_neg h
  | funnel =>
    simp only [registerOffsets, List.mem_pair, not_or] at h
    simp only [devRead, h, if_false]
  | sink =>
    simp only [registerOffsets, List.mem_cons, List.not_mem_nil, or_false, not_or] at h
    simp only [devRead, h, if_false]

/-- Where a device has no register, the mux performs its invalid write (R71, R127). -/
theorem devWrite_of_notMem (v : Word) (h : off ∉ registerOffsets d) : devWrite d off v s = invalidWrite d s := by
  cases d with
  | encoder =>
    rw [registerOffsets, List.mem_singleton] at h
    exact if_neg h
  | funnel =>
    simp only [registerOffsets, List.mem_pair, not_or] at h
    simp only [devWrite, h, if_false]
  | sink =>
    simp only [registerOffsets, List.mem_cons, List.not_mem_nil, or_false, not_or] at h
    simp only [devWrite, h, if_false]

end

/-- Settles O18: the bus read is the mux (R67). A row without a register is the invalid read of its device; at a register the mux
is the row's operation by definition. -/
theorem busReadPerformsTableRow : Obligations.BusReadPerformsTableRow := by
  intro s a d off h
  refine ⟨_, _, exec_busRead_of_resolve h, rfl, ?_⟩
  split
  case h_2 hc =>
    rw [devRead_of_notMem (notMem_registerOffsets_encoder hc)]; rfl
  case h_5 hc hd =>
    rw [devRead_of_notMem (notMem_registerOffsets_funnel hc hd)]; rfl
  case h_10 hc hw hr hd =>
    rw [devRead_of_notMem (notMem_registerOffsets_sink hc hw hr hd)]; rfl
  all_goals rfl

/-- Settles O19, as O18: the bus write is the mux (R68). -/
theorem busWritePerformsTableRow : Obligations.BusWritePerformsTableRow := by
  intro s a v d off h
  refine ⟨_, exec_busWrite_of_resolve v h, rfl, ?_⟩
  split
  case h_2 hc =>
    rw [devWrite_of_notMem v (notMem_registerOffsets_encoder hc)]; rfl
  case h_5 hc hd =>
    rw [devWrite_of_notMem v (notMem_registerOffsets_funnel hc hd)]; rfl
  case h_10 hc hw hr hd =>
    rw [devWrite_of_notMem v (notMem_registerOffsets_sink hc hw hr hd)]; rfl
  all_goals rfl

end Sys2Proof.Machine
end

section
/-! What `CtrlWrite` does under any descriptor whose masks and fields fit together, and the laws of `41_control_register.md` R78 to
R80 for it; the three descriptors of the block are of that kind. -/

namespace Sys2Proof.Machine

/-- The bit lies in no WARL-lite field. -/
def OutsideFields (fs : List Field) (i : Nat) : Prop := ∀ f ∈ fs, ¬ (f.lo ≤ i ∧ i ≤ f.hi)

theorem not_outsideFields_iff (fs : List Field) (i : Nat) :
    ¬ OutsideFields fs i ↔ ∃ f ∈ fs, f.lo ≤ i ∧ i ≤ f.hi := by
  simp only [OutsideFields, not_forall, not_not, exists_prop]

/-- The clamp loop of R75 leaves the bits outside the fields as they are. -/
theorem foldl_clampField_getLsbD {fs : List Field} (hw : ∀ f ∈ fs, FieldInWord f) {i : Nat} (ho : OutsideFields fs i)
    (v acc : Word) : (fs.foldl (clampField v) acc).getLsbD i = acc.getLsbD i := by
  induction fs generalizing acc with
  | nil => rfl
  | cons f fs ih =>
    rw [List.foldl_cons, ih (fun g hg => hw g (.tail _ hg)) (fun g hg => ho g (.tail _ hg)),
      clampField_getLsbD (hw f (.head _)), if_neg (ho f (.head _))]

/-- Words with one value in a field agree on the bits of the field. -/
theorem Field.getLsbD_eq_of_get_eq {f : Field} (hf : FieldInWord f) {v w : Word} (h : f.get v = f.get w) {i : Nat}
    (hi : f.lo ≤ i ∧ i ≤ f.hi) : v.getLsbD i = w.getLsbD i := by
  have hbit := congrArg (fun n => n.testBit (i - f.lo)) h
  have hlt : i - f.lo < f.width := by simp only [Field.width]; omega
  simpa [Field.get_testBit f hf.width_le, hlt, Nat.add_sub_cancel' hi.1] using hbit

/-- A descriptor whose parts fit together (R74, R78): no bit is in two categories, the fields are cut out of the RW bits, and what
a write leaves in the register is legal. -/
structure DescFits (d : Desc) : Prop where
  active : d.active = maskActive
  rwDisjoint : d.rwMask &&& (d.roMask ||| d.w1cMask) = 0
  roDisjoint : d.roMask &&& d.w1cMask = 0
  inWord : ∀ f ∈ d.fields, FieldInWord f
  fieldsRw : ∀ f ∈ d.fields, ∀ i, f.lo ≤ i ∧ i ≤ f.hi → d.rwMask.getLsbD i = true
  writeActive : ∀ old v, (ctrlWrite d old v).getLsbD 0 = v.getLsbD 0
  writeLegal : ∀ old v, CtrlLegal d (ctrlWrite d old v)
  writeGet : ∀ old v, v.getLsbD 0 = true → ∀ f ∈ d.fields, f.get (ctrlWrite d old v) = min (f.get v) f.fmax

theorem descFits_te {m : FieldMax} (hm : m.wf = true) : DescFits (teDesc m) where
  active := rfl
  rwDisjoint := by simp [teDesc, maskEmpty, maskInstStallOrOverflow]
  roDisjoint := by simp [teDesc, maskEmpty, maskInstStallOrOverflow]
  inWord _ := teFields_inWord
  fieldsRw := by
    simp only [teDesc, List.forall_mem_cons, fieldInstMode, fieldInstSyncMode, fieldInstSyncMax, fieldFormat]
    refine ⟨?_, ?_, ?_, ?_, nofun⟩ <;> (rintro i ⟨hlo, hhi⟩; interval_cases i <;> rfl)
  writeActive := ctrlWrite_te_active m
  writeLegal := ctrlLegal_ctrlWrite_te hm
  writeGet old _ hv _ := get_ctrlWrite_te hm old hv

theorem descFits_tf : DescFits tfDesc where
  active := rfl
  rwDisjoint := rfl
  roDisjoint := rfl
  inWord := nofun
  fieldsRw := nofun
  writeActive := ctrlWrite_tf_active
  writeLegal := ctrlLegal_ctrlWrite_tf
  writeGet _ _ _ := nofun

theorem descFits_ts {m : FieldMax} (hm : m.wf = true) : DescFits (tsDesc m) where
  active := rfl
  rwDisjoint := by simp [tsDesc, maskEmpty]
  roDisjoint := by simp [tsDesc, maskEmpty]
  inWord _ := tsFields_inWord
  fieldsRw := by
    simp only [tsDesc, List.forall_mem_cons, fieldMemFormat, fieldAsyncFreq]
    refine ⟨?_, ?_, nofun⟩ <;> (rintro i ⟨hlo, hhi⟩; interval_cases i <;> rfl)
  writeActive := ctrlWrite_ts_active m
  writeLegal := ctrlLegal_ctrlWrite_ts hm
  writeGet old _ hv _ := get_ctrlWrite_ts hm old hv

theorem descFits_of_mem {m : FieldMax} (hm : m.wf = true) {d : Desc} (hd : d ∈ [teDesc m, tfDesc, tsDesc m]) : DescFits d := by
  simp only [List.mem_cons, List.not_mem_nil, or_false] at hd
  obtain rfl | rfl | rfl := hd
  · exact descFits_te hm
  · exact descFits_tf
  · exact descFits_ts hm

namespace DescFits

variable {d : Desc} (hd : DescFits d)
include hd

theorem not_ro_of_rw {i : Nat} (hi : i < 32) (hrw : d.rwMask.getLsbD i = true) : d.roMask.getLsbD i = false := by
  have := congrArg (fun x => x.getLsbD i) hd.rwDisjoint
  simp_all

theorem not_w1c_of_rw {i : Nat} (hi : i < 32) (hrw : d.rwMask.getLsbD i = true) : d.w1cMask.getLsbD i = false := by
  have := congrArg (fun x => x.getLsbD i) hd.rwDisjoint
  simp_all

theorem not_w1c_of_ro {i : Nat} (hi : i < 32) (hro : d.roMask.getLsbD i = true) : d.w1cMask.getLsbD i = false := by
  have := congrArg (fun x => x.getLsbD i) hd.roDisjoint
  simp_all

theorem outsideFields_of_not_rw {i : Nat} (hrw : d.rwMask.getLsbD i = false) : OutsideFields d.fields i := by
  intro f hf hi
  rw [hd.fieldsRw f hf i hi] at hrw
  cases hrw

/-- A bit outside the fields after a write with Active = 1: RO kept, RW taken, write 1 to clear (R77, R79). -/
theorem ctrlWrite_getLsbD {i : Nat} (hi : i < 32) (ho : OutsideFields d.fields i) (old : Word) {v : Word}
    (hv : v.getLsbD 0 = true) :
    (ctrlWrite d old v).getLsbD i =
      ((old.getLsbD i && (d.roMask.getLsbD i || d.w1cMask.getLsbD i) || v.getLsbD i && d.rwMask.getLsbD i) &&
        !(v.getLsbD i && d.w1cMask.getLsbD i)) := by
  rw [ctrlWrite_active hd.active hv]
  simp only [BitVec.getLsbD_and, BitVec.getLsbD_or, BitVec.getLsbD_not, foldl_clampField_getLsbD hd.inWord ho, hi,
    decide_true, Bool.true_and]

/-- Two words are equal if they have the same field values and the same bits outside the fields. -/
theorem word_eq {v w : Word} (hget : ∀ f ∈ d.fields, f.get v = f.get w)
    (hbit : ∀ i, i < 32 → OutsideFields d.fields i → v.getLsbD i = w.getLsbD i) : v = w := by
  refine word_ext fun i hi => ?_
  by_cases ho : OutsideFields d.fields i
  · exact hbit i hi ho
  · obtain ⟨f, hf, hfi⟩ := (not_outsideFields_iff _ _).1 ho
    exact Field.getLsbD_eq_of_get_eq (hd.inWord f hf) (hget f hf) hfi

/-- R80 (4): a write with Active = 1 keeps the RO bits. -/
theorem ctrlWrite_and_ro (old : Word) {v : Word} (hv : v.getLsbD 0 = true) :
    ctrlWrite d old v &&& d.roMask = old &&& d.roMask := by
  refine word_ext fun i hi => ?_
  rw [BitVec.getLsbD_and, BitVec.getLsbD_and]
  cases hro : d.roMask.getLsbD i
  · simp
  · have hrw : d.rwMask.getLsbD i = false :=
      Bool.eq_false_iff.2 fun h => by simp [hd.not_ro_of_rw hi h] at hro
    rw [hd.ctrlWrite_getLsbD hi (hd.outsideFields_of_not_rw hrw) old hv]
    simp [hro, hrw, hd.not_w1c_of_ro hi hro]

/-- R80 (5): where no field of the written word is above its maximum, the RW bits end as written. -/
theorem ctrlWrite_and_rw (old : Word) {v : Word} (hv : v.getLsbD 0 = true) (hmax : ∀ f ∈ d.fields, f.get v ≤ f.fmax) :
    ctrlWrite d old v &&& d.rwMask = v &&& d.rwMask := by
  refine word_ext fun i hi => ?_
  rw [BitVec.getLsbD_and, BitVec.getLsbD_and]
  by_cases ho : OutsideFields d.fields i
  · rw [hd.ctrlWrite_getLsbD hi ho old hv]
    cases hrw : d.rwMask.getLsbD i
    · simp
    · simp [hd.not_ro_of_rw hi hrw, hd.not_w1c_of_rw hi hrw]
  · obtain ⟨f, hf, hfi⟩ := (not_outsideFields_iff _ _).1 ho
    have hget : f.get (ctrlWrite d old v) = f.get v := by rw [hd.writeGet old v hv f hf, min_eq_left (hmax f hf)]
    rw [Field.getLsbD_eq_of_get_eq (hd.inWord f hf) hget hfi]

/-- A legal word with Active = 1 that agrees with the register on the RO bits, while both have every RW1C bit clear, is stored as
it is. -/
theorem ctrlWrite_eq_value {old v : Word} (hlegal : CtrlLegal d v) (hv : v.getLsbD 0 = true)
    (hro : ∀ i, d.roMask.getLsbD i = true → old.getLsbD i = v.getLsbD i)
    (hold : old &&& d.w1cMask = 0) (hw1c : v &&& d.w1cMask = 0) : ctrlWrite d old v = v := by
  refine hd.word_eq (fun f hf => ?_) fun i hi ho => ?_
  · rw [hd.writeGet old v hv f hf, min_eq_left (hlegal.fields f hf)]
  · rw [hd.ctrlWrite_getLsbD hi ho old hv]
    have hroi := hro i
    have holdi := (word_and_eq_zero_iff _ _).1 hold i hi
    have hw1ci := (word_and_eq_zero_iff _ _).1 hw1c i hi
    have hres := (word_and_eq_zero_iff _ _).1 hlegal.reserved i hi
    have hmask : (reservedMask d).getLsbD i =
        !(d.rwMask.getLsbD i || d.roMask.getLsbD i || d.w1cMask.getLsbD i) := by simp [reservedMask, hi]
    rw [hmask] at hres
    cases hw : d.w1cMask.getLsbD i
    case true => simp [holdi hw, hw1ci hw]
    cases hr : d.roMask.getLsbD i
    case true => simp +contextual [hroi hr]
    cases hrw : d.rwMask.getLsbD i
    case true => simp
    case false => simp [hres (by simp [hw, hr, hrw])]

/-- R80 (7): a repeated write changes nothing. -/
theorem ctrlWrite_ctrlWrite (old v : Word) : ctrlWrite d (ctrlWrite d old v) v = ctrlWrite d old v := by
  cases hv : v.getLsbD 0
  · rw [ctrlWrite_inactive hd.active hv, ctrlWrite_inactive hd.active hv]
  · refine hd.word_eq (fun f hf => ?_) fun i hi ho => ?_
    · rw [hd.writeGet _ v hv f hf, hd.writeGet _ v hv f hf]
    · simp only [hd.ctrlWrite_getLsbD hi ho _ hv]
      generalize old.getLsbD i = o, v.getLsbD i = x, d.roMask.getLsbD i = r, d.w1cMask.getLsbD i = c, d.rwMask.getLsbD i = w
      revert o x r c w
      decide

end DescFits

/-- At the maxima of R78 no number that fits a field is above the field's maximum. -/
theorem get_le_fmax_full {d : Desc} (hd : d ∈ [teDesc FieldMax.full, tfDesc, tsDesc FieldMax.full]) {f : Field}
    (hf : f ∈ d.fields) (v : Word) : f.get v ≤ f.fmax := by
  have hmax : ∀ d ∈ [teDesc FieldMax.full, tfDesc, tsDesc FieldMax.full], ∀ f ∈ d.fields, 2 ^ f.width = f.fmax + 1 := by decide
  have hlt := Field.get_lt f ((descFits_of_mem (by decide) hd).inWord f hf).width_le v
  rw [hmax d hd f hf] at hlt
  exact Nat.le_of_lt_succ hlt

/-- Settles O23: the laws of a descriptor that fits together, of which the three are. -/
theorem ctrlWriteLaws : Obligations.CtrlWriteLaws := by
  intro m d old v hm hmem
  have hd := descFits_of_mem hm hmem
  refine ⟨fun hv => ctrlWrite_inactive hd.active hv old, fun hv => (hd.writeActive old v).trans hv,
    fun _ => (hd.writeLegal old v).reserved, hd.ctrlWrite_and_ro old, fun hv hfull => ?_,
    fun hlegal hold hw1c => hd.ctrlWrite_eq_value hlegal hold (fun _ _ => rfl) hw1c hw1c, hd.ctrlWrite_ctrlWrite old v⟩
  subst hfull
  exact hd.ctrlWrite_and_rw old hv fun f hf => get_le_fmax_full hmem hf v

/-- Settles O24: what a write leaves in a field, for each descriptor. -/
theorem fieldsSaturateAtMaximum : Obligations.FieldsSaturateAtMaximum := by
  intro m d old v f hm hmem hf hv
  have hget := (descFits_of_mem hm hmem).writeGet old v hv f hf
  refine ⟨hget, fun hfull => ?_⟩
  subst hfull
  rw [hget, min_eq_left (get_le_fmax_full hmem hf v)]

/-- Settles O25: the RW1C masks of the Funnel and of the Sink are 0, the Encoder's is bit 12, which is in no field. -/
theorem writeOneClearsOverflowBit : Obligations.WriteOneClearsOverflowBit := by
  intro m d old v b hmem hv hb
  simp only [List.mem_cons, List.not_mem_nil, or_false] at hmem
  obtain rfl | rfl | rfl := hmem
  · have hb12 : b = 12 := by
      rw [show (teDesc m).w1cMask = BitVec.twoPow 32 12 from maskInstStallOrOverflow_eq, BitVec.getLsbD_twoPow] at hb
      simp at hb
      omega
    subst hb12
    exact ⟨rfl, rfl, ctrlWrite_te_getLsbD m old hv (by decide)⟩
  · simp [tfDesc] at hb
  · simp [tsDesc] at hb

end Sys2Proof.Machine
end

section
/-! `START` (`46_driver.md` R119): the write-back of an active device's register with another Enable is stored as it is. -/

namespace Sys2Proof.Machine

/-- A legal register stays legal when a bit changes that is not reserved and lies in no field. -/
theorem CtrlLegal.of_eq_except {d : Desc} (hd : DescFits d) {k : Nat} (hk : (reservedMask d).getLsbD k = false)
    (ho : OutsideFields d.fields k) {v w : Word} (h : CtrlLegal d v) (hvw : ∀ i, i ≠ k → w.getLsbD i = v.getLsbD i) :
    CtrlLegal d w := by
  refine ⟨(word_and_eq_zero_iff _ _).2 fun i hi hr => ?_, fun f hf => ?_⟩
  · have hik : i ≠ k := by rintro rfl; rw [hk] at hr; cases hr
    rw [hvw i hik]
    exact (word_and_eq_zero_iff _ _).1 h.reserved i hi hr
  · have hout := ho f hf
    rw [Field.get_congr (hd.inWord f hf) fun i hlo hhi => hvw i (by rintro rfl; exact hout ⟨hlo, hhi⟩)]
    exact h.fields f hf

/-- A read-modify-write changes Enable only (R119, R120). -/
theorem EnableUpdate.apply_getLsbD_ne (u : EnableUpdate) (c : Word) {i : Nat} (hi : i ≠ 1) :
    (u.apply c).getLsbD i = c.getLsbD i := by
  cases u with
  | set => simp [apply, maskEnable_eq, BitVec.getLsbD_twoPow, Ne.symm hi]
  | clear =>
    by_cases h : i < 32
    · simp [apply, maskEnable_eq, h, hi]
    · rw [BitVec.getLsbD_of_ge _ _ (by omega), BitVec.getLsbD_of_ge _ _ (by omega)]

/-- The write-back to an active Encoder is stored as it is. -/
theorem ctrlWrite_te_enableUpdate {m : FieldMax} (hm : m.wf = true) {c : Word} (hlegal : CtrlLegal (teDesc m) c)
    (hactive : c.getLsbD 0 = true) (hoverflow : c.getLsbD 12 = false) (u : EnableUpdate) :
    ctrlWrite (teDesc m) c (u.apply c) = u.apply c := by
  have hd := descFits_te hm
  have hne {i : Nat} (hi : i ≠ 1) : (u.apply c).getLsbD i = c.getLsbD i := u.apply_getLsbD_ne c hi
  have hw1c {w : Word} (hw : w.getLsbD 12 = false) : w &&& (teDesc m).w1cMask = 0 := by
    rw [show (teDesc m).w1cMask = BitVec.twoPow 32 12 from maskInstStallOrOverflow_eq, BitVec.and_twoPow, hw]; rfl
  refine hd.ctrlWrite_eq_value (hlegal.of_eq_except hd (k := 1) (by rw [reservedMask_te]; decide) ?_ fun i => hne)
    ((hne (by decide)).trans hactive) (fun i hro => ?_) (hw1c hoverflow) (hw1c ((hne (by decide)).trans hoverflow))
  · simp [OutsideFields, teDesc, fieldInstMode, fieldInstSyncMode, fieldInstSyncMax, fieldFormat]
  · refine (hne ?_).symm
    rintro rfl
    exact absurd hro (by simp [teDesc, maskEmpty])

/-- What START asserts holds of a word and the same word with Enable set. -/
theorem EnableUpdate.set_holds (c : Word) : EnableUpdate.set.holds c (EnableUpdate.set.apply c) = true := by
  have hset : bitOn (c ||| maskEnable) maskEnable = true := by rw [bitOn_enable]; simp [maskEnable]
  have hkeep : (c ||| maskEnable) &&& ~~~maskEnable = c &&& ~~~maskEnable := by
    rw [BitVec.and_or_distrib_right]; simp
  simp only [holds, apply, hkeep, decide_true, Bool.and_true]
  exact hset

/-- Settles O50: the three lines of START are one read-modify-write of the Encoder's CONTROL. On an active Encoder the word is
stored as written and the assertions hold; on an inactive one the write is a master reset, which leaves Enable 0. -/
theorem startSetsEnableOnly : Obligations.StartSetsEnableOnly := by
  intro s hs
  have hrun : exec .start s = _ := runAlone_update_te hs.cfg 0 .set [] 0
  rw [hrun]
  refine ⟨fun hactive => ?_, fun hinactive => ?_⟩
  · have hoverflow := hs.teNoOverflow
    rw [bitOn_instStallOrOverflow] at hoverflow
    have hwrite : teControlWrite (EnableUpdate.set.apply s.te.ctrl) s =
        { s with te := { ctrl := EnableUpdate.set.apply s.te.ctrl } } := by
      rw [teControlWrite, ctrlWrite_te_enableUpdate hs.fmax_wf hs.teLegal hactive hoverflow]
    rw [hwrite, if_pos (EnableUpdate.set_holds _)]
    rfl
  · have hwrite : teControlWrite (EnableUpdate.set.apply s.te.ctrl) s = { s with te := { ctrl := 0x00000008 } } := by
      rw [teControlWrite, ctrlWrite_inactive rfl ((EnableUpdate.apply_getLsbD_ne _ _ (by decide)).trans hinactive)]
      rfl
    rw [hwrite, if_neg (by simp [EnableUpdate.holds, maskEnable])]
    rfl

end Sys2Proof.Machine
end

section
/-! The reads without side effect and the accesses at an invalid offset (`43_encoder.md` R89, R91, R92 and their like in the
Funnel and the Sink): what the device operation answers is all that changes. -/

namespace Sys2Proof.Machine

/-- A read that leaves the state as it is changes the reported word only. -/
theorem endWord_unchanged (w : Word) (s : State) : endWord (w, s) = .next { s with response := .word w } := rfl

/-- A read at an invalid offset answers 0 and adds its event to the ghost log (R127). -/
theorem endWord_invalidRead (d : Device) (s : State) :
    endWord (invalidRead d s) = .next { s with response := .word 0, log := s.log ++ [.invalidOffset d] } := rfl

/-- A write at an invalid offset adds its event to the ghost log (R127). -/
theorem endDone_invalidWrite (d : Device) (s : State) :
    endDone (invalidWrite d s) = .next { s with response := .done, log := s.log ++ [.invalidOffset d] } := rfl

/-- Settles O22: the six rows are the invalid read and the invalid write of their device. -/
theorem invalidOffsetsReadZeroAndIgnoreWrites : Obligations.InvalidOffsetsReadZeroAndIgnoreWrites := fun s _ _ =>
  ⟨⟨_, endWord_invalidRead .encoder s⟩, ⟨_, endDone_invalidWrite .encoder s⟩,
   ⟨_, endWord_invalidRead .funnel s⟩, ⟨_, endDone_invalidWrite .funnel s⟩,
   ⟨_, endWord_invalidRead .sink s⟩, ⟨_, endDone_invalidWrite .sink s⟩⟩

/-- Settles O33: each of the five reads answers a word of the state it leaves as it is. -/
theorem plainReadsReturnRegisters : Obligations.PlainReadsReturnRegisters := fun s =>
  ⟨endWord_unchanged s.te.ctrl s, endWord_unchanged s.tf.ctrl s, endWord_unchanged s.tf.dis s,
   endWord_unchanged (cursorWord s.ts.wp) s, endWord_unchanged (cursorWord s.ts.rp) s⟩

end Sys2Proof.Machine
end

section
/-! The write of the Encoder's CONTROL (`43_encoder.md` R90). Where the clamp of R78 takes nothing away, `CtrlWrite` is the mask
formula of R75 without its clamp loop. -/

namespace Sys2Proof.Machine

/-- `CtrlWrite` of a word none of whose fields is above its maximum (R75 to R77, R79). -/
theorem DescFits.ctrlWrite_eq_of_le_fmax {d : Desc} (hd : DescFits d) (old : Word) {v : Word}
    (hmax : ∀ f ∈ d.fields, f.get v ≤ f.fmax) :
    ctrlWrite d old v =
      if v &&& d.active = 0 then d.deact
      else ((old &&& (d.roMask ||| d.w1cMask)) ||| (v &&& d.rwMask)) &&& ~~~(v &&& d.w1cMask) := by
  split_ifs with hactive
  · exact if_pos hactive
  have hv : v.getLsbD 0 = true := by
    rwa [hd.active, and_active_eq_zero, Bool.not_eq_false] at hactive
  refine word_ext fun i hi => ?_
  by_cases ho : OutsideFields d.fields i
  · simp only [hd.ctrlWrite_getLsbD hi ho old hv, BitVec.getLsbD_and, BitVec.getLsbD_or, BitVec.getLsbD_not, hi, decide_true,
      Bool.true_and]
  · obtain ⟨f, hf, hfi⟩ := (not_outsideFields_iff _ _).1 ho
    have hget : f.get (ctrlWrite d old v) = f.get v := by rw [hd.writeGet old v hv f hf, min_eq_left (hmax f hf)]
    have hrw := hd.fieldsRw f hf i hfi
    rw [Field.getLsbD_eq_of_get_eq (hd.inWord f hf) hget hfi]
    simp only [BitVec.getLsbD_and, BitVec.getLsbD_or, BitVec.getLsbD_not, hrw, hd.not_ro_of_rw hi hrw, hd.not_w1c_of_rw hi hrw,
      hi, decide_true, Bool.or_self, Bool.and_false, Bool.and_true, Bool.false_or, Bool.not_false]

/-- Settles O27: at the maxima of R78 nothing is clamped, and the masks of the formula are the Encoder's. -/
theorem encoderControlWrite : Obligations.EncoderControlWrite := by
  intro s v hfull
  have hexec : exec (.teControlWr v) s =
      .next { s with response := .done, te := { ctrl := ctrlWrite (teDesc s.cfg.fmax) s.te.ctrl v } } := rfl
  rw [hexec, hfull, (descFits_te (by decide)).ctrlWrite_eq_of_le_fmax s.te.ctrl
    fun f hf => get_le_fmax_full (d := teDesc FieldMax.full) (.head _) hf v]
  rfl

end Sys2Proof.Machine
end

section
/-! The emission (`43_encoder.md` R88) and what it and a push read of the control registers: their gate bits, and no other (R93,
`45_sink.md` R114). -/

namespace Sys2Proof.Machine

/-- `EMIT` ends normally, whatever happens downstream (R88). -/
theorem exec_emit (pc op : Word) (s : State) : exec (.emit pc op) s = .next ((encoderEmit pc op s).respond .done) := rfl

/-- `TF.PUSH` ends normally (R95). -/
theorem exec_tfPush (data : List Byte) (s : State) : exec (.tfPush data) s = .next ((funnelPush data s).respond .done) := rfl

/-- `TS.PUSH` ends normally (R104). -/
theorem exec_tsPush (data : List Byte) (s : State) : exec (.tsPush data) s = .next ((sinkPush data s).respond .done) := rfl

/-- The Encoder's gate is open exactly when Active, Enable and InstTracing are set (R87). -/
theorem teGate_iff (te : Encoder) :
    teGate te = true ↔ te.ctrl.getLsbD 0 = true ∧ te.ctrl.getLsbD 1 = true ∧ te.ctrl.getLsbD 2 = true := by
  rw [teGate, bitOn_active, bitOn_enable, bitOn_instTracing, Bool.and_eq_true, Bool.and_eq_true, and_assoc]

/-- Settles O37: the gate decides; behind the open gate the emission is the push of the record from the state with Empty
cleared, and no push touches the Encoder or the Funnel. -/
theorem emitPushesRecord : Obligations.EmitPushesRecord := by
  intro s pc op
  rw [exec_emit, ← teGate_iff]
  refine ⟨fun hclosed => ?_, fun hactive henable htracing => ?_⟩
  · rw [encoderEmit, if_neg hclosed]
    rfl
  · rw [encoderEmit, if_pos ((teGate_iff _).2 ⟨hactive, henable, htracing⟩)]
    obtain ⟨-, hte, htf, -, -⟩ := funnelPush_frame (traceRecord pc op) { s with te := s.te.setEmpty false }
    exact ⟨_, rfl, rfl, hte, htf, exec_tfPush _ _⟩

/-- Two words that agree under a mask agree in each bit of the mask. -/
theorem getLsbD_eq_of_and_eq {v w m : Word} (h : v &&& m = w &&& m) {i : Nat} (hi : m.getLsbD i = true) :
    v.getLsbD i = w.getLsbD i := by
  simpa [hi] using congrArg (fun x => x.getLsbD i) h

/-- The Encoder's gate reads Active, Enable and InstTracing only (R93). -/
theorem teGate_congr {a b : Encoder} (h : a.ctrl &&& 0x00000007 = b.ctrl &&& 0x00000007) : teGate a = teGate b := by
  rw [Bool.eq_iff_iff, teGate_iff, teGate_iff, getLsbD_eq_of_and_eq h (i := 0) rfl, getLsbD_eq_of_and_eq h (i := 1) rfl,
    getLsbD_eq_of_and_eq h (i := 2) rfl]

/-- The Sink's gate reads Active and Enable only (R114). -/
theorem tsGate_congr {a b : Sink} (h : a.ctrl &&& 0x00000003 = b.ctrl &&& 0x00000003) : tsGate a = tsGate b := by
  simp only [tsGate, bitOn_active, bitOn_enable, getLsbD_eq_of_and_eq h (i := 0) rfl, getLsbD_eq_of_and_eq h (i := 1) rfl]

/-- A push into the Sink does not read the Encoder. -/
theorem sinkPush_withTe (data : List Byte) (s : State) (e : Encoder) :
    sinkPush data { s with te := e } = { sinkPush data s with te := e } := by
  unfold sinkPush
  dsimp only
  split <;> rfl

/-- A push into the Funnel does not read the Encoder. -/
theorem funnelPush_withTe (data : List Byte) (s : State) (e : Encoder) :
    funnelPush data { s with te := e } = { funnelPush data s with te := e } := by
  unfold funnelPush
  dsimp only
  split_ifs
  · exact sinkPush_withTe data s e
  · rfl
  · rfl

/-- An emission does not change the Funnel (R88, R95). -/
theorem encoderEmit_tf (pc op : Word) (s : State) : (encoderEmit pc op s).tf = s.tf := by
  rcases encoderEmit_cases pc op s with ⟨-, h⟩ | ⟨-, h⟩ <;> rw [h]
  obtain ⟨-, -, htf, -, -⟩ := funnelPush_frame (traceRecord pc op) { s with te := s.te.setEmpty false }
  exact htf

/-- What an emission does to the Sink depends on the Encoder by its gate alone (R88). -/
theorem encoderEmit_ts (pc op : Word) (s : State) :
    (encoderEmit pc op s).ts = if teGate s.te then (funnelPush (traceRecord pc op) s).ts else s.ts := by
  rcases encoderEmit_cases pc op s with ⟨hg, h⟩ | ⟨hg, h⟩ <;> rw [h, hg]
  · rw [funnelPush_withTe]; rfl
  · rfl

/-- Storing a byte does not read the Sink's CONTROL. -/
theorem Sink.store_withCtrl (cap : Nat) (ts : Sink) (c : Word) (b : Byte) :
    Sink.store cap { ts with ctrl := c } b = { ts.store cap b with ctrl := setBit c maskEmpty false } := rfl

/-- The byte loop of a push does the same to the buffer, the cursors and the counters whatever stands in the Sink's CONTROL
(R104, R114). -/
theorem Sink.storeAll_withCtrl (cap : Nat) (data : List Byte) : ∀ (ts : Sink) (c x : Word),
    { Sink.storeAll cap { ts with ctrl := c } data with ctrl := x } = { ts.storeAll cap data with ctrl := x } := by
  induction data with
  | nil => intro ts c x; rfl
  | cons b bs ih =>
    intro ts c x
    simp only [Sink.storeAll]
    split
    · rfl
    · rw [Sink.store_withCtrl]
      exact ih (ts.store cap b) _ x

/-- A push does the same to the buffer, the cursors and the counters whatever stands in the Sink's CONTROL beside the gate bits
(R114). -/
theorem sinkPush_ts_withCtrl (data : List Byte) (s : State) {c : Word} (hc : c &&& 0x00000003 = s.ts.ctrl &&& 0x00000003)
    (x : Word) : ({ (sinkPush data { s with ts := { s.ts with ctrl := c } }).ts with ctrl := x } : Sink) =
      { (sinkPush data s).ts with ctrl := x } := by
  have hgate : tsGate { s.ts with ctrl := c } = tsGate s.ts := tsGate_congr hc
  unfold sinkPush
  rw [hgate]
  split
  · exact Sink.storeAll_withCtrl s.cfg.cap data s.ts c x
  · rfl

/-- Settles O48: equal gate bits mean equal gates, and nothing behind a gate reads the register again but to clear Empty in it. -/
theorem storageOnlyFieldsHaveNoFunction : Obligations.StorageOnlyFieldsHaveNoFunction := by
  intro s t u c
  refine ⟨fun pc op hc ht hu => ?_, fun data hc ht hu => ?_⟩
  · rw [exec_emit] at ht hu
    cases ht
    cases hu
    have hgate : teGate { ctrl := c } = teGate s.te := teGate_congr hc
    simp only [State.respond_tf, State.respond_ts, encoderEmit_tf, encoderEmit_ts, funnelPush_withTe, hgate, and_self]
  · rw [exec_tsPush] at ht hu
    cases ht
    cases hu
    exact sinkPush_ts_withCtrl data s hc _

end Sys2Proof.Machine
end

section
/-! The Funnel's two registers and its push (`44_funnel.md` R95, R97, R99). Its descriptor has no field to clamp and no RW1C bit,
so `CtrlWrite` is the mask formula alone; its push is the Sink's push behind the gate and a zero `tf_dis`. -/

namespace Sys2Proof.Machine

/-- `TF.CONTROL.WR` ends normally (R97). -/
theorem exec_tfControlWr (v : Word) (s : State) :
    exec (.tfControlWr v) s = .next ((tfControlWrite v s).respond .done) := rfl

/-- `TF.DIS_INPUT.WR` ends normally (R99). -/
theorem exec_tfDisInputWr (v : Word) (s : State) :
    exec (.tfDisInputWr v) s = .next ((tfDisInputWrite v s).respond .done) := rfl

/-- `CtrlWrite` with the Funnel's descriptor, as R97 spells it out: there is no field to clamp and no bit to clear. -/
theorem ctrlWrite_tf_eq (old v : Word) :
    ctrlWrite tfDesc old v = if v &&& 0x00000001 = 0 then 0x00000000 else (old &&& 0x00000008) ||| (v &&& 0x00000003) := by
  have hclear (x : Word) : x &&& ~~~(v &&& tfDesc.w1cMask) = x := by
    rw [show tfDesc.w1cMask = 0#32 from rfl, BitVec.and_zero, BitVec.not_zero, BitVec.and_allOnes]
  rw [descFits_tf.ctrlWrite_eq_of_le_fmax old (v := v) nofun, hclear]
  rfl

/-- Settles O28: the write is `CtrlWrite` of `tf_ctrl` alone. -/
theorem funnelControlWrite : Obligations.FunnelControlWrite := by
  intro s v
  rw [exec_tfControlWr, tfControlWrite, ctrlWrite_tf_eq]
  rfl

/-- Settles O29: after the mask the clamp never fires, and no gate is asked. -/
theorem disInputWrite : Obligations.DisInputWrite := by
  intro s v
  rw [exec_tfDisInputWr, tfDisInputWrite_eq]
  rfl

/-- The Funnel's gate is open exactly when Active and Enable are set (R94). -/
theorem tfGate_iff (tf : Funnel) : tfGate tf = true ↔ tf.ctrl.getLsbD 0 = true ∧ tf.ctrl.getLsbD 1 = true := by
  rw [tfGate, bitOn_active, bitOn_enable, Bool.and_eq_true]

/-- A closed gate drops the push, whatever stands in `tf_dis` (R95). -/
theorem funnelPush_of_gate_closed (data : List Byte) {s : State} (hgate : ¬ tfGate s.tf = true) :
    funnelPush data s = s.logged .funnelGated := if_neg hgate

/-- Behind the open gate a non-zero `tf_dis` drops the push (R95). -/
theorem funnelPush_of_dis_ne_zero (data : List Byte) {s : State} (hgate : tfGate s.tf = true) (hdis : s.tf.dis ≠ 0) :
    funnelPush data s = s.logged .funnelInputDisabled := by
  rw [funnelPush, if_pos hgate, if_neg hdis]

/-- Behind the open gate and a zero `tf_dis` the same bytes are pushed into the Sink (R95). -/
theorem funnelPush_of_dis_zero (data : List Byte) {s : State} (hgate : tfGate s.tf = true) (hdis : s.tf.dis = 0) :
    funnelPush data s = sinkPush data s := by
  rw [funnelPush, if_pos hgate, if_pos hdis]

/-- Settles O38: one clause for each branch of the push; where it forwards, the push into the Sink leaves the Funnel and the
Encoder as they were. -/
theorem funnelForwardsOrDrops : Obligations.FunnelForwardsOrDrops := by
  intro s data
  rw [exec_tfPush, exec_tsPush, ← tfGate_iff]
  refine ⟨fun hclosed => ?_, fun hactive henable hdis => ?_, fun hactive henable hdis => ?_⟩
  · rw [funnelPush_of_gate_closed data hclosed]
    exact ⟨_, rfl⟩
  · rw [funnelPush_of_dis_ne_zero data ((tfGate_iff _).2 ⟨hactive, henable⟩) hdis]
    exact ⟨_, rfl⟩
  · rw [funnelPush_of_dis_zero data ((tfGate_iff _).2 ⟨hactive, henable⟩) hdis]
    obtain ⟨-, hte, htf, -, -⟩ := sinkPush_frame data s
    exact ⟨_, rfl, rfl, htf, hte⟩

end Sys2Proof.Machine
end

section
/-! The ring buffer over whole runs (`45_sink.md` R113, `70_reset_and_hazards.md` R149): the conservation law of one operation is
composed along a run of operations and along a run of steps. A step performs its operation with the turn taken off the queue,
so what it accepts and pops must not depend on the queue. -/

namespace Sys2Proof.Machine

/-- The conservation law between two states: the words `ws` popped, as bytes, and what is live at the end are what was live at
the start and the bytes `bs` accepted (R113). -/
def Conserves (ws : List Word) (bs : List Byte) (s t : State) : Prop := ws.flatMap le32 ++ t.live = s.live ++ bs

theorem Conserves.of_live_eq {s t : State} (h : t.live = s.live) : Conserves [] [] s t := by
  rw [Conserves, h, List.append_nil]; rfl

/-- What is conserved by one part of a run and by the next is conserved by both. -/
theorem Conserves.trans {ws ws' : List Word} {bs bs' : List Byte} {s u t : State} (h : Conserves ws bs s u)
    (h' : Conserves ws' bs' u t) : Conserves (ws ++ ws') (bs ++ bs') s t := by
  simp only [Conserves] at h h' ⊢
  rw [List.flatMap_append, List.append_assoc, h', ← List.append_assoc, h, List.append_assoc]

theorem length_flatMap_le32 (ws : List Word) : (ws.flatMap le32).length = 4 * ws.length := by
  simp [List.length_flatMap, Nat.mul_comm]

/-- From a Sink that holds nothing, conservation is the FIFO property. -/
theorem Conserves.fifo {ws : List Word} {bs : List Byte} {s t : State} (h : Conserves ws bs s t) (hs : s.ts.count = 0) :
    ws.flatMap le32 ++ t.live = bs ∧ t.ts.count = bs.length - 4 * ws.length := by
  have hbytes : ws.flatMap le32 ++ t.live = bs := by
    rw [h, State.live, Sink.live_of_count_zero _ hs, List.nil_append]
  refine ⟨hbytes, ?_⟩
  rw [← hbytes, List.length_append, length_flatMap_le32, State.live, Sink.live_length, Nat.add_sub_cancel_left]

/-- A run of operations without a master reset of the Sink conserves the live bytes. -/
theorem runOps_conserves : ∀ {is : List Instr} {s t : State}, s.Inv → neverResetsSink is s = true → runOps is s = .next t →
    Conserves (poppedIn is s) (acceptedIn is s) s t := by
  intro is
  induction is with
  | nil => rintro s t - - ⟨⟩; exact .of_live_eq rfl
  | cons i is ih =>
    intro s t hs hr h
    simp only [runOps] at h
    simp only [neverResetsSink, Bool.and_eq_true, Bool.not_eq_true'] at hr
    obtain ⟨hi, his⟩ := hr
    simp only [poppedIn, acceptedIn]
    cases hx : exec i s with
    | next u =>
      rw [hx] at h his
      have hfirst : Conserves (popped i s) (accepted i s) s u := exec_conservesLive hs hi hx
      exact hfirst.trans (ih (exec_keeps_inv hx hs) his h)
    | fault r => rw [hx] at h; cases h
    | refused r => rw [hx] at h; cases h

/-- A read of DATA neither reads nor changes the queue of turns. -/
theorem tsDataRead_withPending (s : State) (p : List Turn) :
    tsDataRead { s with pending := p } = ((tsDataRead s).1, { (tsDataRead s).2 with pending := p }) := by
  unfold tsDataRead
  dsimp only
  split <;> rfl

/-- The lines of a `FETCH` neither read nor change the queue of turns. -/
theorem runAlone_fetch_withPending (p : List Turn) (n : Nat) : ∀ {ws : List Word} {s t : State}, s.cfg.wf = true →
    runAlone (3 * n) (fetchFrom n ws s) = .next t →
    runAlone (3 * n) (fetchFrom n ws { s with pending := p }) = .next { t with pending := p } := by
  induction n with
  | zero => rintro ws s t - ⟨⟩; rfl
  | succ n ih =>
    intro ws s t hc h
    rw [runAlone_fetch_succ hc] at h
    rw [runAlone_fetch_succ (s := { s with pending := p }) hc, tsDataRead_withPending]
    dsimp only
    split at h
    · rename_i heq
      cases h
      rw [if_pos heq]
      rfl
    · rename_i hne
      rw [if_neg hne]
      exact ih (by rwa [tsDataRead_cfg]) h

theorem accepted_withPending (i : Instr) (s : State) (p : List Turn) : accepted i { s with pending := p } = accepted i s := by
  cases i <;> rfl

theorem resetsSink_withPending (i : Instr) (s : State) (p : List Turn) :
    resetsSink i { s with pending := p } = resetsSink i s := by
  cases i <;> rfl

/-- What an operation pops does not depend on the queue of turns: of the operations only a `FETCH` has to be performed to tell. -/
theorem popped_withPending {i : Instr} {s t : State} (hs : s.Inv) (h : exec i s = .next t) (p : List Turn) :
    popped i { s with pending := p } = popped i s := by
  cases i with
  | fetch n =>
    have hp : exec (.fetch n) { s with pending := p } = .next { t with pending := p } :=
      runAlone_fetch_withPending p n hs.cfg h
    simp only [popped, h, hp]
  | _ => rfl

/-- The words the next step pops. -/
def stepPopped (s : State) : List Word := (stepOperation s).elim [] fun i => popped i s

/-- The bytes the next step accepts. -/
def stepAccepted (s : State) : List Byte := (stepOperation s).elim [] fun i => accepted i s

/-- Whether the next step resets the Sink. -/
def stepResetsSink (s : State) : Bool := (stepOperation s).elim false fun i => resetsSink i s

/-- A step keeps the invariants and, when it is no master reset of the Sink, conserves the live bytes. -/
theorem step_conserves {s t : State} (hs : s.Inv) (hr : stepResetsSink s = false) (h : step s = .next t) :
    t.Inv ∧ Conserves (stepPopped s) (stepAccepted s) s t := by
  rw [stepResetsSink] at hr
  obtain ⟨r, qs, ⟨hnone, rfl⟩ | ⟨i, u, hsome, hx, rfl⟩⟩ := step_cases h
  · rw [stepPopped, stepAccepted, hnone]
    exact ⟨{ hs with }, .of_live_eq rfl⟩
  · rw [hsome] at hr
    rw [stepPopped, stepAccepted, hsome]
    have hq : State.Inv { s with pending := s.pending.tail } := { hs with }
    have hcons : Conserves _ _ _ u := exec_conservesLive hq ((resetsSink_withPending i s _).trans hr) hx
    have hpop : popped i s = popped i { s with pending := s.pending.tail } := popped_withPending hq hx s.pending
    rw [accepted_withPending, ← hpop] at hcons
    exact ⟨{ exec_keeps_inv hx hq with }, hcons⟩

/-- A run of steps without a master reset of the Sink conserves the live bytes, whatever stands between the lines of its driver
sequences (R149). -/
theorem runSteps_conserves : ∀ {n : Nat} {s t : State}, s.Inv → stepsNeverResetSink n s = true → runSteps n s = .next t →
    Conserves (poppedInSteps n s) (acceptedInSteps n s) s t := by
  intro n
  induction n with
  | zero => rintro s t - - ⟨⟩; exact .of_live_eq rfl
  | succ n ih =>
    intro s t hs hr h
    simp only [stepsNeverResetSink, Bool.and_eq_true, Bool.not_eq_true'] at hr
    obtain ⟨hfirst, hrest⟩ := hr
    simp only [runSteps] at h
    simp only [poppedInSteps, acceptedInSteps]
    cases hx : step s with
    | next u =>
      rw [hx] at h hrest
      obtain ⟨hu, hcons⟩ := step_conserves hs hfirst hx
      exact hcons.trans (ih hu hrest h)
    | fault r => rw [hx] at h; cases h
    | refused r => rw [hx] at h; cases h

/-- Settles O42: both kinds of run conserve the live bytes, and at the start there are none. -/
theorem runPopsAcceptedBytesInOrder : Obligations.RunPopsAcceptedBytesInOrder :=
  ⟨fun _ _ _ hs hcount hr h => (runOps_conserves hs hr h).fifo hcount,
   fun _ _ _ hs hcount hr h => (runSteps_conserves hs hr h).fifo hcount⟩

end Sys2Proof.Machine
end

section
/-! The Sink's registers and its push (`45_sink.md` R104 to R106, R109, R110). -/

namespace Sys2Proof.Machine

/-- `TS.CONTROL.RD` ends with a word (R105). -/
theorem exec_tsControlRd (s : State) : exec .tsControlRd s = endWord (tsControlRead s) := rfl

/-- `TS.CONTROL.WR` ends normally (R106). -/
theorem exec_tsControlWr (v : Word) (s : State) :
    exec (.tsControlWr v) s = .next ((tsControlWrite v s).respond .done) := rfl

/-- `TS.DATA.RD` ends with a word (R109). -/
theorem exec_tsDataRd (s : State) : exec .tsDataRd s = endWord (tsDataRead s) := rfl

/-- A write that is accepted but ignored changes the reported outcome only (R110). -/
theorem endDone_ignoredWrite (s : State) : endDone (ignoredWrite s) = .next { s with response := .done } := rfl

/-- Settles O36: each of the three writes is the ignored write. -/
theorem readOnlySinkRegistersIgnoreWrites : Obligations.ReadOnlySinkRegistersIgnoreWrites := fun s _ =>
  ⟨endDone_ignoredWrite s, endDone_ignoredWrite s, endDone_ignoredWrite s⟩

/-- At the maxima of R78 the Sink's CONTROL after a write with Active = 1 is the RW bits written and the recomputed Empty; the
Empty that `CtrlWrite` keeps is overwritten (R106). -/
theorem setEmpty_ctrlWrite_ts_full (old : Word) {v : Word} (hv : v.getLsbD 0 = true) (p : Prop) [Decidable p] :
    setBit (ctrlWrite (tsDesc FieldMax.full) old v) maskEmpty (decide p) =
      (v &&& 0x00007713) ||| (if p then 0x00000008 else 0x00000000) := by
  have hactive : ¬ v &&& (tsDesc FieldMax.full).active = 0 := fun h => by
    rw [(and_active_eq_zero v).1 h] at hv
    cases hv
  have hmax : ∀ f ∈ (tsDesc FieldMax.full).fields, f.get v ≤ f.fmax := fun f hf =>
    get_le_fmax_full (d := tsDesc FieldMax.full) (by simp) hf v
  rw [(descFits_ts (by decide)).ctrlWrite_eq_of_le_fmax old hmax, if_neg hactive, setBit_empty_decide]
  congr 1
  refine word_ext fun i hi => ?_
  simp only [tsDesc, maskEmpty, BitVec.getLsbD_and, BitVec.getLsbD_or, BitVec.getLsbD_not]
  interval_cases i <;> simp

/-- Settles O30: the two branches of the write; a reset leaves the cleared Sink, whose buffer lists no byte. -/
theorem sinkControlWrite : Obligations.SinkControlWrite := by
  intro s v hfull
  have hbit : v &&& 0x00000001 = 0 ↔ v.getLsbD 0 = false := and_active_eq_zero v
  rw [exec_tsControlWr, Ne, hbit]
  rcases tsControlWrite_cases v s with ⟨hv, hwrite⟩ | ⟨hv, hwrite⟩ <;> rw [hwrite]
  · exact ⟨fun _ => ⟨Sink.cleared s.ts.dropped, rfl, rfl, Memory.read_nil, rfl, rfl, rfl, rfl⟩, fun h => absurd hv h⟩
  · refine ⟨fun h => ?_, fun _ => ?_⟩
    · rw [hv] at h; cases h
    · rw [hfull, setEmpty_ctrlWrite_ts_full _ hv]
      rfl

/-- Under the invariants a read of the Sink's CONTROL returns the register as stored and changes nothing (R105). -/
theorem State.Inv.tsControlRead_eq {s : State} (h : s.Inv) : tsControlRead s = (s.ts.ctrl, s) := by
  rw [tsControlRead, h.sink.recomputeEmpty_eq]

/-- Settles O35: the word returned is the register with Empty set from `count`, which the invariants say it holds already. -/
theorem sinkControlRead : Obligations.SinkControlRead := by
  intro s
  refine ⟨⟨setBit s.ts.ctrl maskEmpty (decide (s.ts.count = 0)), rfl, ?_, fun i hi => setBit_empty_ne hi _ _⟩, fun hs => ?_⟩
  · rw [setBit_empty_getLsbD, if_pos rfl]
  · rw [exec_tsControlRd, hs.tsControlRead_eq, endWord_unchanged]

/-- The Sink's gate is open exactly when Active and Enable are set (R103). -/
theorem tsGate_iff (ts : Sink) : tsGate ts = true ↔ ts.ctrl.getLsbD 0 = true ∧ ts.ctrl.getLsbD 1 = true := by
  rw [tsGate, bitOn_active, bitOn_enable, Bool.and_eq_true]

/-- Settles O39: a closed gate leaves its log event only; behind the open gate the push is the byte loop, whose effect on each
field and on each byte is known. -/
theorem sinkPushNetEffect : Obligations.SinkPushNetEffect := by
  intro s data
  rw [exec_tsPush, ← tsGate_iff]
  refine ⟨fun hclosed => ?_, fun hactive henable hbuf hwp hcount => ?_⟩
  · rw [sinkPush, if_neg hclosed]
    exact ⟨_, rfl⟩
  · rw [sinkPush, if_pos ((tsGate_iff _).2 ⟨hactive, henable⟩)]
    obtain ⟨hcount', hwp', hrp', hdropped', hctrl'⟩ := Sink.storeAll_fields data hwp hcount
    obtain ⟨hstored, hkept⟩ := Sink.storeAll_read data hbuf hwp hcount
    exact ⟨s.ts.storeAll s.cfg.cap data, s.log, rfl, fun _ => rfl, hcount', hwp', hrp', hdropped', hctrl', hstored, hkept⟩

/-- The Sink after a pop, with Empty written as the statements write it (R109). -/
theorem Sink.pop_eq (cap : Nat) (ts : Sink) : ts.pop cap =
    { ts with
      rp := (ts.rp + 4) % cap
      count := ts.count - 4
      ctrl := (ts.ctrl &&& ~~~0x00000008) ||| (if ts.count - 4 = 0 then 0x00000008 else 0x00000000) } := by
  rw [← setBit_empty_decide]
  rfl

/-- Settles O40: the two branches of the read. -/
theorem dataReadPopsOneWord : Obligations.DataReadPopsOneWord := by
  intro s
  rw [exec_tsDataRd]
  rcases tsDataRead_cases s with ⟨hshort, hread⟩ | ⟨hfour, hread⟩ <;> rw [hread]
  · exact ⟨fun _ => ⟨_, rfl⟩, fun h => absurd h (Nat.not_le.2 hshort)⟩
  · refine ⟨fun h => absurd h (Nat.not_lt.2 hfour), fun _ => ?_⟩
    rw [Sink.pop_eq]
    rfl

end Sys2Proof.Machine
end

section
/-! `STOP` (`46_driver.md` R120): what its three write-backs leave, and that its assertions hold of it. -/

namespace Sys2Proof.Machine

/-- In a register whose Enable is an RW bit of its own, a read-modify-write of Enable is stored as it is when the device is
Active and no RW1C bit is set. -/
theorem DescFits.ctrlWrite_enableUpdate {d : Desc} (hd : DescFits d) (hrw : d.rwMask.getLsbD 1 = true)
    (hout : OutsideFields d.fields 1) {c : Word} (hlegal : CtrlLegal d c) (hactive : c.getLsbD 0 = true)
    (hw1c : c &&& d.w1cMask = 0) (u : EnableUpdate) : ctrlWrite d c (u.apply c) = u.apply c := by
  have hne {i : Nat} (hi : i ≠ 1) : (u.apply c).getLsbD i = c.getLsbD i := u.apply_getLsbD_ne c hi
  have hreserved : (reservedMask d).getLsbD 1 = false := by simp [reservedMask, hrw]
  have hro : d.roMask.getLsbD 1 = false := hd.not_ro_of_rw (by decide) hrw
  have hnotW1c : d.w1cMask.getLsbD 1 = false := hd.not_w1c_of_rw (by decide) hrw
  refine hd.ctrlWrite_eq_value (hlegal.of_eq_except hd hreserved hout fun i => hne) ((hne (by decide)).trans hactive)
    (fun i hi => ?_) hw1c ((word_and_eq_zero_iff _ _).2 fun i hlt hi => ?_)
  · refine (hne ?_).symm
    rintro rfl
    rw [hro] at hi; cases hi
  · rw [hne (by rintro rfl; rw [hnotW1c] at hi; cases hi)]
    exact (word_and_eq_zero_iff _ _).1 hw1c i hlt hi

/-- What STOP asserts of the word read back (R120). -/
theorem EnableUpdate.clear_holds_iff (c c2 : Word) : EnableUpdate.clear.holds c c2 = true ↔ c2.getLsbD 1 = false := by
  rw [holds, decide_eq_true_iff, ← bitOn_enable, bitOn, decide_eq_false_iff_not, not_not]

theorem EnableUpdate.clear_getLsbD_one (c : Word) : (EnableUpdate.clear.apply c).getLsbD 1 = false := by
  simp [apply, maskEnable]

/-- The Encoder after STOP: Enable cleared, or as after a master reset where it was inactive (R120). -/
def State.teStopped (s : State) : State :=
  { s with te := { ctrl := if s.te.ctrl.getLsbD 0 then s.te.ctrl &&& ~~~0x00000002 else 0x00000008 } }

/-- The Funnel after STOP (R120). -/
def State.tfStopped (s : State) : State := { s with tf := { s.tf with ctrl := s.tf.ctrl &&& ~~~0x00000002 } }

/-- The Sink after STOP: the data and the counters as before (R120). -/
def State.tsStopped (s : State) : State := { s with ts := { s.ts with ctrl := s.ts.ctrl &&& ~~~0x00000002 } }

section
variable {s : State} (h : s.Inv)
include h

/-- The write-back of STOP to the Encoder: Enable cleared, or a master reset of an inactive one (R120). -/
theorem State.Inv.stopWriteBack_te : teControlWrite (EnableUpdate.clear.apply s.te.ctrl) s = s.teStopped := by
  rw [teControlWrite, State.teStopped]
  cases hactive : s.te.ctrl.getLsbD 0
  · rw [ctrlWrite_inactive rfl ((enableClear_active _).trans hactive)]
    rfl
  · have hoverflow := h.teNoOverflow
    rw [bitOn_instStallOrOverflow] at hoverflow
    rw [ctrlWrite_te_enableUpdate h.fmax_wf h.teLegal hactive hoverflow]
    rfl

/-- The write-back of STOP to the Funnel: Enable cleared; an inactive one holds 0 already (R120). -/
theorem State.Inv.stopWriteBack_tf : tfControlWrite (EnableUpdate.clear.apply s.tf.ctrl) s = s.tfStopped := by
  rw [tfControlWrite, State.tfStopped]
  cases hactive : s.tf.ctrl.getLsbD 0
  · rw [ctrlWrite_inactive rfl ((enableClear_active _).trans hactive), h.tfInactive ((bitOn_active _).trans hactive)]
    rfl
  · rw [descFits_tf.ctrlWrite_enableUpdate (by decide) nofun h.tfLegal hactive BitVec.and_zero]
    rfl

/-- The write-back of STOP to the Sink: Enable cleared; an inactive one is as after a master reset already (R120). -/
theorem State.Inv.stopWriteBack_ts : tsControlWrite (EnableUpdate.clear.apply s.ts.ctrl) s = s.tsStopped := by
  rcases tsControlWrite_cases (EnableUpdate.clear.apply s.ts.ctrl) s with ⟨hv, hwrite⟩ | ⟨hv, hwrite⟩ <;>
    rw [hwrite, State.tsStopped]
  · rw [enableClear_active] at hv
    have hcleared : s.ts = Sink.cleared s.ts.dropped := h.sink.inactive ((bitOn_active _).trans hv)
    have hctrl : s.ts.ctrl &&& ~~~0x00000002 = 0x00000008 := by rw [hcleared, Sink.cleared_ctrl]; decide
    rw [hctrl, hcleared]
    rfl
  · rw [enableClear_active] at hv
    have hempty : (EnableUpdate.clear.apply s.ts.ctrl).getLsbD 3 = decide (s.ts.count = 0) := by
      rw [EnableUpdate.apply_getLsbD_ne _ _ (by decide), ← bitOn_empty, Bool.eq_iff_iff, decide_eq_true_iff]
      exact h.sink.empty
    have hout : OutsideFields (tsDesc s.cfg.fmax).fields 1 := by
      simp [OutsideFields, tsDesc, fieldMemFormat, fieldAsyncFreq]
    rw [(descFits_ts h.fmax_wf).ctrlWrite_enableUpdate (by simp [tsDesc]) hout h.sink.legal hv BitVec.and_zero,
      setBit_empty_same hempty]
    rfl

theorem State.Inv.teStopped : s.teStopped.Inv := h.stopWriteBack_te ▸ h.teWrite _
theorem State.Inv.tfStopped : s.tfStopped.Inv := h.stopWriteBack_tf ▸ h.tfWrite _
theorem State.Inv.tsStopped : s.tsStopped.Inv := h.stopWriteBack_ts ▸ h.tsWrite _

/-- The lines of STOP for the Encoder: the assertion holds of what the write-back leaves. -/
theorem State.Inv.runAlone_clear_te (fuel : Nat) (rest : List Line) (c : Word) :
    runAlone (fuel + 3) (.going (.lines (.load (teAddr s.cfg offControl))
      (.update (teAddr s.cfg offControl) .clear :: .verify (teAddr s.cfg offControl) .clear :: rest) c) s) =
      runAlone fuel (nextLine rest s.te.ctrl s.teStopped) := by
  rw [runAlone_update_te h.cfg, h.stopWriteBack_te, if_pos]
  rw [EnableUpdate.clear_holds_iff, State.teStopped]
  dsimp only
  split
  · exact EnableUpdate.clear_getLsbD_one _
  · rfl

/-- The lines of STOP for the Funnel: the assertion holds of what the write-back leaves. -/
theorem State.Inv.runAlone_clear_tf (fuel : Nat) (rest : List Line) (c : Word) :
    runAlone (fuel + 3) (.going (.lines (.load (tfAddr s.cfg offControl))
      (.update (tfAddr s.cfg offControl) .clear :: .verify (tfAddr s.cfg offControl) .clear :: rest) c) s) =
      runAlone fuel (nextLine rest s.tf.ctrl s.tfStopped) := by
  rw [runAlone_update_tf h.cfg, h.stopWriteBack_tf, if_pos]
  exact (EnableUpdate.clear_holds_iff _ _).2 (EnableUpdate.clear_getLsbD_one s.tf.ctrl)

/-- The lines of STOP for the Sink: both reads of CONTROL change nothing, and the assertion holds of what the write-back
leaves. -/
theorem State.Inv.runAlone_clear_ts (fuel : Nat) (rest : List Line) (c : Word) :
    runAlone (fuel + 3) (.going (.lines (.load (tsAddr s.cfg offControl))
      (.update (tsAddr s.cfg offControl) .clear :: .verify (tsAddr s.cfg offControl) .clear :: rest) c) s) =
      runAlone fuel (nextLine rest s.ts.ctrl s.tsStopped) := by
  rw [runAlone_update_ts h.cfg, h.tsControlRead_eq, h.stopWriteBack_ts, h.tsStopped.tsControlRead_eq, if_pos]
  exact (EnableUpdate.clear_holds_iff _ _).2 (EnableUpdate.clear_getLsbD_one s.ts.ctrl)

end

/-- Settles O51: one read-modify-write for each device, in the order of R120. -/
theorem stopClearsEnablesAndKeepsData : Obligations.StopClearsEnablesAndKeepsData := by
  intro s hs
  calc exec .stop s
      = runAlone 6 (nextLine _ s.te.ctrl s.teStopped) := hs.runAlone_clear_te 6 _ 0
    _ = runAlone 3 (nextLine _ s.tf.ctrl s.teStopped.tfStopped) := hs.teStopped.runAlone_clear_tf 3 _ _
    _ = runAlone 0 (nextLine [] s.ts.ctrl s.teStopped.tfStopped.tsStopped) :=
        hs.teStopped.tfStopped.runAlone_clear_ts 0 [] _
    _ = .next (s.teStopped.tfStopped.tsStopped.respond .done) := rfl

end Sys2Proof.Machine
end

section
/-! `CONFIGURE` (`46_driver.md` R118): its four writes lead to one state, and every read-back finds there what it asserts. -/

namespace Sys2Proof.Machine

/-- The registers after the writes of CONFIGURE at the maxima of R78: the RO and RW1C bits of the Encoder's CONTROL and the
Funnel's Empty as before, the Sink's Empty from `count`, the data and the counters untouched (R118). -/
def State.configured (s : State) : State :=
  { s with
    te := { ctrl := 0x05000005 ||| (s.te.ctrl &&& 0x00001008) }
    tf := { ctrl := 0x00000003 ||| (s.tf.ctrl &&& 0x00000008), dis := 0x00000000 }
    ts := { s.ts with ctrl := 0x00000003 ||| (if s.ts.count = 0 then 0x00000008 else 0x00000000) } }

/-- The Encoder's CONTROL after the write of CONFIGURE: bit 12 of the word written is 0, so the RW1C bit is kept. -/
theorem ctrlWrite_te_configure (old : Word) :
    ctrlWrite (teDesc FieldMax.full) old 0x05000005 = 0x05000005 ||| (old &&& 0x00001008) := by
  have hmax : ∀ f ∈ (teDesc FieldMax.full).fields, f.get 0x05000005 ≤ f.fmax := fun f hf =>
    get_le_fmax_full (d := teDesc FieldMax.full) (.head _) hf _
  have hactive : ¬ 0x05000005 &&& (teDesc FieldMax.full).active = 0 := by decide
  have hrw : 0x05000005 &&& (teDesc FieldMax.full).rwMask = 0x05000005 := by decide
  have hclear : ~~~(0x05000005 &&& (teDesc FieldMax.full).w1cMask) = BitVec.allOnes 32 := by decide
  rw [(descFits_te (by decide)).ctrlWrite_eq_of_le_fmax old hmax, if_neg hactive, hrw, hclear, BitVec.and_allOnes,
    BitVec.or_comm]
  rfl

/-- The Funnel's CONTROL after the write of CONFIGURE. -/
theorem ctrlWrite_tf_configure (old : Word) : ctrlWrite tfDesc old 0x00000003 = 0x00000003 ||| (old &&& 0x00000008) := by
  rw [ctrlWrite_tf_eq, if_neg (by decide), BitVec.or_comm]
  rfl

/-- The Sink after the write of CONFIGURE, which is no master reset. -/
theorem tsControlWrite_configure {s : State} (hfull : s.cfg.fmax = FieldMax.full) :
    tsControlWrite 0x00000003 s = { s with ts := s.configured.ts } := by
  rcases tsControlWrite_cases 0x00000003 s with ⟨hv, -⟩ | ⟨hv, hwrite⟩
  · cases hv
  · rw [hwrite, hfull, setEmpty_ctrlWrite_ts_full _ hv]
    rfl

/-- The four writes of CONFIGURE, in their order. -/
theorem configure_writes {s : State} (hfull : s.cfg.fmax = FieldMax.full) :
    teControlWrite 0x05000005 (tfDisInputWrite 0x00000000 (tfControlWrite 0x00000003 (tsControlWrite 0x00000003 s))) =
      s.configured := by
  rw [tsControlWrite_configure hfull, tfControlWrite, ctrlWrite_tf_configure, tfDisInputWrite_eq, teControlWrite]
  dsimp only
  rw [hfull, ctrlWrite_te_configure]
  rfl

/-- In the configured state Empty tracks `count`, so the read-back of the Sink's CONTROL changes nothing. -/
theorem tsControlRead_configured (s : State) : tsControlRead s.configured = (s.configured.ts.ctrl, s.configured) := by
  have hempty : s.configured.ts.ctrl.getLsbD 3 = decide (s.ts.count = 0) := by
    by_cases hcount : s.ts.count = 0 <;> simp [State.configured, hcount]
  have hsink : s.configured.ts.recomputeEmpty = s.configured.ts := by
    show { s.configured.ts with ctrl := setBit s.configured.ts.ctrl maskEmpty (decide (s.ts.count = 0)) } = _
    rw [setBit_empty_same hempty]
  rw [tsControlRead, hsink]

/-- What a read-back asserts of a register that was written and the bits it kept: bits outside the asserted mask do not matter. -/
theorem or_and_mask_eq {v kept m expected : Word} (hv : v &&& m = expected) (hkept : kept &&& m = 0#32) :
    (v ||| kept) &&& m = expected := by
  rw [BitVec.and_or_distrib_right, hv, hkept, BitVec.or_zero]

/-- Bits kept by one mask are outside a mask disjoint from it. -/
theorem and_and_eq_zero_of_disjoint {k m : Word} (h : k &&& m = 0#32) (w : Word) : (w &&& k) &&& m = 0#32 := by
  rw [BitVec.and_assoc, h, BitVec.and_zero]

/-- A line that asserts, with what follows it, when its assertion holds. -/
theorem runAlone_readBack {fuel : Nat} {a m expected x c : Word} {rest : List Line} {s t : State}
    (h : busLoad a s = some (x, t)) (hx : x &&& m = expected) :
    runAlone (fuel + 1) (.going (.lines (.readBack a m expected) rest c) s) = runAlone fuel (nextLine rest c t) := by
  simp only [runAlone, Sequence.advance, performLine, h, hx, if_true]

/-- The four read-backs of CONFIGURE: in the configured state every assertion holds and nothing changes. -/
theorem configure_readBacks {s : State} {c : Config} (hs : s.configured.cfg = c) (hc : c.wf = true) (w : Word) :
    runAlone 4 (.going (.lines (.readBack (tsAddr c offControl) 0x00000003 0x00000003)
      [.readBack (tfAddr c offControl) 0x00000003 0x00000003, .readBack (tfAddr c offDisInput) 0xFFFFFFFF 0x00000000,
       .readBack (teAddr c offControl) 0x07000005 0x05000005] w) s.configured) = .next (s.configured.respond .done) := by
  have hts : s.configured.ts.ctrl &&& 0x00000003 = 0x00000003 := or_and_mask_eq (by decide) (by split <;> decide)
  have htf : s.configured.tf.ctrl &&& 0x00000003 = 0x00000003 :=
    or_and_mask_eq (by decide) (and_and_eq_zero_of_disjoint (by decide) _)
  have hdis : s.configured.tf.dis &&& 0xFFFFFFFF = 0x00000000 := BitVec.zero_and
  have hte : s.configured.te.ctrl &&& 0x07000005 = 0x05000005 :=
    or_and_mask_eq (by decide) (and_and_eq_zero_of_disjoint (by decide) _)
  calc _ = runAlone 3 (nextLine _ w s.configured) :=
        runAlone_readBack ((busLoad_ts hs hc).trans (congrArg some (tsControlRead_configured s))) hts
    _ = runAlone 2 (nextLine _ w s.configured) := runAlone_readBack (busLoad_tf hs hc) htf
    _ = runAlone 1 (nextLine _ w s.configured) := runAlone_readBack (busLoad_dis hs hc) hdis
    _ = runAlone 0 (nextLine [] w s.configured) := runAlone_readBack (busLoad_te hs hc) hte
    _ = .next (s.configured.respond .done) := rfl

/-- Settles O49: the four writes in their order, then the four read-backs. -/
theorem configureAlwaysSucceeds : Obligations.ConfigureAlwaysSucceeds := by
  intro s hc hfull
  have hts : (tsControlWrite 0x00000003 s).cfg = s.cfg := tsControlWrite_cfg _ s
  have htf : (tfControlWrite 0x00000003 (tsControlWrite 0x00000003 s)).cfg = s.cfg := hts
  have hdis : (tfDisInputWrite 0x00000000 (tfControlWrite 0x00000003 (tsControlWrite 0x00000003 s))).cfg = s.cfg := hts
  calc exec .configure s
      = runAlone 7 (nextLine _ 0 (tsControlWrite 0x00000003 s)) := runAlone_write (busStore_ts rfl hc _)
    _ = runAlone 6 (nextLine _ 0 (tfControlWrite 0x00000003 _)) := runAlone_write (busStore_tf hts hc _)
    _ = runAlone 5 (nextLine _ 0 (tfDisInputWrite 0x00000000 _)) := runAlone_write (busStore_dis htf hc _)
    _ = runAlone 4 (nextLine _ 0 (teControlWrite 0x05000005 _)) := runAlone_write (busStore_te hdis hc _)
    _ = runAlone 4 (nextLine _ 0 s.configured) := congrArg (fun u => runAlone 4 (nextLine _ 0 u)) (configure_writes hfull)
    _ = .next (s.configured.respond .done) := configure_readBacks rfl hc 0

end Sys2Proof.Machine
end

section
/-! `FETCH` (`46_driver.md` R121): the loop collects the same words whatever it has collected before, one turn of it, and its net
effect on an aligned buffer that is not full. -/

namespace Sys2Proof.Machine

/-- A read of DATA neither reads nor changes the reported outcome. -/
theorem tsDataRead_respond (s : State) (r : Response) :
    tsDataRead (s.respond r) = ((tsDataRead s).1, (tsDataRead s).2.respond r) := by
  rcases tsDataRead_cases s with ⟨hc, e⟩ | ⟨hc, e⟩ <;> rw [e]
  · exact if_pos hc
  · exact if_neg (Nat.not_lt.2 hc)

/-- The loop of FETCH ends with the words it collects from here on, appended to those it is given: neither these nor the outcome
reported before change what it does. -/
theorem runAlone_fetch_append (n : Nat) : ∀ {s : State}, s.cfg.wf = true →
    ∃ (u : State) (new : List Word), ∀ r ws,
      runAlone (3 * n) (fetchFrom n ws (s.respond r)) = .next (u.respond (.words (ws ++ new))) := by
  induction n with
  | zero => exact fun {s} _ => ⟨s, [], fun _ ws => by rw [List.append_nil]; rfl⟩
  | succ n ih =>
    intro s hc
    by_cases heq : cursorWord s.ts.wp = cursorWord s.ts.rp
    · refine ⟨s, [], fun r ws => ?_⟩
      rw [runAlone_fetch_succ (s := s.respond r) hc, State.respond_ts, if_pos heq, List.append_nil]
      rfl
    · obtain ⟨u, new, hrest⟩ := ih (s := (tsDataRead s).2) (by rwa [tsDataRead_cfg])
      refine ⟨u, (tsDataRead s).1 :: new, fun r ws => ?_⟩
      rw [runAlone_fetch_succ (s := s.respond r) hc, State.respond_ts, if_neg heq, tsDataRead_respond, hrest,
        List.append_assoc]
      rfl

/-- Settles O52: the turn of the loop, and after it the loop with one word collected already. -/
theorem fetchUnrollsByOneWord : Obligations.FetchUnrollsByOneWord := by
  intro s n hc
  have hturn : exec (.fetch (n + 1)) s = _ := runAlone_fetch_succ hc n []
  refine ⟨rfl, fun heq => ?_, fun hne => ?_⟩
  · rw [hturn, if_pos heq]
    rfl
  · obtain ⟨u, ws, hrest⟩ := runAlone_fetch_append n (s := (tsDataRead s).2) (by rwa [tsDataRead_cfg])
    refine ⟨(tsDataRead s).2.respond (.word (tsDataRead s).1), u.respond (.words ws), (tsDataRead s).1, ws,
      rfl, rfl, hrest _ [], rfl, ?_⟩
    rw [hturn, if_neg hne]
    exact hrest (tsDataRead s).2.response [(tsDataRead s).1]

/-- The Sink after `k` pops in a row, of four live bytes each (R109). -/
def Sink.popWords (cap k : Nat) (ts : Sink) : Sink :=
  { ts with
    rp := (ts.rp + 4 * k) % cap
    count := ts.count - 4 * k
    ctrl := (ts.ctrl &&& ~~~0x00000008) ||| (if ts.count - 4 * k = 0 then 0x00000008 else 0x00000000) }

/-- No pop changes nothing: Empty tracks `count` already. -/
theorem Sink.Inv.popWords_zero {c : Config} {ts : Sink} (h : Sink.Inv c ts) : ts.popWords c.cap 0 = ts := by
  have hctrl : setBit ts.ctrl maskEmpty (decide (ts.count = 0)) = ts.ctrl := congrArg Sink.ctrl h.recomputeEmpty_eq
  rw [setBit_empty_decide] at hctrl
  rw [Sink.popWords, Nat.mul_zero, Nat.add_zero, Nat.sub_zero, Nat.mod_eq_of_lt h.rpLt, hctrl]

/-- One pop and then `k` more are `k + 1` pops. -/
theorem Sink.popWords_pop (cap k : Nat) (ts : Sink) : (ts.pop cap).popWords cap k = ts.popWords cap (k + 1) := by
  have hrp : ((ts.rp + 4) % cap + 4 * k) % cap = (ts.rp + 4 * (k + 1)) % cap := by
    rw [Nat.mod_add_mod]; congr 1; omega
  have hcount : ts.count - 4 - 4 * k = ts.count - 4 * (k + 1) := by omega
  have hctrl (b : Bool) : setBit (ts.pop cap).ctrl maskEmpty b = setBit ts.ctrl maskEmpty b := setBit_setBit_empty _ _ _
  simp only [Sink.popWords, ← setBit_empty_decide, hctrl, Sink.pop_buf, Sink.pop_wp, Sink.pop_rp, Sink.pop_count,
    Sink.pop_dropped, hrp, hcount]

/-- On an aligned ring that is not full the cursor registers are equal exactly when no whole word is live (R107, R108, R27). -/
theorem State.Inv.cursorWord_eq_iff {s : State} (h : s.Inv) (hcap : 4 ∣ s.cfg.cap) (hfull : s.ts.count ≠ s.cfg.cap) :
    cursorWord s.ts.wp = cursorWord s.ts.rp ↔ s.ts.count < 4 := by
  have hrpLt := h.sink.rpLt
  have hcountLe := h.sink.countLe
  have hrp : 4 ∣ s.ts.rp := h.sink.rpAligned hcap
  rw [← BitVec.toNat_inj, cursorWord_toNat h.wp_lt_word, cursorWord_toNat_of_dvd h.rp_lt_word hrp]
  rcases Nat.lt_or_ge (s.ts.rp + s.ts.count) s.cfg.cap with hlt | hge
  · have hwp : s.ts.wp = s.ts.rp + s.ts.count := by rw [← h.sink.cursors, Nat.mod_eq_of_lt hlt]
    omega
  · have hwp : s.ts.wp = s.ts.rp + s.ts.count - s.cfg.cap := by
      rw [← h.sink.cursors, Nat.mod_eq_sub_mod hge, Nat.mod_eq_of_lt (by omega)]
    omega

/-- The loop of FETCH on an aligned ring that is not full: it pops as many words as the budget and the live data allow, and no
read of DATA is short (R121). -/
theorem runAlone_fetch_popWords (n : Nat) : ∀ {s : State} (ws : List Word), s.Inv → 4 ∣ s.cfg.cap → s.ts.count ≠ s.cfg.cap →
    ∃ new, runAlone (3 * n) (fetchFrom n ws s) =
        .next (({ s with ts := s.ts.popWords s.cfg.cap new.length } : State).respond (.words (ws ++ new))) ∧
      new.length = min n (s.ts.count / 4) := by
  induction n with
  | zero =>
    intro s ws hs _ _
    refine ⟨[], ?_, by simp⟩
    rw [List.length_nil, hs.sink.popWords_zero, List.append_nil]
    rfl
  | succ n ih =>
    intro s ws hs hcap hfull
    have hdrained := hs.cursorWord_eq_iff hcap hfull
    rw [runAlone_fetch_succ hs.cfg]
    rcases tsDataRead_cases s with ⟨hlt, -⟩ | ⟨hge, hread⟩
    · refine ⟨[], ?_, by rw [List.length_nil]; omega⟩
      rw [if_pos (hdrained.2 hlt), List.length_nil, hs.sink.popWords_zero, List.append_nil]
    · have hle := hs.sink.countLe
      have hnotFull : (s.ts.pop s.cfg.cap).count ≠ s.cfg.cap := by rw [Sink.pop_count]; omega
      obtain ⟨new, hrest, hlength⟩ := ih (ws ++ [s.ts.frontWord s.cfg.cap]) (hs.withSink (hs.sink.pop hge)) hcap hnotFull
      refine ⟨s.ts.frontWord s.cfg.cap :: new, ?_, ?_⟩
      · rw [if_neg fun heq => Nat.not_lt.2 hge (hdrained.1 heq), hread, hrest, Sink.popWords_pop, List.append_assoc]
        rfl
      · rw [List.length_cons, hlength, Sink.pop_count]
        omega

/-- Settles O53: the end state is that of the pops, and by the conservation law of FETCH the words are the live bytes removed. -/
theorem fetchReturnsLiveWords : Obligations.FetchReturnsLiveWords := by
  intro s n hs hcap hfull
  obtain ⟨ws, hrun, hlength⟩ := runAlone_fetch_popWords n [] hs hcap hfull
  obtain ⟨new, hres, -, hlive⟩ := runAlone_fetch_live n hs.cfg hs.sink.rpLt hrun
  obtain rfl : ws = new := Response.words.inj hres
  have hpopped : (s.ts.count - (s.ts.popWords s.cfg.cap ws.length).count) / 4 = ws.length := by
    rw [Sink.popWords]; dsimp only; omega
  rw [State.respond_ts, hpopped, List.take_length] at hlive
  refine ⟨_, ws, hrun, rfl, hlength, ?_, ?_⟩ <;> rw [← hlive]
  · exact (List.take_left' (length_flatMap_le32 ws)).symm
  · exact (List.drop_left' (length_flatMap_le32 ws)).symm

end Sys2Proof.Machine
end

section
/-! The outcomes of the operations (`60_exceptions.md` R126, R136). A bus operation is split on whether its address resolves; a
driver sequence completes because every line of it goes on or ends, whatever the line meets. -/

namespace Sys2Proof.Machine

section
variable {s : State} {a : Word}

/-- `RangeError` is the reported outcome and nothing else (R126, R134). -/
theorem raiseRangeError_eq (a : Word) (s : State) : raiseRangeError a s = .next { s with response := .rangeError a } := rfl

/-- A bus read of an address that no mapping contains raises `RangeError` (R67). -/
theorem exec_busRead_of_resolve_none (h : resolve s.cfg a = none) : exec (.busRead a) s = raiseRangeError a s := by
  rw [show exec (.busRead a) s = execBusRead a s from rfl, execBusRead, h]

/-- A bus write to an address that no mapping contains raises `RangeError` (R68). -/
theorem exec_busWrite_of_resolve_none (v : Word) (h : resolve s.cfg a = none) :
    exec (.busWrite a v) s = raiseRangeError a s := by
  rw [show exec (.busWrite a v) s = execBusWrite a v s from rfl, execBusWrite, h]

/-- The row BUS.RANGE_ERROR at an address that no mapping contains raises `RangeError`, in either direction (R126). -/
theorem exec_busRangeError_of_resolve_none (dir : Dir) (h : resolve s.cfg a = none) :
    exec (.busRangeError dir a) s = raiseRangeError a s := by
  rw [show exec (.busRangeError dir a) s = execBusRangeError dir a s from rfl, execBusRangeError, h]

end

/-- Settles O16: without a mapping each of the three operations raises the error; with one, read and write are the device mux
and end with its word and normally. -/
theorem rangeErrorExactlyWhenUnmapped : Obligations.RangeErrorExactlyWhenUnmapped := by
  intro s a v dir
  refine ⟨fun hnone => ?_, fun hmapped => ?_⟩
  · rw [← raiseRangeError_eq a s]
    exact ⟨exec_busRead_of_resolve_none hnone, exec_busWrite_of_resolve_none v hnone,
      exec_busRangeError_of_resolve_none dir hnone⟩
  · obtain ⟨⟨d, off⟩, hsome⟩ := Option.ne_none_iff_exists'.1 hmapped
    exact ⟨⟨_, _, exec_busRead_of_resolve hsome, rfl⟩, ⟨_, exec_busWrite_of_resolve v hsome, rfl⟩⟩

/-- A bus read ends with a word or with `RangeError` of its address (R136). -/
theorem exec_busRead_completes (a : Word) (s : State) :
    ∃ t, exec (.busRead a) s = .next t ∧ ((∃ w, t.response = .word w) ∨ t.response = .rangeError a) := by
  cases h : resolve s.cfg a with
  | none => exact ⟨_, exec_busRead_of_resolve_none h, .inr rfl⟩
  | some p => exact ⟨_, exec_busRead_of_resolve h, .inl ⟨_, rfl⟩⟩

/-- A bus write ends normally or with `RangeError` of its address (R136). -/
theorem exec_busWrite_completes (a v : Word) (s : State) :
    ∃ t, exec (.busWrite a v) s = .next t ∧ (t.response = .done ∨ t.response = .rangeError a) := by
  cases h : resolve s.cfg a with
  | none => exact ⟨_, exec_busWrite_of_resolve_none v h, .inr rfl⟩
  | some p => exact ⟨_, exec_busWrite_of_resolve v h, .inl rfl⟩

/-- A driver sequence never stops the machine: `RangeError` and a failed assertion end it with an outcome (R117, R122). -/
theorem runAlone_completes (fuel : Nat) : ∀ p : Progress, ∃ t, runAlone fuel p = .next t := by
  induction fuel with
  | zero =>
    intro p
    cases p with
    | ended r s => exact ⟨_, runAlone_ended 0 r s⟩
    | going q s => exact ⟨_, rfl⟩
  | succ fuel ih =>
    intro p
    cases p with
    | ended r s => exact ⟨_, runAlone_ended (fuel + 1) r s⟩
    | going q s => exact ih (q.advance s)

/-- Every operation answers a next state, but for the row BUS.RANGE_ERROR: a device operation ends with a word or normally by its
definition, a bus operation whether its address resolves or not, a driver sequence as `runAlone_completes` says. -/
theorem exec_completes {i : Instr} (hi : ∀ dir a, i ≠ .busRangeError dir a) (s : State) : ∃ t, exec i s = .next t := by
  cases i with
  | busRangeError dir a => exact absurd rfl (hi dir a)
  | busRead a =>
    obtain ⟨t, ht, -⟩ := exec_busRead_completes a s
    exact ⟨t, ht⟩
  | busWrite a v =>
    obtain ⟨t, ht, -⟩ := exec_busWrite_completes a v s
    exact ⟨t, ht⟩
  | configure | start | stop | fetch => exact runAlone_completes _ _
  | teControlRd | teControlWr | teInvalidRd | teInvalidWr | emit
  | tfControlRd | tfControlWr | tfDisInputRd | tfDisInputWr | tfInvalidRd | tfInvalidWr | tfPush
  | tsControlRd | tsControlWr | tsWpLowRd | tsWpLowWr | tsRpLowRd | tsRpLowWr | tsDataRd | tsDataWr
  | tsInvalidRd | tsInvalidWr | tsPush => exact ⟨_, rfl⟩

/-- Settles O21: the outcomes of the bus operations by resolution; an emission and a push end normally by their rows. -/
theorem everyOperationCompletes : Obligations.EveryOperationCompletes := fun s =>
  ⟨fun a => exec_busRead_completes a s,
   fun a v => exec_busWrite_completes a v s,
   fun pc op => ⟨_, exec_emit pc op s, rfl⟩,
   fun data => ⟨_, exec_tfPush data s, rfl⟩,
   fun data => ⟨_, exec_tsPush data s, rfl⟩,
   fun _ hi => exec_completes hi s⟩

end Sys2Proof.Machine
end

section
/-! The master resets against construction (`70_reset_and_hazards.md` R142) and `FETCH` on a full buffer (R146). -/

namespace Sys2Proof.Machine

/-- Settles O57: with Active = 0 each write is its register's master reset. -/
theorem masterResetAgainstConstruction : Obligations.MasterResetAgainstConstruction := by
  intro s v hv
  have hte : exec (.teControlWr v) s = .next ((teControlWrite v s).respond .done) := rfl
  have hdeact : (State.construct s.cfg).te.ctrl ||| 0x00000008 = (teDesc s.cfg.fmax).deact := BitVec.zero_or
  refine ⟨?_, ?_, ?_⟩
  · rw [hte, teControlWrite, ctrlWrite_inactive rfl hv, hdeact]
    rfl
  · rw [exec_tfControlWr, tfControlWrite, ctrlWrite_inactive rfl hv]
    rfl
  · rw [exec_tsControlWr]
    rcases tsControlWrite_cases v s with ⟨-, hwrite⟩ | ⟨hactive, -⟩
    · rw [hwrite]
      rfl
    · rw [hv] at hactive
      cases hactive

/-- On a full buffer the cursors meet, as on an empty one (R27). -/
theorem Sink.Inv.wp_eq_rp_of_full {c : Config} {ts : Sink} (h : Sink.Inv c ts) (hfull : ts.count = c.cap) : ts.wp = ts.rp := by
  rw [← h.cursors]
  exact (ringIndex_eq_self_iff h.rpLt h.countLe).2 (.inr hfull)

/-- Settles O54: the first comparison of the loop finds the cursors equal. -/
theorem fetchOnFullBufferReturnsNothing : Obligations.FetchOnFullBufferReturnsNothing := by
  intro s n hs hfull
  cases n with
  | zero => rfl
  | succ n =>
    have hturn : exec (.fetch (n + 1)) s = _ := runAlone_fetch_succ hs.cfg n []
    rw [hturn, if_pos (congrArg cursorWord (hs.sink.wp_eq_rp_of_full hfull))]
    rfl

end Sys2Proof.Machine
end

section
/-! One step for each kind of turn that falls between the lines of a driver sequence (`20_memory.md` R47): the next line of the
sequence, and a whole operation of another agent. -/

namespace Sys2Proof.Machine

/-- What an operation changes does not include the schedule. -/
theorem Move.schedule_eq {i : Instr} {s t : State} (m : Move i s t) : t.pending = s.pending ∧ t.running = s.running := by
  cases m with
  | tfDis v => rw [tfDisInputWrite_eq]; exact ⟨rfl, rfl⟩
  | tsWrite v => rcases tsControlWrite_cases v s with ⟨-, e⟩ | ⟨-, e⟩ <;> rw [e] <;> exact ⟨rfl, rfl⟩
  | _ => exact ⟨rfl, rfl⟩

/-- No operation takes a turn off the queue or touches a sequence in progress. -/
theorem exec_schedule {i : Instr} {s t : State} (h : exec i s = .next t) : t.pending = s.pending ∧ t.running = s.running :=
  (exec_moves h).keeps (P := fun u => u.pending = s.pending ∧ u.running = s.running)
    (fun _ _ m ⟨hp, hr⟩ => let ⟨hp', hr'⟩ := m.schedule_eq; ⟨hp'.trans hp, hr'.trans hr⟩) ⟨rfl, rfl⟩

/-- A run from its first step on. -/
theorem runSteps_of_step {s x : State} (h : step s = .next x) (n : Nat) : runSteps (n + 1) s = runSteps n x := by
  rw [runSteps, h]
  rfl

theorem runSteps_one (s : State) : runSteps 1 s = step s := by
  rw [runSteps]
  cases step s <;> rfl

/-- A run up to its last step. -/
theorem runSteps_succ_of_next : ∀ {n : Nat} {s x : State}, runSteps n s = .next x → runSteps (n + 1) s = step x := by
  intro n
  induction n with
  | zero => rintro s x ⟨⟩; exact runSteps_one s
  | succ n ih =>
    intro s x h
    cases hstep : step s with
    | next u =>
      rw [runSteps_of_step hstep] at h ⊢
      exact ih h
    | fault r => rw [runSteps, hstep] at h; cases h
    | refused r => rw [runSteps, hstep] at h; cases h

section
variable {s : State} {rest : List Turn}

/-- The invariants do not speak of the queue. -/
theorem State.Inv.withPending (h : s.Inv) (p : List Turn) : State.Inv { s with pending := p } := { h with }

/-- Under the invariants a step performs the oldest turn. -/
theorem State.Inv.step_eq (h : s.Inv) {u : Turn} (hp : s.pending = u :: rest) :
    step s = performTurn u { s with pending := rest } := by
  have hring : ringInRange s.cfg s.ts = true := by simp [ringInRange, h.sink.wpLt, h.sink.rpLt, h.sink.countLe]
  rw [step, if_pos h.cfg, if_pos hring, hp]

/-- The turn of a whole operation. -/
theorem State.Inv.step_operation (h : s.Inv) {f : Frame} {i : Instr} (hp : s.pending = .operation f :: rest)
    (hf : decode f = .ok i) : step s = exec i { s with pending := rest } := by
  rw [h.step_eq hp, performTurn, hf]

/-- The turn of a line after which the sequence goes on. -/
theorem State.Inv.step_line_going (h : s.Inv) {k : Nat} {q q' : Sequence} {t : State} (hp : s.pending = .line k :: rest)
    (hq : s.running[k]? = some q) (ha : q.advance { s with pending := rest } = .going q' t) :
    step s = .next { t with running := t.running.set k q' } := by
  rw [h.step_eq hp, performTurn, lineTurn, hq]
  dsimp only
  rw [ha]

/-- The turn of a line that ends its sequence. -/
theorem State.Inv.step_line_ended (h : s.Inv) {k : Nat} {q : Sequence} {r : Response} {t : State}
    (hp : s.pending = .line k :: rest) (hq : s.running[k]? = some q)
    (ha : q.advance { s with pending := rest } = .ended r t) :
    step s = .next ({ t with running := t.running.eraseIdx k }.respond r) := by
  rw [h.step_eq hp, performTurn, lineTurn, hq]
  dsimp only
  rw [ha]

end

end Sys2Proof.Machine
end

section
/-! The write-back of a read-modify-write to a register that has changed since it was read (`70_reset_and_hazards.md` R150). -/

namespace Sys2Proof.Machine

/-- Empty taken from another word, as the statements write it. -/
theorem setBit_empty_getLsbD_three (v w : Word) :
    setBit v maskEmpty (w.getLsbD 3) = (v &&& ~~~0x00000008) ||| (w &&& 0x00000008) := by
  have hempty : w &&& 0x00000008 = if w.getLsbD 3 then 0x00000008 else 0x00000000 := BitVec.and_twoPow w 3
  rw [hempty, ← setBit_empty_decide, Bool.decide_eq_true]

/-- Empty is changed and Enable is changed: the order does not matter. -/
theorem EnableUpdate.apply_setBit_empty (u : EnableUpdate) (c : Word) (b : Bool) :
    u.apply (setBit c maskEmpty b) = setBit (u.apply c) maskEmpty b := by
  refine word_ext fun i hi => ?_
  rw [setBit_empty_getLsbD]
  by_cases hi1 : i = 1
  · subst hi1
    cases u <;> simp [apply, maskEnable]
  · rw [u.apply_getLsbD_ne _ hi1, u.apply_getLsbD_ne _ hi1, setBit_empty_getLsbD]

/-- In a register whose one RO bit is Empty a write over two old values that agree on the RW1C bits leaves the same but for
Empty, which the write keeps. -/
theorem DescFits.ctrlWrite_over {d : Desc} (hd : DescFits d) (hro : d.roMask = maskEmpty) {old old' v : Word}
    (hv : v.getLsbD 0 = true) (hw1c : old &&& d.w1cMask = old' &&& d.w1cMask) :
    ctrlWrite d old v = setBit (ctrlWrite d old' v) maskEmpty (old.getLsbD 3) := by
  refine word_ext fun i hi => ?_
  rw [setBit_empty_getLsbD]
  split
  · rename_i hi3
    subst hi3
    exact getLsbD_eq_of_and_eq (hd.ctrlWrite_and_ro old hv) (by rw [hro]; rfl)
  · rename_i hi3
    by_cases hout : OutsideFields d.fields i
    · have hroi : d.roMask.getLsbD i = false := by rw [hro, maskEmpty_eq, BitVec.getLsbD_twoPow]; simp [Ne.symm hi3]
      rw [hd.ctrlWrite_getLsbD hi hout old hv, hd.ctrlWrite_getLsbD hi hout old' hv, hroi]
      cases hc : d.w1cMask.getLsbD i
      · simp
      · rw [getLsbD_eq_of_and_eq hw1c hc]
    · obtain ⟨f, hf, hfi⟩ := (not_outsideFields_iff _ _).1 hout
      exact Field.getLsbD_eq_of_get_eq (hd.inWord f hf) ((hd.writeGet old v hv f hf).trans (hd.writeGet old' v hv f hf).symm) hfi

/-- A read-modify-write of Enable whose write-back comes to a register that has changed since it was read: the register ends as
computed from the word read, but for Empty; a word read as Inactive is a master reset (R150). -/
theorem DescFits.ctrlWrite_stale {d : Desc} (hd : DescFits d) (hro : d.roMask = maskEmpty) (hrw : d.rwMask.getLsbD 1 = true)
    (hout : OutsideFields d.fields 1) {c old : Word} (hlegal : CtrlLegal d c) (hc : c &&& d.w1cMask = 0)
    (hold : old &&& d.w1cMask = 0) (u : EnableUpdate) : ctrlWrite d old (u.apply c) =
      if c.getLsbD 0 then setBit (u.apply c) maskEmpty (old.getLsbD 3) else d.deact := by
  have happly : (u.apply c).getLsbD 0 = c.getLsbD 0 := u.apply_getLsbD_ne c (by decide)
  cases hactive : c.getLsbD 0
  · exact ctrlWrite_inactive hd.active (happly.trans hactive) old
  · rw [hd.ctrlWrite_over hro (happly.trans hactive) (hold.trans hc.symm),
      hd.ctrlWrite_enableUpdate hrw hout hlegal hactive hc]
    rfl

section
variable {s x : State}

/-- The write-back to the Encoder, in `x`, of the word read in `s`. -/
theorem teControlWrite_stale (hs : s.Inv) (hx : x.Inv) (hcfg : x.cfg = s.cfg) (u : EnableUpdate) :
    (teControlWrite (u.apply s.te.ctrl) x).te.ctrl =
    if s.te.ctrl.getLsbD 0 then setBit (u.apply s.te.ctrl) maskEmpty (x.te.ctrl.getLsbD 3) else 0x00000008 := by
  have hw1c {y : State} (hy : y.Inv) : y.te.ctrl &&& maskInstStallOrOverflow = 0 := by
    simpa [bitOn] using hy.teNoOverflow
  have hout : OutsideFields (teDesc s.cfg.fmax).fields 1 := by
    simp [OutsideFields, teDesc, fieldInstMode, fieldInstSyncMode, fieldInstSyncMax, fieldFormat]
  rw [teControlWrite_te, hcfg]
  exact (descFits_te hs.fmax_wf).ctrlWrite_stale rfl (by simp [teDesc]) hout hs.teLegal (hw1c hs) (hw1c hx) u

/-- The write-back to the Funnel: Empty is 0 in both states. -/
theorem tfControlWrite_stale (hs : s.Inv) (hx : x.Inv) (u : EnableUpdate) : (tfControlWrite (u.apply s.tf.ctrl) x).tf.ctrl =
    if s.tf.ctrl.getLsbD 0 then u.apply s.tf.ctrl else 0x00000000 := by
  have hempty {y : State} (hy : y.Inv) : y.tf.ctrl.getLsbD 3 = false := (bitOn_empty _).symm.trans hy.tfNotEmpty
  have hkept : (u.apply s.tf.ctrl).getLsbD 3 = false := (u.apply_getLsbD_ne _ (by decide)).trans (hempty hs)
  rw [tfControlWrite_tf, descFits_tf.ctrlWrite_stale rfl rfl nofun hs.tfLegal BitVec.and_zero BitVec.and_zero,
    hempty hx, setBit_empty_same hkept]
  rfl

/-- The write-back to the Sink, where Empty is recomputed. -/
theorem tsControlWrite_stale (hs : s.Inv) (hcfg : x.cfg = s.cfg) (u : EnableUpdate) : (tsControlWrite (u.apply s.ts.ctrl) x).ts =
    if s.ts.ctrl.getLsbD 0 then { x.ts with ctrl := setBit (u.apply s.ts.ctrl) maskEmpty (decide (x.ts.count = 0)) }
    else Sink.cleared x.ts.dropped := by
  have happly : (u.apply s.ts.ctrl).getLsbD 0 = s.ts.ctrl.getLsbD 0 := u.apply_getLsbD_ne _ (by decide)
  have hout : OutsideFields (tsDesc s.cfg.fmax).fields 1 := by
    simp [OutsideFields, tsDesc, fieldMemFormat, fieldAsyncFreq]
  rcases tsControlWrite_cases (u.apply s.ts.ctrl) x with ⟨hv, hwrite⟩ | ⟨hv, hwrite⟩ <;>
    rw [hwrite, ← happly, hv]
  · rfl
  · rw [happly] at hv
    rw [hcfg, (descFits_ts hs.fmax_wf).ctrlWrite_stale rfl (by simp [tsDesc]) hout hs.sink.legal BitVec.and_zero
      BitVec.and_zero, hv, if_pos rfl, setBit_setBit_empty]
    rfl

end

end Sys2Proof.Machine
end

section
/-! An emission between the lines of a driver sequence (`70_reset_and_hazards.md` R149, R150). -/

namespace Sys2Proof.Machine

/-- An emission changes no bit of the Encoder's CONTROL but Empty (R88). -/
theorem encoderEmit_te_ctrl (pc op : Word) (s : State) :
    ∃ b, (encoderEmit pc op s).te.ctrl = setBit s.te.ctrl maskEmpty b := by
  rcases encoderEmit_cases pc op s with ⟨-, h⟩ | ⟨-, h⟩ <;> rw [h]
  · obtain ⟨-, hte, -⟩ := funnelPush_frame (traceRecord pc op) { s with te := s.te.setEmpty false }
    exact ⟨false, by rw [hte, Encoder.setEmpty_ctrl]⟩
  · exact ⟨s.te.ctrl.getLsbD 3, (setBit_empty_same rfl).symm⟩

/-- Settles O56: the word written back and the register of the emission differ in Empty at most, which the write keeps. -/
theorem emissionCannotDisturbReadModifyWrite : Obligations.EmissionCannotDisturbReadModifyWrite := by
  rintro s t u c pc op hs hactive ⟨⟩ ⟨⟩ hemit
  have hu : u.Inv := exec_keeps_inv hemit { hs with }
  have hcfg : u.cfg = s.cfg := (exec_cfg hemit).trans rfl
  obtain ⟨b, hb⟩ : ∃ b, u.te.ctrl = setBit s.te.ctrl maskEmpty b := by
    cases hemit
    exact encoderEmit_te_ctrl pc op _
  have hwrite : (teControlWrite (EnableUpdate.set.apply s.te.ctrl) u).te.ctrl = EnableUpdate.set.apply u.te.ctrl := by
    rw [teControlWrite_stale hs hu hcfg, if_pos hactive, hb, EnableUpdate.apply_setBit_empty, setBit_empty_getLsbD, if_pos rfl]
  refine ⟨_, rfl, congrArg Encoder.mk hwrite, ?_⟩
  exact (congrArg (fun w => w.getLsbD 3) hwrite).trans (EnableUpdate.apply_getLsbD_ne _ _ (by decide))

/-- An emission leaves the read cursor (R88, R104). -/
theorem encoderEmit_rp {s : State} (h : s.Inv) (pc op : Word) : (encoderEmit pc op s).ts.rp = s.ts.rp := by
  have hsink (data : List Byte) : (sinkPush data s).ts.rp = s.ts.rp := by
    rcases sinkPush_cases data s with ⟨-, e⟩ | ⟨-, e⟩ <;> rw [e]
    · obtain ⟨-, -, hrp, -⟩ := Sink.storeAll_fields data h.sink.wpLt h.sink.countLe
      exact hrp
    · rfl
  rw [encoderEmit_ts]
  split
  · rcases funnelPush_ts (traceRecord pc op) s with e | e <;> rw [e]
    exact hsink _
  · rfl

/-- The turn of an emission. -/
theorem State.Inv.step_emission {s : State} (h : s.Inv) {f : Frame} {pc op : Word} {rest : List Turn}
    (hp : s.pending = .operation f :: rest) (hf : decode f = .ok (.emit pc op)) :
    ∃ t, step s = .next t ∧ t.Inv ∧ t.pending = rest ∧ t.running = s.running ∧ t.ts.rp = s.ts.rp ∧
      t.live = s.live ++ accepted (.emit pc op) s := by
  have hq : State.Inv { s with pending := rest } := h.withPending rest
  have hx := exec_emit pc op { s with pending := rest }
  obtain ⟨hpending, hrunning⟩ := exec_schedule hx
  refine ⟨_, (h.step_operation hp hf).trans hx, exec_keeps_inv hx hq, hpending, hrunning, encoderEmit_rp hq pc op, ?_⟩
  rw [← accepted_withPending _ s rest]
  exact encoderEmit_live hq.sink.ring pc op

section
variable {s : State} (h : s.Inv) {k more : Nat} {ws : List Word} {rest : List Turn} (hp : s.pending = .line k :: rest)
include h hp

/-- The turn of the `WP_LOW` read: the sequence keeps the word it read (R121). -/
theorem State.Inv.step_wpLow (hq : s.running[k]? = some (.fetch more ws .wpLow)) :
    step s = .next { s with
      pending := rest, running := s.running.set k (.fetch more ws (.rpLow (cursorWord s.ts.wp))) } := by
  have hline : Sequence.advance (.fetch more ws .wpLow) { s with pending := rest } =
      .going (.fetch more ws (.rpLow (cursorWord s.ts.wp))) { s with pending := rest } := by
    simp only [Sequence.advance, performFetch, busLoad_wp (s := { s with pending := rest }) rfl h.cfg]
    rfl
  exact h.step_line_going hp hq hline

/-- The turn of the `RP_LOW` read and the comparison with the word of the `WP_LOW` read (R121). -/
theorem State.Inv.step_rpLow {w : Word} (hq : s.running[k]? = some (.fetch more ws (.rpLow w))) :
    step s = .next (if w = cursorWord s.ts.rp
      then { s with pending := rest, running := s.running.eraseIdx k, response := .words ws }
      else { s with pending := rest, running := s.running.set k (.fetch more ws .data) }) := by
  have hline : Sequence.advance (.fetch more ws (.rpLow w)) { s with pending := rest } =
      if w = cursorWord s.ts.rp then .ended (.words ws) { s with pending := rest }
      else .going (.fetch more ws .data) { s with pending := rest } := by
    simp only [Sequence.advance, performFetch, busLoad_rp (s := { s with pending := rest }) rfl h.cfg]
    rfl
  split
  · rename_i heq
    exact h.step_line_ended hp hq (hline.trans (if_pos heq))
  · rename_i hne
    exact h.step_line_going hp hq (hline.trans (if_neg hne))

/-- The turn of the `DATA` read with four live bytes: the word collected is the oldest one (R109, R121). -/
theorem State.Inv.step_data (hq : s.running[k]? = some (.fetch more ws .data)) (hcount : 4 ≤ s.ts.count) :
    ∃ t w, step s = .next t ∧ le32 w = s.live.take 4 ∧ t.live = s.live.drop 4 ∧
      (more = 0 → t.response = .words (ws ++ [w]) ∧ t.running = s.running.eraseIdx k) ∧
      (∀ n, more = n + 1 → t.running = s.running.set k (.fetch n (ws ++ [w]) .wpLow)) := by
  have hread : tsDataRead { s with pending := rest } =
      (s.ts.frontWord s.cfg.cap, { s with pending := rest, ts := s.ts.pop s.cfg.cap }) := if_neg (Nat.not_lt.2 hcount)
  have hline : Sequence.advance (.fetch more ws .data) { s with pending := rest } =
      fetchFrom more (ws ++ [s.ts.frontWord s.cfg.cap]) { s with pending := rest, ts := s.ts.pop s.cfg.cap } := by
    simp only [Sequence.advance, performFetch, busLoad_data (s := { s with pending := rest }) rfl h.cfg, hread]
  have hword : le32 (s.ts.frontWord s.cfg.cap) = s.live.take 4 := Sink.le32_frontWord h.sink.rpLt hcount
  have hlive : (s.ts.pop s.cfg.cap).live s.cfg.cap = s.live.drop 4 := Sink.live_pop
  cases more with
  | zero => exact ⟨_, _, h.step_line_ended hp hq hline, hword, hlive, fun _ => ⟨rfl, rfl⟩, nofun⟩
  | succ n => exact ⟨_, _, h.step_line_going hp hq hline, hword, hlive, nofun, fun | _, rfl => rfl⟩

end

/-- Settles O59: the turns one by one; the emission moves neither the read cursor nor the sequence, and appends. -/
theorem emissionBetweenLinesOfFetch : Obligations.EmissionBetweenLinesOfFetch := by
  intro s f pc op k more ws rest hs hf
  refine ⟨fun hq hp => ?_, fun hq hcount hp => ?_⟩
  · have hwp := hs.step_wpLow hp hq
    obtain ⟨x, hemit, hx, hpending, hrunning, hrp, hlive⟩ :=
      State.Inv.step_emission (s := { s with
        pending := .operation f :: .line k :: rest
        running := s.running.set k (.fetch more ws (.rpLow (cursorWord s.ts.wp))) }) { hs with } rfl hf
    obtain ⟨hk, -⟩ := List.getElem?_eq_some_iff.1 hq
    have hqx : x.running[k]? = some (.fetch more ws (.rpLow (cursorWord s.ts.wp))) := by
      rw [hrunning]
      exact List.getElem?_set_self hk
    have hrun : runSteps 3 s = step x := by rw [runSteps_of_step hwp, runSteps_of_step hemit, runSteps_one]
    refine ⟨_, hrun.trans (hx.step_rpLow hpending hqx), ?_⟩
    rw [hrp, hrunning, List.eraseIdx_set_eq, List.set_set]
    split
    · rename_i heq
      exact ⟨hrp, hlive, fun _ => ⟨rfl, rfl⟩, fun hne => absurd heq hne⟩
    · rename_i hne
      exact ⟨hrp, hlive, fun heq => absurd heq hne, fun _ => rfl⟩
  · obtain ⟨x, hemit, hx, hpending, hrunning, -, hlive⟩ := hs.step_emission hp hf
    have hfour : 4 ≤ s.live.length := by rwa [State.live, Sink.live_length]
    have hcountx : 4 ≤ x.ts.count := by
      rw [← Sink.live_length x.cfg.cap, ← State.live, hlive, List.length_append]
      omega
    obtain ⟨t, w, hlast, hword, hrest, hend, hgo⟩ := hx.step_data hpending (hrunning ▸ hq) hcountx
    have hrun : runSteps 2 s = step x := by rw [runSteps_of_step hemit, runSteps_one]
    rw [hlive, List.take_append_of_le_length hfour] at hword
    rw [hlive, List.drop_append_of_le_length hfour] at hrest
    rw [hrunning] at hend hgo
    exact ⟨t, w, hrun.trans hlast, hword, hrest, hend, hgo⟩

end Sys2Proof.Machine
end

section
/-! Any operation between the read and the write-back of a read-modify-write, and the last read-back of `START`
(`70_reset_and_hazards.md` R150). -/

namespace Sys2Proof.Machine

/-- The turn of the line that reads the register (R119, R120). -/
theorem State.Inv.step_load {s : State} (h : s.Inv) {k : Nat} {a c w : Word} {l : Line} {ls : List Line} {rest : List Turn}
    (hp : s.pending = .line k :: rest) (hq : s.running[k]? = some (.lines (.load a) (l :: ls) c))
    (hload : busLoad a { s with pending := rest } = some (w, { s with pending := rest })) :
    step s = .next { s with pending := rest, running := s.running.set k (.lines l ls w) } := by
  have hline : Sequence.advance (.lines (.load a) (l :: ls) c) { s with pending := rest } =
      .going (.lines l ls w) { s with pending := rest } := by
    simp only [Sequence.advance, performLine, hload]
    rfl
  exact h.step_line_going hp hq hline

/-- The turn of the line that writes back: on the devices it does what its bus operation does, whether a line follows or not. -/
theorem State.Inv.step_update {s t : State} (h : s.Inv) {k : Nat} {a c : Word} {u : EnableUpdate} {ls : List Line}
    {rest : List Turn} (hp : s.pending = .line k :: rest) (hq : s.running[k]? = some (.lines (.update a u) ls c))
    (hstore : busStore a (u.apply c) { s with pending := rest } = some t) :
    ∃ t', step s = .next t' ∧ t'.te = t.te ∧ t'.tf = t.tf ∧ t'.ts = t.ts := by
  have hline : Sequence.advance (.lines (.update a u) ls c) { s with pending := rest } = nextLine ls c t := by
    simp only [Sequence.advance, performLine, hstore]
  cases ls with
  | nil => exact ⟨_, h.step_line_ended hp hq hline, rfl, rfl, rfl⟩
  | cons l ls => exact ⟨_, h.step_line_going hp hq hline, rfl, rfl, rfl⟩

/-- Where the read and one operation of another agent lead, when they lead on: the write-back comes next, with the word read. -/
theorem State.Inv.load_then_operation {s x : State} (h : s.Inv) {k : Nat} {a c w : Word} {l : Line} {ls : List Line}
    {f : Frame} {rest : List Turn} (hp : s.pending = .line k :: .operation f :: rest)
    (hq : s.running[k]? = some (.lines (.load a) (l :: ls) c))
    (hload : busLoad a { s with pending := .operation f :: rest } = some (w, { s with pending := .operation f :: rest }))
    (hx : runSteps 2 s = .next x) :
    x.Inv ∧ x.cfg = s.cfg ∧ x.pending = rest ∧ x.running[k]? = some (.lines l ls w) := by
  have hstep := h.step_load hp hq hload
  have hs1 : State.Inv { s with pending := .operation f :: rest, running := s.running.set k (.lines l ls w) } := { h with }
  rw [runSteps_of_step hstep, runSteps_one] at hx
  cases hf : decode f with
  | error e =>
    rw [hs1.step_eq rfl, performTurn, hf] at hx
    cases hx
  | ok i =>
    rw [hs1.step_operation rfl hf] at hx
    obtain ⟨hpending, hrunning⟩ := exec_schedule hx
    obtain ⟨hk, -⟩ := List.getElem?_eq_some_iff.1 hq
    exact ⟨exec_keeps_inv hx (hs1.withPending rest), (exec_cfg hx).trans rfl, hpending, hrunning ▸ List.getElem?_set_self hk⟩

/-- A read-modify-write with one operation of another agent in it: its effect on the devices is that of its write-back. -/
theorem State.Inv.writeBack_after_operation {s x : State} (h : s.Inv) {k : Nat} {a c w : Word} {u : EnableUpdate}
    {ls : List Line} {f : Frame} {rest : List Turn} (hp : s.pending = .line k :: .operation f :: .line k :: rest)
    (hq : s.running[k]? = some (.lines (.load a) (.update a u :: ls) c))
    (hload : ∀ p, busLoad a { s with pending := p } = some (w, { s with pending := p }))
    (hx : runSteps 2 s = .next x) :
    x.Inv ∧ x.cfg = s.cfg ∧ ∀ y, busStore a (u.apply w) { x with pending := rest } = some y →
      ∃ t, runSteps 3 s = .next t ∧ t.te = y.te ∧ t.tf = y.tf ∧ t.ts = y.ts := by
  obtain ⟨hinv, hcfg, hpx, hqx⟩ := h.load_then_operation hp hq (hload _) hx
  refine ⟨hinv, hcfg, fun y hstore => ?_⟩
  rw [runSteps_succ_of_next hx]
  exact hinv.step_update hpx hqx hstore

/-- The word that a read-modify-write writes back, as the statements write it (R119, R120). -/
theorem EnableUpdate.eq_apply {u : EnableUpdate} {new : Word → Word}
    (h : u = .set ∧ (∀ w, new w = w ||| 0x00000002) ∨ u = .clear ∧ (∀ w, new w = w &&& ~~~0x00000002)) : new = u.apply := by
  rcases h with ⟨rfl, hnew⟩ | ⟨rfl, hnew⟩ <;> exact funext hnew

/-- What START asserts of the words read before and after its write-back (R119). -/
theorem EnableUpdate.set_holds_iff (c c2 : Word) :
    EnableUpdate.set.holds c c2 = true ↔ c2.getLsbD 1 = true ∧ c2 &&& ~~~0x00000002 = c &&& ~~~0x00000002 := by
  rw [← bitOn_enable, holds, Bool.and_eq_true, bitOn, decide_eq_true_iff (p := _ = _)]
  rfl

/-- The turn of the last line of START: the register is read back, and the assertion decides the outcome (R119, R122). -/
theorem State.Inv.step_verify_te {s : State} (h : s.Inv) {k : Nat} {c : Word} {u : EnableUpdate} {rest : List Turn}
    (hp : s.pending = .line k :: rest) (hq : s.running[k]? = some (.lines (.verify (teAddr s.cfg offControl) u) [] c)) :
    step s = .next { s with
      pending := rest
      running := s.running.eraseIdx k
      response := if u.holds c s.te.ctrl = true then .done else .assertionFailed } := by
  have hline : Sequence.advance (.lines (.verify (teAddr s.cfg offControl) u) [] c) { s with pending := rest } =
      .ended (if u.holds c s.te.ctrl = true then .done else .assertionFailed) { s with pending := rest } := by
    simp only [Sequence.advance, performLine, busLoad_te (s := { s with pending := rest }) rfl h.cfg, teControlRead, nextLine]
    split <;> rfl
  exact h.step_line_ended hp hq hline

/-- A write of the Sink's CONTROL leaves the other two devices (R106). -/
theorem tsControlWrite_frame (v : Word) (s : State) :
    (tsControlWrite v s).te = s.te ∧ (tsControlWrite v s).tf = s.tf := by
  rcases tsControlWrite_cases v s with ⟨-, e⟩ | ⟨-, e⟩ <;> rw [e] <;> exact ⟨rfl, rfl⟩

/-- Settles O60: the read binds the word, the operation between keeps the invariants and the schedule, and the write-back is
the stale write of its device. -/
theorem writeBetweenReadAndWriteBackIsOverwritten : Obligations.WriteBetweenReadAndWriteBackIsOverwritten := by
  intro s k u ls c hs
  refine ⟨fun x a f rest new hnew hq hp hx => ?_, fun rest hq hp => ?_⟩
  · obtain rfl := EnableUpdate.eq_apply hnew
    refine ⟨?_, ?_, ?_⟩ <;> rintro rfl
    · obtain ⟨hinv, hcfg, hwriteBack⟩ :=
        hs.writeBack_after_operation hp hq (w := s.te.ctrl)
          (fun p => busLoad_te (s := { s with pending := p }) rfl hs.cfg) hx
      obtain ⟨t, hrun, hte, htf, hts⟩ := hwriteBack _ (busStore_te (s := { x with pending := rest }) hcfg hs.cfg _)
      refine ⟨t, hrun, htf, hts, ?_⟩
      rw [hte, ← setBit_empty_getLsbD_three]
      exact teControlWrite_stale hs (hinv.withPending rest) hcfg u
    · obtain ⟨hinv, hcfg, hwriteBack⟩ :=
        hs.writeBack_after_operation hp hq (w := s.tf.ctrl)
          (fun p => busLoad_tf (s := { s with pending := p }) rfl hs.cfg) hx
      obtain ⟨t, hrun, hte, htf, hts⟩ := hwriteBack _ (busStore_tf (s := { x with pending := rest }) hcfg hs.cfg _)
      refine ⟨t, hrun, hte, hts, (congrArg Funnel.dis htf).trans rfl, ?_⟩
      rw [htf]
      exact tfControlWrite_stale hs (hinv.withPending rest) u
    · have hload (p : List Turn) : busLoad (tsAddr s.cfg offControl) { s with pending := p } =
          some (s.ts.ctrl, { s with pending := p }) :=
        (busLoad_ts (s := { s with pending := p }) rfl hs.cfg).trans (congrArg some (hs.withPending p).tsControlRead_eq)
      obtain ⟨-, hcfg, hwriteBack⟩ := hs.writeBack_after_operation hp hq hload hx
      obtain ⟨t, hrun, hte, htf, hts⟩ := hwriteBack _ (busStore_ts (s := { x with pending := rest }) hcfg hs.cfg _)
      obtain ⟨hteFrame, htfFrame⟩ := tsControlWrite_frame (u.apply s.ts.ctrl) { x with pending := rest }
      refine ⟨t, hrun, hte.trans hteFrame, htf.trans htfFrame, ?_⟩
      rw [hts, ← setBit_empty_decide]
      exact tsControlWrite_stale (x := { x with pending := rest }) hs hcfg u
  · rw [hs.step_verify_te hp hq]
    simp only [EnableUpdate.set_holds_iff]

end Sys2Proof.Machine
end

section
/-! The encoding (`30_encoding.md`; the byte frame is the model's, log entry 2). Each register row stands in the frame of its
device, direction and offset; from that, decoding and encoding are inverse to each other. -/

namespace Sys2Proof.Machine

/-- The operation code of a register read of a device. -/
def readCode : Device → Byte
  | .sink => 0x00
  | .funnel => 0x02
  | .encoder => 0x04

/-- The operation code of a register write of a device. -/
def writeCode : Device → Byte
  | .sink => 0x01
  | .funnel => 0x03
  | .encoder => 0x05

theorem withoutB_eq_ok_iff {b : Word} {i j : Instr} : withoutB b i = .ok j ↔ b = 0 ∧ i = j := by
  unfold withoutB
  split <;> simp_all

theorem withoutAB_eq_ok_iff {a b : Word} {i j : Instr} : withoutAB a b i = .ok j ↔ a = 0 ∧ b = 0 ∧ i = j := by
  unfold withoutAB
  split <;> simp_all [withoutB_eq_ok_iff]

/-- The frame of a register read decodes to the row of its device and offset (R50). -/
theorem decode_readFrame (d : Device) (off : Word) :
    decode (frameOf (readCode d) off 0 []) = .ok (deviceReadRow d off) := by
  rw [decode_frameOf]
  cases d <;> rfl

/-- The frame of a register write decodes to the row of its device and offset (R50). -/
theorem decode_writeFrame (d : Device) (off v : Word) :
    decode (frameOf (writeCode d) off v []) = .ok (deviceWriteRow d off v) := by
  rw [decode_frameOf]
  cases d <;> rfl

/-- The INVALID read row of a device. -/
def invalidReadRow : Device → Word → Instr
  | .encoder => .teInvalidRd
  | .funnel => .tfInvalidRd
  | .sink => .tsInvalidRd

/-- The INVALID write row of a device. -/
def invalidWriteRow : Device → Word → Word → Instr
  | .encoder => .teInvalidWr
  | .funnel => .tfInvalidWr
  | .sink => .tsInvalidWr

/-- At an offset without a register the row is the INVALID one (R51). -/
theorem deviceReadRow_of_not_isRegister {d : Device} {off : Word} (h : isRegister d off.toNat = false) :
    deviceReadRow d off = invalidReadRow d off := by
  cases d <;> simp_all [isRegister, registerOffsets, deviceReadRow, invalidReadRow]

/-- At an offset without a register the row is the INVALID one (R51). -/
theorem deviceWriteRow_of_not_isRegister {d : Device} {off : Word} (h : isRegister d off.toNat = false) (v : Word) :
    deviceWriteRow d off v = invalidWriteRow d off v := by
  cases d <;> simp_all [isRegister, registerOffsets, deviceWriteRow, invalidWriteRow]

/-- An INVALID read row decodes from its frame when its offset is no register. -/
theorem decode_invalidReadFrame {d : Device} {off : Word} (h : (!isRegister d off.toNat) = true) :
    decode (frameOf (readCode d) off 0 []) = .ok (invalidReadRow d off) := by
  rw [decode_readFrame, deviceReadRow_of_not_isRegister (by simpa using h)]

/-- An INVALID write row decodes from its frame when its offset is no register. -/
theorem decode_invalidWriteFrame {d : Device} {off : Word} (h : (!isRegister d off.toNat) = true) (v : Word) :
    decode (frameOf (writeCode d) off v []) = .ok (invalidWriteRow d off v) := by
  rw [decode_writeFrame, deviceWriteRow_of_not_isRegister (by simpa using h)]

/-- Settles O1: a frame is decoded from the parts it was built from; a known register's row stands at its register's offset, an
INVALID row at an offset that is none, and a fetch budget is below 2^32. -/
theorem decodeEncodeRoundTrip : Obligations.DecodeEncodeRoundTrip := by
  intro i hi
  cases i with
  | busRangeError dir a => cases dir <;> exact decode_frameOf _ _ _ _
  | teControlRd => exact decode_readFrame .encoder 0x000
  | tfControlRd => exact decode_readFrame .funnel 0x000
  | tfDisInputRd => exact decode_readFrame .funnel 0x008
  | tsControlRd => exact decode_readFrame .sink 0x000
  | tsWpLowRd => exact decode_readFrame .sink 0x020
  | tsRpLowRd => exact decode_readFrame .sink 0x028
  | tsDataRd => exact decode_readFrame .sink 0x040
  | teControlWr v => exact decode_writeFrame .encoder 0x000 v
  | tfControlWr v => exact decode_writeFrame .funnel 0x000 v
  | tfDisInputWr v => exact decode_writeFrame .funnel 0x008 v
  | tsControlWr v => exact decode_writeFrame .sink 0x000 v
  | tsWpLowWr v => exact decode_writeFrame .sink 0x020 v
  | tsRpLowWr v => exact decode_writeFrame .sink 0x028 v
  | tsDataWr v => exact decode_writeFrame .sink 0x040 v
  | teInvalidRd off => exact decode_invalidReadFrame (d := .encoder) hi
  | tfInvalidRd off => exact decode_invalidReadFrame (d := .funnel) hi
  | tsInvalidRd off => exact decode_invalidReadFrame (d := .sink) hi
  | teInvalidWr off v => exact decode_invalidWriteFrame (d := .encoder) hi v
  | tfInvalidWr off v => exact decode_invalidWriteFrame (d := .funnel) hi v
  | tsInvalidWr off v => exact decode_invalidWriteFrame (d := .sink) hi v
  | fetch n =>
    have hn : (BitVec.ofNat 32 n).toNat = n := by rw [BitVec.toNat_ofNat, Nat.mod_eq_of_lt (of_decide_eq_true hi)]
    calc decode (encode (.fetch n)) = .ok (.fetch (BitVec.ofNat 32 n).toNat) := decode_frameOf _ _ _ _
      _ = .ok (.fetch n) := by rw [hn]
  | busRead | busWrite | emit | tfPush | tsPush | configure | start | stop => exact decode_frameOf _ _ _ _

/-- The frame is the canonical one of a well-formed operation. -/
def CanonicalAt (f : Frame) (i : Instr) : Prop := i.wf = true ∧ encode i = f

/-- At a register of a device the rows of a read and of a write are canonical. -/
theorem deviceRows_canonical_of_mem (d : Device) (v : Word) : ∀ n ∈ registerOffsets d,
    CanonicalAt (frameOf (readCode d) (BitVec.ofNat 32 n) 0 []) (deviceReadRow d (BitVec.ofNat 32 n)) ∧
    CanonicalAt (frameOf (writeCode d) (BitVec.ofNat 32 n) v []) (deviceWriteRow d (BitVec.ofNat 32 n) v) := by
  cases d <;> simp only [registerOffsets, List.forall_mem_cons]
  case encoder => exact ⟨⟨⟨rfl, rfl⟩, rfl, rfl⟩, nofun⟩
  case funnel => exact ⟨⟨⟨rfl, rfl⟩, rfl, rfl⟩, ⟨⟨rfl, rfl⟩, rfl, rfl⟩, nofun⟩
  case sink =>
    exact ⟨⟨⟨rfl, rfl⟩, rfl, rfl⟩, ⟨⟨rfl, rfl⟩, rfl, rfl⟩, ⟨⟨rfl, rfl⟩, rfl, rfl⟩, ⟨⟨rfl, rfl⟩, rfl, rfl⟩, nofun⟩

/-- At any other offset the INVALID rows are canonical. -/
theorem invalidRows_canonical {d : Device} {off : Word} (h : isRegister d off.toNat = false) (v : Word) :
    CanonicalAt (frameOf (readCode d) off 0 []) (invalidReadRow d off) ∧
    CanonicalAt (frameOf (writeCode d) off v []) (invalidWriteRow d off v) := by
  have hwf : (!isRegister d off.toNat) = true := by rw [h]; rfl
  cases d <;> exact ⟨⟨hwf, rfl⟩, hwf, rfl⟩

/-- The rows of the register accesses of a device are canonical at every offset. -/
theorem deviceRows_canonical (d : Device) (off v : Word) :
    CanonicalAt (frameOf (readCode d) off 0 []) (deviceReadRow d off) ∧
    CanonicalAt (frameOf (writeCode d) off v []) (deviceWriteRow d off v) := by
  cases h : isRegister d off.toNat with
  | true =>
    have hrow := deviceRows_canonical_of_mem d v off.toNat (by simpa [isRegister] using h)
    rwa [BitVec.ofNat_toNat, BitVec.setWidth_eq] at hrow
  | false =>
    rw [deviceReadRow_of_not_isRegister h, deviceWriteRow_of_not_isRegister h]
    exact invalidRows_canonical h v

/-- An operation without operand B is canonical when it is with operand B at 0. -/
theorem CanonicalAt.of_withoutB {code : Byte} {a b : Word} {i j : Instr} (h : withoutB b j = .ok i)
    (hj : CanonicalAt (frameOf code a 0 []) j) : CanonicalAt (frameOf code a b []) i := by
  obtain ⟨rfl, rfl⟩ := withoutB_eq_ok_iff.1 h
  exact hj

/-- An operation without operands is canonical when it is with both at 0. -/
theorem CanonicalAt.of_withoutAB {code : Byte} {a b : Word} {p : List Byte} {i j : Instr} (h : withoutAB a b j = .ok i)
    (hj : CanonicalAt (frameOf code 0 0 p) j) : CanonicalAt (frameOf code a b p) i := by
  obtain ⟨rfl, rfl, rfl⟩ := withoutAB_eq_ok_iff.1 h
  exact hj

theorem fetch_canonical (a : Word) : CanonicalAt (frameOf 0x10 a 0 []) (.fetch a.toNat) :=
  ⟨decide_eq_true a.isLt, by rw [encode, BitVec.ofNat_toNat, BitVec.setWidth_eq]⟩

theorem byte_eq_of_toNat {code : Byte} {n : Nat} (h : code.toNat = n) : code = BitVec.ofNat 8 n := by
  rw [← h, BitVec.ofNat_toNat, BitVec.setWidth_eq]

/-- What a frame without payload decodes to is canonical, whatever its code. -/
theorem decodeFixed_canonical {code : Byte} {a b : Word} {i : Instr} (h : decodeFixed code.toNat a b = .ok i) :
    CanonicalAt (frameOf code a b []) i := by
  have hread (d : Device) := (deviceRows_canonical d a b).1
  have hwrite (d : Device) := (deviceRows_canonical d a b).2
  unfold decodeFixed at h
  split at h
  case h_1 hc => exact byte_eq_of_toNat hc ▸ .of_withoutB h (hread .sink)
  case h_2 hc => cases h; exact byte_eq_of_toNat hc ▸ hwrite .sink
  case h_3 hc => exact byte_eq_of_toNat hc ▸ .of_withoutB h (hread .funnel)
  case h_4 hc => cases h; exact byte_eq_of_toNat hc ▸ hwrite .funnel
  case h_5 hc => exact byte_eq_of_toNat hc ▸ .of_withoutB h (hread .encoder)
  case h_6 hc => cases h; exact byte_eq_of_toNat hc ▸ hwrite .encoder
  case h_7 hc => exact byte_eq_of_toNat hc ▸ .of_withoutB h ⟨rfl, rfl⟩
  case h_8 hc => cases h; exact byte_eq_of_toNat hc ▸ ⟨rfl, rfl⟩
  case h_9 hc => exact byte_eq_of_toNat hc ▸ .of_withoutB h ⟨rfl, rfl⟩
  case h_10 hc => exact byte_eq_of_toNat hc ▸ .of_withoutB h ⟨rfl, rfl⟩
  case h_11 hc => cases h; exact byte_eq_of_toNat hc ▸ ⟨rfl, rfl⟩
  case h_12 hc => exact byte_eq_of_toNat hc ▸ .of_withoutAB h ⟨rfl, rfl⟩
  case h_13 hc => exact byte_eq_of_toNat hc ▸ .of_withoutAB h ⟨rfl, rfl⟩
  case h_14 hc => exact byte_eq_of_toNat hc ▸ .of_withoutAB h ⟨rfl, rfl⟩
  case h_15 hc => exact byte_eq_of_toNat hc ▸ .of_withoutB h (fetch_canonical a)
  case h_16 | h_17 | h_18 | h_19 | h_20 | h_21 => cases h

/-- What a frame decodes to is canonical: the two pushes carry their payload, no other operation carries one. -/
theorem decodeOperands_canonical {code : Byte} {a b : Word} {p : List Byte} {i : Instr}
    (h : decodeOperands code.toNat a b p = .ok i) : CanonicalAt (frameOf code a b p) i := by
  unfold decodeOperands at h
  split at h
  case h_1 hc => exact byte_eq_of_toNat hc ▸ .of_withoutAB h ⟨rfl, rfl⟩
  case h_2 hc => exact byte_eq_of_toNat hc ▸ .of_withoutAB h ⟨rfl, rfl⟩
  case h_3 =>
    cases p with
    | nil => exact decodeFixed_canonical h
    | cons => cases h

/-- Settles O2: a frame of at least nine bytes is built from the parts that the decoder takes out of it. -/
theorem acceptedFramesAreCanonical : Obligations.AcceptedFramesAreCanonical := by
  intro f i h
  unfold decode at h
  split at h
  case h_1 a0 a1 a2 a3 code b0 b1 b2 b3 payload =>
    have hparts : frameOf code (le32inv a0 a1 a2 a3) (le32inv b0 b1 b2 b3) payload =
        a0 :: a1 :: a2 :: a3 :: code :: b0 :: b1 :: b2 :: b3 :: payload := by
      rw [frameOf, le32_le32inv, le32_le32inv]; rfl
    exact hparts ▸ decodeOperands_canonical h
  case h_2 => cases h

/-- Settles O3: each frame is nine bytes, and a payload for the push, that the decoder evaluates. -/
theorem sampleFramesDecode : Obligations.SampleFramesDecode := by
  refine ⟨?_, ?_, ?_, ?_, ?_, ?_, ?_, ?_⟩ <;> decide

end Sys2Proof.Machine
end

section
/-! The step (`00_scope.md` R6; log entries 2, 5 and 11): what it refuses, what it does with the oldest turn, and that it keeps the
invariants and the parameters. -/

namespace Sys2Proof.Machine

/-- Settles O10: a step performs at most one operation, which keeps the invariants; beside that it writes only the queue, the
sequences in progress and the reported outcome, of which they do not speak. -/
theorem stepKeepsInvariants : Obligations.StepKeepsInvariants := by
  intro s t hs h
  obtain ⟨r, qs, ⟨-, rfl⟩ | ⟨i, u, -, hexec, rfl⟩⟩ := step_cases h
  · exact { hs with }
  · exact { exec_keeps_inv hexec (hs.withPending _) with }

/-- Settles O9: the reset state is the construction with the example parameters. -/
theorem constructionSatisfiesInvariants : Obligations.ConstructionSatisfiesInvariants :=
  ⟨fun _ => State.construct_inv, State.construct_inv (by decide)⟩

/-- A push never lowers `dropped` (R104). -/
theorem Sink.dropped_le_storeAll (cap : Nat) (data : List Byte) : ∀ ts : Sink, ts.dropped ≤ (ts.storeAll cap data).dropped := by
  induction data with
  | nil => exact fun _ => Nat.le_refl _
  | cons b bs ih =>
    intro ts
    rw [Sink.storeAll]
    split
    · exact Nat.le_add_right _ _
    · exact ih (ts.store cap b)

/-- No change of the state lowers `dropped`, not even a master reset of the Sink (R24). -/
theorem Move.dropped_le {i : Instr} {s t : State} (m : Move i s t) : s.ts.dropped ≤ t.ts.dropped := by
  cases m with
  | tfDis v => rw [tfDisInputWrite_eq]
  | tsStore data => exact Sink.dropped_le_storeAll _ data _
  | tsWrite v => rcases tsControlWrite_cases v s with ⟨-, e⟩ | ⟨-, e⟩ <;> rw [e]; rfl
  | _ => exact Nat.le_refl _

theorem exec_dropped_le {i : Instr} {s t : State} (h : exec i s = .next t) : s.ts.dropped ≤ t.ts.dropped :=
  (exec_moves h).keeps (P := fun u => s.ts.dropped ≤ u.ts.dropped) (fun _ _ m hle => hle.trans m.dropped_le) (Nat.le_refl _)

/-- Settles O14: the frame of every operation, and of the one operation that a step performs. -/
theorem configurationIsNeverWritten : Obligations.ConfigurationIsNeverWritten := by
  refine ⟨fun i s t h => ?_, fun s t h => ?_⟩
  · obtain ⟨hpending, hrunning⟩ := exec_schedule h
    exact ⟨exec_cfg h, hpending, hrunning, exec_dropped_le h⟩
  · obtain ⟨r, qs, ⟨-, rfl⟩ | ⟨i, u, -, hexec, rfl⟩⟩ := step_cases h
    · exact ⟨rfl, Nat.le_refl _⟩
    · have hdropped := exec_dropped_le hexec
      exact ⟨(exec_cfg hexec).trans rfl, hdropped⟩

/-- A configuration that is not well formed is refused (log entry 11). -/
theorem step_of_not_wf {s : State} (h : ¬ s.cfg.wf = true) : step s = .refused .illFormedConfig := if_neg h

/-- Two entries of a well-formed map that contain one address are those of one device (R33). -/
theorem Config.dev_eq_of_mem {c : Config} (hc : c.wf = true) {a : Word} {m m' : Mapping} (hm : m ∈ c.table) (hm' : m' ∈ c.table)
    (hlo : m.base ≤ a.toNat) (hhi : a.toNat < m.base + m.size) (hlo' : m'.base ≤ a.toNat)
    (hhi' : a.toNat < m'.base + m'.size) : m.dev = m'.dev := by
  have hres := resolve_of_mem hc hm hlo (by omega)
  rw [resolve_of_mem hc hm' hlo' (by omega)] at hres
  exact (congrArg Prod.fst (Option.some.inj hres)).symm

/-- Settles O6: none of the three can hold of a well-formed configuration. -/
theorem excludedConfigurationsAreRefused : Obligations.ExcludedConfigurationsAreRefused := by
  refine ⟨fun s a m m' hm hm' hdev hlo hhi hlo' hhi' => step_of_not_wf fun hc => ?_,
    fun s hcap => step_of_not_wf fun hc => ?_, fun s hsize => step_of_not_wf fun hc => ?_⟩
  · exact hdev (Config.dev_eq_of_mem hc hm hm' hlo hhi hlo' hhi')
  · obtain ⟨-, -, -, -, -, hpos, -⟩ := (Config.wf_iff _).1 hc
    omega
  · obtain ⟨-, ⟨hte, htf, hts⟩, -⟩ := (Config.wf_iff _).1 hc
    omega

section
variable {s : State} (hc : s.cfg.wf = true) (hwp : s.ts.wp < s.cfg.cap) (hrp : s.ts.rp < s.cfg.cap)
  (hcount : s.ts.count ≤ s.cfg.cap)
include hc hwp hrp hcount

/-- With a well-formed configuration and the Sink in its types a step takes the oldest turn. -/
theorem step_takes_turn {u : Turn} {rest : List Turn} (hp : s.pending = u :: rest) :
    step s = performTurn u { s with pending := rest } := by
  rw [step, if_pos hc, if_pos (by simp [ringInRange, hwp, hrp, hcount]), hp]

/-- With nothing issued such a step does nothing (R6). -/
theorem step_idle (hp : s.pending = []) : step s = .next s := by
  rw [step, if_pos hc, if_pos (by simp [ringInRange, hwp, hrp, hcount]), hp]

end

/-- Settles O5: the queue holds no turn to take. -/
theorem idleStepChangesNothing : Obligations.IdleStepChangesNothing := fun _ hc hwp hrp hcount hp =>
  step_idle hc hwp hrp hcount hp

/-- A turn whose frame encodes no operation is refused, issued or called. -/
theorem performTurn_of_decode_error {f : Frame} {e : DecodeError} (hf : decode f = .error e) (s : State) :
    performTurn (.operation f) s = .refused (.undecodable e) ∧ performTurn (.call f) s = .refused (.undecodable e) := by
  simp only [performTurn, hf, and_self]

/-- Settles O7: the decoder rejects the frames by name, whatever their operands, and the turn is refused. -/
theorem narrowAccessIsRefused : Obligations.NarrowAccessIsRefused := by
  intro s rest u a b code hc hwp hrp hcount hu hp
  have hrefused {e : DecodeError} (hf : decode (frameOf code a b []) = .error e) : step s = .refused (.undecodable e) := by
    obtain ⟨hissued, hcalled⟩ := performTurn_of_decode_error hf { s with pending := rest }
    rw [step_takes_turn hc hwp hrp hcount hp]
    simp only [List.mem_cons, List.not_mem_nil, or_false] at hu
    rcases hu with rfl | rfl
    · exact hissued
    · exact hcalled
  refine ⟨fun hcode => hrefused ?_, fun hcode => hrefused ?_⟩ <;> rw [decode_frameOf]
  · simp only [List.mem_cons, List.not_mem_nil, or_false] at hcode
    rcases hcode with rfl | rfl | rfl | rfl <;> rfl
  · subst hcode; rfl

/-- The turn of a call: an operation that is no sequence is performed. -/
theorem performTurn_call_atomic {f : Frame} {i : Instr} {s : State} (hf : decode f = .ok i) (hi : callSequence i s = none) :
    performTurn (.call f) s = exec i s := by
  simp only [performTurn, hf, callTurn, hi]

/-- The turn of a call: a sequence that does not end at once is in progress, and nothing else has changed. -/
theorem performTurn_call_going {f : Frame} {i : Instr} {s t : State} {q : Sequence} (hf : decode f = .ok i)
    (hi : callSequence i s = some (.going q t)) :
    t = s ∧ performTurn (.call f) s = .next { s with running := s.running ++ [q] } := by
  obtain rfl : t = s := callSequence_cases hi
  simp only [performTurn, hf, callTurn, hi, and_self]

/-- The turn of a line: the state is the one that its bus operation leaves, but for the outcome and the sequences. -/
theorem lineTurn_performs_operation {k : Nat} {q : Sequence} {s : State} (hq : s.running[k]? = some q) :
    ∃ u r qs, lineTurn k s = .next { u with response := r, running := qs } ∧ exec (q.operation s.cfg) s = .next u := by
  obtain ⟨u, hu, hstate⟩ := advance_exec q s
  unfold lineTurn
  rw [hq]
  dsimp only
  cases hadv : q.advance s with
  | going q' t =>
    rw [hadv] at hstate
    obtain rfl : t = _ := hstate
    exact ⟨u, s.response, _, rfl, hu⟩
  | ended r t =>
    rw [hadv] at hstate
    obtain rfl : t = _ := hstate
    exact ⟨u, r, _, rfl, hu⟩

/-- Settles O4: one clause for each kind of turn. -/
theorem stepRunsDecodedOperation : Obligations.StepRunsDecodedOperation := by
  intro s rest hc hwp hrp hcount
  have hstep {u : Turn} (hp : s.pending = u :: rest) := step_takes_turn hc hwp hrp hcount hp
  refine ⟨fun f i hp hf => ?_, fun f i hp hf => ⟨fun hi => ?_, fun q t hi => ?_⟩, fun k q hp hq => ?_, fun k hp hk => ?_⟩ <;>
    rw [hstep hp]
  · simp only [performTurn, hf]
  · exact performTurn_call_atomic hf hi
  · exact performTurn_call_going hf hi
  · obtain ⟨u, r, qs, hline, hu⟩ := lineTurn_performs_operation (s := { s with pending := rest }) hq
    obtain ⟨hpending, -⟩ := exec_schedule hu
    exact ⟨_, u, hline, hu, rfl, rfl, rfl, rfl, rfl, hpending⟩
  · simp only [performTurn, lineTurn, hk]

end Sys2Proof.Machine
end

section
/-! What one operation touches (`40_bus.md` R67 to R71) and what the device states depend on (`41_control_register.md` R81). -/

namespace Sys2Proof.Machine

/-- Settles O17: the row is selected at an unmapped address only (R126; log entry 6). -/
theorem rangeErrorRowIsRefusedAtMappedAddress : Obligations.RangeErrorRowIsRefusedAtMappedAddress := by
  intro s a dir hmapped
  obtain ⟨p, hp⟩ := Option.ne_none_iff_exists'.1 hmapped
  rw [show exec (.busRangeError dir a) s = execBusRangeError dir a s from rfl, execBusRangeError, hp]

/-- `t` differs from `s` in no device but `d`. -/
structure OnlyDevice (d : Device) (s t : State) : Prop where
  te : d ≠ .encoder → t.te = s.te
  tf : d ≠ .funnel → t.tf = s.tf
  ts : d ≠ .sink → t.ts = s.ts

theorem OnlyDevice.refl (d : Device) (s : State) : OnlyDevice d s s := ⟨fun _ => rfl, fun _ => rfl, fun _ => rfl⟩

/-- A change of the Sink alone, whatever else changes outside the devices. -/
theorem OnlyDevice.sink {s t : State} (hte : t.te = s.te) (htf : t.tf = s.tf) : OnlyDevice .sink s t :=
  ⟨fun _ => hte, fun _ => htf, fun h => absurd rfl h⟩

theorem devRead_onlyDevice (d : Device) (off : Nat) (s : State) : OnlyDevice d s (devRead d off s).2 := by
  rcases devRead_cases d off s with h | ⟨e, h⟩ | ⟨rfl, _, h⟩ | ⟨rfl, _, h⟩ <;> rw [h]
  · exact .refl d s
  · exact { OnlyDevice.refl d s with }
  · exact .sink rfl rfl
  · rcases tsDataRead_cases s with ⟨-, h⟩ | ⟨-, h⟩ <;> rw [h] <;> exact .sink rfl rfl

theorem devWrite_onlyDevice (d : Device) (off : Nat) (v : Word) (s : State) : OnlyDevice d s (devWrite d off v s) := by
  rcases devWrite_cases d off v s with ⟨rfl, _, h⟩ | ⟨rfl, _, h⟩ | ⟨rfl, _, h⟩ | ⟨rfl, _, h⟩ | ⟨_, h | ⟨e, h⟩⟩ <;> rw [h]
  · exact ⟨fun h => absurd rfl h, fun _ => rfl, fun _ => rfl⟩
  · exact ⟨fun _ => rfl, fun h => absurd rfl h, fun _ => rfl⟩
  · rw [tfDisInputWrite_eq]
    exact ⟨fun _ => rfl, fun h => absurd rfl h, fun _ => rfl⟩
  · obtain ⟨hte, htf⟩ := tsControlWrite_frame v s
    exact .sink hte htf
  · exact .refl d s
  · exact { OnlyDevice.refl d s with }

/-- Settles O20: a bus operation at a mapped address is the mux of the one device that it resolves to. -/
theorem busOperationTouchesOneDevice : Obligations.BusOperationTouchesOneDevice := by
  intro s t a v d off hres hexec
  suffices h : OnlyDevice d s t from ⟨h.te, h.tf, h.ts⟩
  rw [exec_busRead_of_resolve hres, exec_busWrite_of_resolve v hres] at hexec
  rcases hexec with h | h <;> cases h
  · exact { devRead_onlyDevice d off s with }
  · exact { devWrite_onlyDevice d off v s with }

/-- Settles O26: the masks and the fields are numbers (R53, R54, R56). -/
theorem controlMasksPartitionTheWord : Obligations.ControlMasksPartitionTheWord := by
  refine ⟨?_, ?_, ?_, ?_, ?_⟩ <;> decide

/-! The device state of each device is a function of two or three bits of its CONTROL (R81). -/

theorem teState_eq (te : Encoder) : teState te =
    deviceStateOf (te.ctrl.getLsbD 0) (te.ctrl.getLsbD 0 && te.ctrl.getLsbD 1 && te.ctrl.getLsbD 2) := by
  rw [teState, teGate, bitOn_active, bitOn_enable, bitOn_instTracing]

theorem tfState_eq (tf : Funnel) : tfState tf = deviceStateOf (tf.ctrl.getLsbD 0) (tf.ctrl.getLsbD 0 && tf.ctrl.getLsbD 1) := by
  rw [tfState, tfGate, bitOn_active, bitOn_enable]

theorem tsState_eq (ts : Sink) : tsState ts = deviceStateOf (ts.ctrl.getLsbD 0) (ts.ctrl.getLsbD 0 && ts.ctrl.getLsbD 1) := by
  rw [tsState, tsGate, bitOn_active, bitOn_enable]

/-- Device logic that sets or clears Empty changes no device state. -/
theorem teState_setEmpty (te : Encoder) (b : Bool) : teState (te.setEmpty b) = teState te := by
  simp only [teState_eq, Encoder.setEmpty_ctrl, setBit_empty_getLsbD]
  rfl

/-- The Sink's device state depends on its CONTROL but for Empty. -/
theorem tsState_of_setBit_empty {ts ts' : Sink} {b : Bool} (h : ts'.ctrl = setBit ts.ctrl maskEmpty b) :
    tsState ts' = tsState ts := by
  simp only [tsState_eq, h, setBit_empty_getLsbD]
  rfl

/-- A push changes at most Empty of the Sink's CONTROL. -/
theorem tsState_storeAll (cap : Nat) (data : List Byte) : ∀ ts : Sink, tsState (ts.storeAll cap data) = tsState ts := by
  induction data with
  | nil => exact fun _ => rfl
  | cons b bs ih =>
    intro ts
    rw [Sink.storeAll]
    split
    · rfl
    · rw [ih, tsState_of_setBit_empty (Sink.store_ctrl cap ts b)]

/-- The three device states (R81). -/
def State.deviceStates (s : State) : DeviceState × DeviceState × DeviceState := (teState s.te, tfState s.tf, tsState s.ts)

/-- Every change of an operation that holds no CONTROL write keeps the device states. -/
theorem Move.deviceStates_eq {i : Instr} (hi : mayWriteControl i = false) {s t : State} (m : Move i s t) :
    t.deviceStates = s.deviceStates := by
  have hno {p : Prop} (h : mayWriteControl i = true) : p := by rw [hi] at h; cases h
  cases m with
  | report | event => rfl
  | teEmit => rw [State.deviceStates, teState_setEmpty]; rfl
  | tfDis v => rw [tfDisInputWrite_eq]; rfl
  | tsStore data => rw [State.deviceStates, tsState_storeAll]; rfl
  | tsRecompute => rw [State.deviceStates, tsState_of_setBit_empty (Sink.recomputeEmpty_ctrl s.ts)]; rfl
  | tsPop => rw [State.deviceStates, tsState_of_setBit_empty (Sink.pop_ctrl _ s.ts)]; rfl
  | teWrite _ _ h | tfWrite _ _ h | tsWrite _ _ h => exact hno h

/-- A device write at another offset than 0x000 keeps the device states. -/
theorem devWrite_deviceStates {off : Nat} (hoff : off ≠ 0x000) (d : Device) (v : Word) (s : State) :
    (devWrite d off v s).deviceStates = s.deviceStates := by
  rcases devWrite_cases d off v s with ⟨_, h, _⟩ | ⟨_, h, _⟩ | ⟨_, _, h⟩ | ⟨_, h, _⟩ | ⟨_, h | ⟨e, h⟩⟩
  · exact absurd h hoff
  · exact absurd h hoff
  · rw [h, tfDisInputWrite_eq]; rfl
  · exact absurd h hoff
  · rw [h]
  · rw [h]; rfl

/-- Settles O32: by the changes that the operation consists of, and by the mux for a bus write. -/
theorem onlyControlWritesChangeDeviceStates : Obligations.OnlyControlWritesChangeDeviceStates := by
  intro i s t h hi
  suffices hstates : t.deviceStates = s.deviceStates by
    simpa only [State.deviceStates, Prod.mk.injEq] using hstates
  rcases hi with hi | ⟨a, v, d, off, rfl, hres, hoff⟩
  · exact (exec_moves h).keeps (P := fun u => u.deviceStates = s.deviceStates)
      (fun _ _ m e => (m.deviceStates_eq hi).trans e) rfl
  · rw [exec_busWrite_of_resolve v hres] at h
    cases h
    exact devWrite_deviceStates hoff d v s

/-- Enable and InstTracing of the Encoder after a write with Active = 1 are as written (R77). -/
theorem teState_ctrlWrite (m : FieldMax) (old v : Word) : teState ⟨ctrlWrite (teDesc m) old v⟩ =
    if v.getLsbD 0 then (if v.getLsbD 1 && v.getLsbD 2 then .activeRunning else .activeIdle) else .inactive := by
  rw [teState_eq, ctrlWrite_te_active]
  cases hv : v.getLsbD 0
  · rfl
  · rw [ctrlWrite_te_getLsbD m old hv (by decide), ctrlWrite_te_getLsbD m old hv (by decide)]
    simp [teBitRw, deviceStateOf]

/-- Enable of the Funnel after a write with Active = 1 is as written (R77). -/
theorem tfState_ctrlWrite (old v dis : Word) : tfState ⟨ctrlWrite tfDesc old v, dis⟩ =
    if v.getLsbD 0 then (if v.getLsbD 1 then .activeRunning else .activeIdle) else .inactive := by
  rw [tfState_eq, ctrlWrite_tf_active]
  cases hv : v.getLsbD 0
  · rfl
  · rw [ctrlWrite_tf_getLsbD old hv (by decide)]
    simp [deviceStateOf]

/-- Enable of the Sink after a write with Active = 1 is as written (R77, R106). -/
theorem tsState_tsControlWrite (v : Word) (s : State) : tsState (tsControlWrite v s).ts =
    if v.getLsbD 0 then (if v.getLsbD 1 then .activeRunning else .activeIdle) else .inactive := by
  rcases tsControlWrite_cases v s with ⟨hv, h⟩ | ⟨hv, h⟩ <;> rw [h, hv]
  · exact (tsState_eq_inactive_iff _).2 (by decide : (0x00000008#32).getLsbD 0 = false)
  · rw [tsState_of_setBit_empty (ts := { s.ts with ctrl := ctrlWrite (tsDesc s.cfg.fmax) s.ts.ctrl v }) rfl, tsState_eq,
      ctrlWrite_ts_active, hv, ctrlWrite_ts_getLsbD _ _ hv (by decide)]
    simp [tsBitRw, deviceStateOf]

/-- Settles O31: one clause for each CONTROL register. -/
theorem controlWriteSetsDeviceState : Obligations.ControlWriteSetsDeviceState := by
  intro s t v
  refine ⟨?_, ?_, ?_⟩ <;> rintro ⟨⟩
  · exact teState_ctrlWrite _ _ v
  · exact tfState_ctrlWrite _ v _
  · exact tsState_tsControlWrite v s

end Sys2Proof.Machine
end

section
/-! The pushes (`44_funnel.md` R95, `45_sink.md` R104) while the Funnel's input is disabled, and their events in the ghost log. -/

namespace Sys2Proof.Machine

/-- With `tf_dis` not 0 a push into the Funnel is dropped, by its gate or by `tf_dis` (R95). -/
theorem funnelPush_of_disabled {s : State} (hdis : s.tf.dis ≠ 0) (data : List Byte) : ∃ e, funnelPush data s = s.logged e := by
  rcases funnelPush_cases data s with ⟨-, h, -⟩ | ⟨-, -, h⟩ | ⟨-, h⟩
  · exact absurd h hdis
  · exact ⟨_, h⟩
  · exact ⟨_, h⟩

/-- With `tf_dis` not 0 nothing that an emission or a push into the Funnel does reaches the Sink or the Funnel's state. -/
theorem exec_funnelProducer_of_disabled {i : Instr} (hi : funnelProducer i = true) {s t : State} (hdis : s.tf.dis ≠ 0)
    (h : exec i s = .next t) : t.ts = s.ts ∧ t.tf = s.tf := by
  cases i with
  | emit pc op =>
    cases h
    refine ⟨?_, encoderEmit_tf pc op s⟩
    rw [State.respond_ts, encoderEmit_ts]
    obtain ⟨e, h⟩ := funnelPush_of_disabled hdis (traceRecord pc op)
    rw [h, State.logged_ts, ite_self]
  | tfPush data =>
    cases h
    obtain ⟨e, h⟩ := funnelPush_of_disabled hdis data
    rw [h]
    exact ⟨rfl, rfl⟩
  | _ => cases hi

/-- Settles O44: each operation of the run keeps the Sink and the Funnel, and with it `tf_dis`. -/
theorem disabledInputBlocksEverything : Obligations.DisabledInputBlocksEverything := by
  intro is s t hdis his h
  refine runOps_keeps_of_mem (P := fun u => u.ts = s.ts ∧ u.tf = s.tf) (fun i hi u x hx => ?_) h ⟨rfl, rfl⟩
  rintro ⟨hts, htf⟩
  obtain ⟨hts', htf'⟩ := exec_funnelProducer_of_disabled (his i hi) (htf ▸ hdis) hx
  exact ⟨hts'.trans hts, htf'.trans htf⟩

theorem sinkPush_log (data : List Byte) (s : State) :
    (sinkPush data s).log = s.log ++ (if tsGate s.ts = false then [.sinkGated] else []) := by
  rcases sinkPush_cases data s with ⟨hg, h⟩ | ⟨hg, h⟩ <;> rw [h, hg] <;> simp

theorem funnelPush_log (data : List Byte) (s : State) : (funnelPush data s).log = s.log ++
    (if tfGate s.tf = false then [.funnelGated] else if s.tf.dis ≠ 0 then [.funnelInputDisabled]
      else if tsGate s.ts = false then [.sinkGated] else []) := by
  rcases funnelPush_cases data s with ⟨hg, hdis, h⟩ | ⟨hg, hdis, h⟩ | ⟨hg, h⟩ <;> rw [h, hg]
  · rw [if_neg (by decide : ¬ true = false), if_neg (not_not.2 hdis)]
    exact sinkPush_log data s
  · rw [if_neg (by decide : ¬ true = false), if_pos hdis]; rfl
  · rfl

theorem tsDataRead_log (s : State) :
    (tsDataRead s).2.log = s.log ++ (if s.ts.count < 4 then [.shortRead] else []) := by
  rcases tsDataRead_cases s with ⟨hc, h⟩ | ⟨hc, h⟩ <;> rw [h]
  · rw [if_pos hc]; rfl
  · rw [if_neg (Nat.not_lt.2 hc), List.append_nil]

/-- Settles O45: the six rows at an invalid offset append their device's event; the pushes and the read of DATA as their cases
say (log entry 4). -/
theorem ghostLogRecordsConditions : Obligations.GhostLogRecordsConditions := by
  intro s off v data
  refine ⟨fun i e hie => ?_, ⟨_, exec_tfPush data s, funnelPush_log data s⟩, ⟨_, exec_tsPush data s, sinkPush_log data s⟩,
    ⟨_, exec_tsDataRd s, tsDataRead_log s⟩⟩
  simp only [List.mem_cons, List.not_mem_nil, or_false, Prod.mk.injEq] at hie
  rcases hie with ⟨rfl, rfl⟩ | ⟨rfl, rfl⟩ | ⟨rfl, rfl⟩ | ⟨rfl, rfl⟩ | ⟨rfl, rfl⟩ | ⟨rfl, rfl⟩ <;> exact ⟨_, rfl, rfl⟩

end Sys2Proof.Machine
end

section
/-! `FETCH` ends within its budget (`46_driver.md` R124): each turn of the loop collects one word and does to the devices what a
read of DATA does. -/

namespace Sys2Proof.Machine

/-- What a `FETCH` leaves unchanged (R124). -/
structure FetchFrame (s t : State) : Prop where
  te : t.te = s.te
  tf : t.tf = s.tf
  wp : t.ts.wp = s.ts.wp
  buf : t.ts.buf = s.ts.buf

theorem FetchFrame.trans {s t u : State} (h : FetchFrame s t) (h' : FetchFrame t u) : FetchFrame s u :=
  ⟨h'.te.trans h.te, h'.tf.trans h.tf, h'.wp.trans h.wp, h'.buf.trans h.buf⟩

theorem tsDataRead_fetchFrame (s : State) : FetchFrame s (tsDataRead s).2 := by
  rcases tsDataRead_cases s with ⟨-, h⟩ | ⟨-, h⟩ <;> rw [h] <;> exact ⟨rfl, rfl, rfl, rfl⟩

/-- The loop of FETCH adds at most one word for each unit of its budget. -/
theorem runAlone_fetch_ends (n : Nat) : ∀ {s : State} (ws : List Word), s.cfg.wf = true →
    ∃ t new, runAlone (3 * n) (fetchFrom n ws s) = .next t ∧ t.response = .words (ws ++ new) ∧ new.length ≤ n ∧
      FetchFrame s t := by
  induction n with
  | zero => exact fun ws _ => ⟨_, [], rfl, by rw [List.append_nil]; rfl, Nat.le_refl 0, ⟨rfl, rfl, rfl, rfl⟩⟩
  | succ n ih =>
    intro s ws hc
    rw [runAlone_fetch_succ hc]
    split
    · exact ⟨_, [], rfl, by rw [List.append_nil]; rfl, Nat.zero_le _, ⟨rfl, rfl, rfl, rfl⟩⟩
    · obtain ⟨t, new, hrun, hres, hlen, hframe⟩ :=
        ih (s := (tsDataRead s).2) (ws ++ [(tsDataRead s).1]) (by rwa [tsDataRead_cfg])
      exact ⟨t, (tsDataRead s).1 :: new, hrun, by rw [hres, List.append_assoc]; rfl, Nat.succ_le_succ hlen,
        (tsDataRead_fetchFrame s).trans hframe⟩

/-- Settles O55: the loop from an empty list. -/
theorem fetchEndsWithinBudget : Obligations.FetchEndsWithinBudget := by
  intro s n hc
  obtain ⟨t, ws, hrun, hres, hlen, hframe⟩ := runAlone_fetch_ends n [] hc
  exact ⟨t, ws, hrun, hres, hlen, hframe.te, hframe.tf, hframe.wp, hframe.buf⟩

end Sys2Proof.Machine
end

section
/-! What no operation can tell apart (`10_state.md` R24, `60_exceptions.md` R131, `45_sink.md` R109). A relation between states is a
simulation when related states agree on all that an operation reads and every change an operation consists of keeps them
related; then every operation reports the same outcome in both and leaves related states. -/

namespace Sys2Proof.Machine

/-- A load by the driver from an address that no mapping contains. -/
theorem busLoad_of_resolve_none {s : State} {a : Word} (h : resolve s.cfg a = none) : busLoad a s = none := by
  rw [busLoad, h]

/-- A store by the driver to an address that no mapping contains. -/
theorem busStore_of_resolve_none {s : State} {a : Word} (v : Word) (h : resolve s.cfg a = none) : busStore a v s = none := by
  rw [busStore, h]

/-- The second state agrees with the first on all that an operation reads, but for the bytes of the buffer. -/
structure SameReads (s s' : State) : Prop where
  cfg : s'.cfg = s.cfg
  te : s'.te = s.te
  tf : s'.tf = s.tf
  ctrl : s'.ts.ctrl = s.ts.ctrl
  wp : s'.ts.wp = s.ts.wp
  rp : s'.ts.rp = s.ts.rp
  count : s'.ts.count = s.ts.count

/-- Related states agree on all that an operation reads, and the changes that an operation consists of keep them related. -/
structure Simulation (R : State → State → Prop) : Prop where
  reads : ∀ {s s'}, R s s' → SameReads s s'
  frontWord : ∀ {s s'}, R s s' → 4 ≤ s.ts.count → s'.ts.frontWord s'.cfg.cap = s.ts.frontWord s.cfg.cap
  respond : ∀ {s s'}, R s s' → ∀ r, R (s.respond r) (s'.respond r)
  logged : ∀ {s s'}, R s s' → ∀ e, R (s.logged e) (s'.logged e)
  withTe : ∀ {s s'}, R s s' → ∀ x, R { s with te := x } { s' with te := x }
  withTf : ∀ {s s'}, R s s' → ∀ x, R { s with tf := x } { s' with tf := x }
  withCtrl : ∀ {s s'}, R s s' → ∀ c, R { s with ts := { s.ts with ctrl := c } } { s' with ts := { s'.ts with ctrl := c } }
  cleared : ∀ {s s'}, R s s' → R { s with ts := Sink.cleared s.ts.dropped } { s' with ts := Sink.cleared s'.ts.dropped }
  storeAll : ∀ {s s'}, R s s' → ∀ data,
    R { s with ts := s.ts.storeAll s.cfg.cap data } { s' with ts := s'.ts.storeAll s'.cfg.cap data }
  pop : ∀ {s s'}, R s s' → 4 ≤ s.ts.count → R { s with ts := s.ts.pop s.cfg.cap } { s' with ts := s'.ts.pop s'.cfg.cap }

/-- The results of a read in related states: the same word, and related states. -/
def ReadRel (R : State → State → Prop) (p p' : Word × State) : Prop := p'.1 = p.1 ∧ R p.2 p'.2

/-- The results of a line of a driver sequence in related states: the same place or the same end, and related states. -/
inductive ProgressRel (R : State → State → Prop) : Progress → Progress → Prop where
  | going (q : Sequence) {s s' : State} : R s s' → ProgressRel R (.going q s) (.going q s')
  | ended (r : Response) {s s' : State} : R s s' → ProgressRel R (.ended r s) (.ended r s')

/-- Wherever the first outcome goes on, the second goes on in a related state. -/
def Simulated (R : State → State → Prop) (o o' : Host.Outcome State Fault Refusal) : Prop :=
  ∀ t, o = .next t → ∃ t', o' = .next t' ∧ R t t'

theorem Simulated.next {R : State → State → Prop} {t t' : State} (h : R t t') : Simulated R (.next t) (.next t') := by
  rintro _ ⟨⟩
  exact ⟨t', rfl, h⟩

section
variable {R : State → State → Prop} (hR : Simulation R) {s s' : State} (h : R s s')
include hR h

/-! The reads and the writes of the registers. -/

theorem Simulation.tsControlRead_rel : ReadRel R (tsControlRead s) (tsControlRead s') := by
  have hctrl : s'.ts.recomputeEmpty.ctrl = s.ts.recomputeEmpty.ctrl := by
    rw [Sink.recomputeEmpty_ctrl, Sink.recomputeEmpty_ctrl, (hR.reads h).ctrl, (hR.reads h).count]
  refine ⟨hctrl, ?_⟩
  show R _ { s' with ts := { s'.ts with ctrl := s'.ts.recomputeEmpty.ctrl } }
  rw [hctrl]
  exact hR.withCtrl h _

theorem Simulation.tsDataRead_rel : ReadRel R (tsDataRead s) (tsDataRead s') := by
  unfold tsDataRead
  rw [(hR.reads h).count]
  split
  · exact ⟨rfl, hR.logged h _⟩
  · rename_i hc
    exact ⟨hR.frontWord h (by omega), hR.pop h (by omega)⟩

/-- Every read of a device, at a register or not. -/
theorem Simulation.devRead_rel (d : Device) (off : Nat) : ReadRel R (devRead d off s) (devRead d off s') := by
  have hregister : ∀ off ∈ registerOffsets d, ReadRel R (devRead d off s) (devRead d off s') := by
    have hte : ReadRel R (teControlRead s) (teControlRead s') := ⟨congrArg Encoder.ctrl (hR.reads h).te, h⟩
    have htf : ReadRel R (tfControlRead s) (tfControlRead s') := ⟨congrArg Funnel.ctrl (hR.reads h).tf, h⟩
    have hdis : ReadRel R (tfDisInputRead s) (tfDisInputRead s') := ⟨congrArg Funnel.dis (hR.reads h).tf, h⟩
    have hwp : ReadRel R (tsWpLowRead s) (tsWpLowRead s') := ⟨congrArg cursorWord (hR.reads h).wp, h⟩
    have hrp : ReadRel R (tsRpLowRead s) (tsRpLowRead s') := ⟨congrArg cursorWord (hR.reads h).rp, h⟩
    cases d <;> simp only [registerOffsets, List.forall_mem_cons]
    case encoder => exact ⟨hte, nofun⟩
    case funnel => exact ⟨htf, hdis, nofun⟩
    case sink => exact ⟨hR.tsControlRead_rel h, hwp, hrp, hR.tsDataRead_rel h, nofun⟩
  by_cases hoff : off ∈ registerOffsets d
  · exact hregister off hoff
  · rw [devRead_of_notMem hoff, devRead_of_notMem hoff]
    exact ⟨rfl, hR.logged h _⟩

theorem Simulation.teControlWrite_rel (v : Word) : R (teControlWrite v s) (teControlWrite v s') := by
  have hctrl : ctrlWrite (teDesc s'.cfg.fmax) s'.te.ctrl v = ctrlWrite (teDesc s.cfg.fmax) s.te.ctrl v := by
    rw [(hR.reads h).cfg, (hR.reads h).te]
  unfold teControlWrite
  rw [hctrl]
  exact hR.withTe h _

theorem Simulation.tfControlWrite_rel (v : Word) : R (tfControlWrite v s) (tfControlWrite v s') := by
  unfold tfControlWrite
  rw [(hR.reads h).tf]
  exact hR.withTf h _

theorem Simulation.tfDisInputWrite_rel (v : Word) : R (tfDisInputWrite v s) (tfDisInputWrite v s') := by
  rw [tfDisInputWrite_eq, tfDisInputWrite_eq, (hR.reads h).tf]
  exact hR.withTf h _

theorem Simulation.tsControlWrite_rel (v : Word) : R (tsControlWrite v s) (tsControlWrite v s') := by
  have hctrl : setBit (ctrlWrite (tsDesc s'.cfg.fmax) s'.ts.ctrl v) maskEmpty (decide (s'.ts.count = 0)) =
      setBit (ctrlWrite (tsDesc s.cfg.fmax) s.ts.ctrl v) maskEmpty (decide (s.ts.count = 0)) := by
    rw [(hR.reads h).cfg, (hR.reads h).ctrl, (hR.reads h).count]
  rcases tsControlWrite_cases v s with ⟨hv, e⟩ | ⟨hv, e⟩ <;>
    rcases tsControlWrite_cases v s' with ⟨hv', e'⟩ | ⟨hv', e'⟩ <;> rw [e, e']
  · exact hR.cleared h
  · rw [hv] at hv'; cases hv'
  · rw [hv] at hv'; cases hv'
  · rw [hctrl]
    exact hR.withCtrl h _

/-- Every write of a device, at a register or not. -/
theorem Simulation.devWrite_rel (d : Device) (off : Nat) (v : Word) : R (devWrite d off v s) (devWrite d off v s') := by
  have hregister : ∀ off ∈ registerOffsets d, R (devWrite d off v s) (devWrite d off v s') := by
    cases d <;> simp only [registerOffsets, List.forall_mem_cons]
    case encoder => exact ⟨hR.teControlWrite_rel h v, nofun⟩
    case funnel => exact ⟨hR.tfControlWrite_rel h v, hR.tfDisInputWrite_rel h v, nofun⟩
    case sink => exact ⟨hR.tsControlWrite_rel h v, h, h, h, nofun⟩
  by_cases hoff : off ∈ registerOffsets d
  · exact hregister off hoff
  · rw [devWrite_of_notMem v hoff, devWrite_of_notMem v hoff]
    exact hR.logged h _

/-! The pushes. -/

theorem Simulation.sinkPush_rel (data : List Byte) : R (sinkPush data s) (sinkPush data s') := by
  have hgate : tsGate s'.ts = tsGate s.ts := by rw [tsGate, tsGate, (hR.reads h).ctrl]
  unfold sinkPush
  rw [hgate]
  split
  · exact hR.storeAll h data
  · exact hR.logged h _

theorem Simulation.funnelPush_rel (data : List Byte) : R (funnelPush data s) (funnelPush data s') := by
  unfold funnelPush
  rw [(hR.reads h).tf]
  split_ifs
  · exact hR.sinkPush_rel h data
  · exact hR.logged h _
  · exact hR.logged h _

theorem Simulation.encoderEmit_rel (pc op : Word) : R (encoderEmit pc op s) (encoderEmit pc op s') := by
  unfold encoderEmit
  rw [(hR.reads h).te]
  split
  · exact hR.funnelPush_rel (hR.withTe h _) _
  · exact h

/-! The driver sequences. -/

theorem Simulation.busLoad_rel (a : Word) :
    (busLoad a s = none ∧ busLoad a s' = none) ∨ ∃ w t t', busLoad a s = some (w, t) ∧ busLoad a s' = some (w, t') ∧ R t t' := by
  have hcfg : resolve s'.cfg a = resolve s.cfg a := by rw [(hR.reads h).cfg]
  cases hres : resolve s.cfg a with
  | none => exact .inl ⟨busLoad_of_resolve_none hres, busLoad_of_resolve_none (hcfg.trans hres)⟩
  | some p =>
    obtain ⟨hword, hrel⟩ := hR.devRead_rel h p.1 p.2
    exact .inr ⟨(devRead p.1 p.2 s).1, (devRead p.1 p.2 s).2, (devRead p.1 p.2 s').2, busLoad_of_resolve hres,
      (busLoad_of_resolve (hcfg.trans hres)).trans (congrArg some (Prod.ext hword rfl)), hrel⟩

theorem Simulation.busStore_rel (a v : Word) :
    (busStore a v s = none ∧ busStore a v s' = none) ∨ ∃ t t', busStore a v s = some t ∧ busStore a v s' = some t' ∧ R t t' := by
  have hcfg : resolve s'.cfg a = resolve s.cfg a := by rw [(hR.reads h).cfg]
  cases hres : resolve s.cfg a with
  | none => exact .inl ⟨busStore_of_resolve_none v hres, busStore_of_resolve_none v (hcfg.trans hres)⟩
  | some p =>
    exact .inr ⟨_, _, busStore_of_resolve hres, busStore_of_resolve (hcfg.trans hres), hR.devWrite_rel h p.1 p.2 v⟩

omit hR in
theorem ProgressRel.nextLine_rel (rest : List Line) (c : Word) : ProgressRel R (nextLine rest c s) (nextLine rest c s') := by
  cases rest with
  | nil => exact .ended _ h
  | cons l ls => exact .going _ h

omit hR in
theorem ProgressRel.fetchFrom_rel (n : Nat) (ws : List Word) : ProgressRel R (fetchFrom n ws s) (fetchFrom n ws s') := by
  cases n with
  | zero => exact .ended _ h
  | succ n => exact .going _ h

theorem Simulation.performLine_rel (l : Line) (rest : List Line) (c : Word) :
    ProgressRel R (performLine l rest c s) (performLine l rest c s') := by
  cases l with
  | write a v =>
    rcases hR.busStore_rel h a v with ⟨e, e'⟩ | ⟨t, t', e, e', ht⟩ <;> simp only [performLine, e, e']
    · exact .ended _ h
    · exact .nextLine_rel ht rest c
  | update a u =>
    rcases hR.busStore_rel h a (u.apply c) with ⟨e, e'⟩ | ⟨t, t', e, e', ht⟩ <;> simp only [performLine, e, e']
    · exact .ended _ h
    · exact .nextLine_rel ht rest c
  | load a =>
    rcases hR.busLoad_rel h a with ⟨e, e'⟩ | ⟨w, t, t', e, e', ht⟩ <;> simp only [performLine, e, e']
    · exact .ended _ h
    · exact .nextLine_rel ht rest w
  | readBack a m x =>
    rcases hR.busLoad_rel h a with ⟨e, e'⟩ | ⟨w, t, t', e, e', ht⟩ <;> simp only [performLine, e, e']
    · exact .ended _ h
    · split
      · exact .nextLine_rel ht rest c
      · exact .ended _ ht
  | verify a u =>
    rcases hR.busLoad_rel h a with ⟨e, e'⟩ | ⟨w, t, t', e, e', ht⟩ <;> simp only [performLine, e, e']
    · exact .ended _ h
    · split
      · exact .nextLine_rel ht rest c
      · exact .ended _ ht

theorem Simulation.performFetch_rel (more : Nat) (ws : List Word) (l : FetchLine) :
    ProgressRel R (performFetch more ws l s) (performFetch more ws l s') := by
  cases l with
  | wpLow =>
    rcases hR.busLoad_rel h (tsAddr s.cfg offWpLow) with ⟨e, e'⟩ | ⟨w, t, t', e, e', ht⟩ <;>
      simp only [performFetch, (hR.reads h).cfg, e, e']
    · exact .ended _ h
    · exact .going _ ht
  | rpLow w =>
    rcases hR.busLoad_rel h (tsAddr s.cfg offRpLow) with ⟨e, e'⟩ | ⟨r, t, t', e, e', ht⟩ <;>
      simp only [performFetch, (hR.reads h).cfg, e, e']
    · exact .ended _ h
    · split
      · exact .ended _ ht
      · exact .going _ ht
  | data =>
    rcases hR.busLoad_rel h (tsAddr s.cfg offData) with ⟨e, e'⟩ | ⟨d, t, t', e, e', ht⟩ <;>
      simp only [performFetch, (hR.reads h).cfg, e, e']
    · exact .ended _ h
    · exact .fetchFrom_rel ht more _

/-- Every line of a driver sequence. -/
theorem Simulation.advance_rel (q : Sequence) : ProgressRel R (q.advance s) (q.advance s') := by
  cases q with
  | lines l rest c => exact hR.performLine_rel h l rest c
  | fetch more ws l => exact hR.performFetch_rel h more ws l

/-! The operations. -/

omit h in
/-- A sequence with nothing between its lines; one that runs out of fuel is in progress, which the relation has to allow. -/
theorem Simulation.runAlone_rel (hrun : ∀ {s s'} (q : Sequence), R s s' →
    R { s with running := s.running ++ [q] } { s' with running := s'.running ++ [q] }) (fuel : Nat) :
    ∀ {p p' : Progress}, ProgressRel R p p' → Simulated R (runAlone fuel p) (runAlone fuel p') := by
  induction fuel with
  | zero =>
    rintro _ _ (⟨q, h⟩ | ⟨r, h⟩)
    · exact .next (hrun q h)
    · exact .next (hR.respond h r)
  | succ n ih =>
    rintro _ _ (⟨q, h⟩ | ⟨r, h⟩)
    · exact ih (hR.advance_rel h q)
    · exact .next (hR.respond h r)

theorem Simulation.endDone_rel : Simulated R (endDone s) (endDone s') := .next (hR.respond h .done)

omit h in
theorem Simulation.endWord_rel {p p' : Word × State} (h : ReadRel R p p') : Simulated R (endWord p) (endWord p') := by
  unfold endWord
  rw [h.1]
  exact .next (hR.respond h.2 _)

/-- A bus operation raises `RangeError` in both states or performs the row of the mux in both. -/
theorem Simulation.exec_bus_rel (a v : Word) (dir : Dir) :
    Simulated R (exec (.busRead a) s) (exec (.busRead a) s') ∧ Simulated R (exec (.busWrite a v) s) (exec (.busWrite a v) s') ∧
      Simulated R (exec (.busRangeError dir a) s) (exec (.busRangeError dir a) s') := by
  have hcfg : resolve s'.cfg a = resolve s.cfg a := by rw [(hR.reads h).cfg]
  cases hres : resolve s.cfg a with
  | none =>
    have hres' := hcfg.trans hres
    rw [exec_busRead_of_resolve_none hres, exec_busRead_of_resolve_none hres', exec_busWrite_of_resolve_none v hres,
      exec_busWrite_of_resolve_none v hres', exec_busRangeError_of_resolve_none dir hres,
      exec_busRangeError_of_resolve_none dir hres']
    have herror : Simulated R (raiseRangeError a s) (raiseRangeError a s') := .next (hR.respond h _)
    exact ⟨herror, herror, herror⟩
  | some p =>
    have hres' := hcfg.trans hres
    rw [exec_busRead_of_resolve hres, exec_busRead_of_resolve hres', exec_busWrite_of_resolve v hres,
      exec_busWrite_of_resolve v hres', rangeErrorRowIsRefusedAtMappedAddress s a dir (by rw [hres]; nofun)]
    exact ⟨hR.endWord_rel (hR.devRead_rel h p.1 p.2), hR.endDone_rel (hR.devWrite_rel h p.1 p.2 v), nofun⟩

/-- Every operation. -/
theorem Simulation.exec_rel (hrun : ∀ {s s'} (q : Sequence), R s s' →
    R { s with running := s.running ++ [q] } { s' with running := s'.running ++ [q] }) (i : Instr) :
    Simulated R (exec i s) (exec i s') := by
  have hcfg := (hR.reads h).cfg
  cases i with
  | busRead a =>
    obtain ⟨hread, -, -⟩ := hR.exec_bus_rel h a 0 .read
    exact hread
  | busWrite a v =>
    obtain ⟨-, hwrite, -⟩ := hR.exec_bus_rel h a v .read
    exact hwrite
  | busRangeError dir a =>
    obtain ⟨-, -, herror⟩ := hR.exec_bus_rel h a 0 dir
    exact herror
  | teControlRd => exact hR.endWord_rel (hR.devRead_rel h .encoder offControl)
  | tfControlRd => exact hR.endWord_rel (hR.devRead_rel h .funnel offControl)
  | tfDisInputRd => exact hR.endWord_rel (hR.devRead_rel h .funnel offDisInput)
  | tsControlRd => exact hR.endWord_rel (hR.devRead_rel h .sink offControl)
  | tsWpLowRd => exact hR.endWord_rel (hR.devRead_rel h .sink offWpLow)
  | tsRpLowRd => exact hR.endWord_rel (hR.devRead_rel h .sink offRpLow)
  | tsDataRd => exact hR.endWord_rel (hR.devRead_rel h .sink offData)
  | teInvalidRd | tfInvalidRd | tsInvalidRd => exact hR.endWord_rel ⟨rfl, hR.logged h _⟩
  | teControlWr v => exact hR.endDone_rel (hR.devWrite_rel h .encoder offControl v)
  | tfControlWr v => exact hR.endDone_rel (hR.devWrite_rel h .funnel offControl v)
  | tfDisInputWr v => exact hR.endDone_rel (hR.devWrite_rel h .funnel offDisInput v)
  | tsControlWr v => exact hR.endDone_rel (hR.devWrite_rel h .sink offControl v)
  | tsWpLowWr | tsRpLowWr | tsDataWr => exact hR.endDone_rel h
  | teInvalidWr | tfInvalidWr | tsInvalidWr => exact hR.endDone_rel (hR.logged h _)
  | emit pc op => exact hR.endDone_rel (hR.encoderEmit_rel h pc op)
  | tfPush data => exact hR.endDone_rel (hR.funnelPush_rel h data)
  | tsPush data => exact hR.endDone_rel (hR.sinkPush_rel h data)
  | configure => exact hR.runAlone_rel hrun 8 (hcfg ▸ .going (configureSequence s.cfg) h)
  | start => exact hR.runAlone_rel hrun 3 (hcfg ▸ .going (startSequence s.cfg) h)
  | stop => exact hR.runAlone_rel hrun 9 (hcfg ▸ .going (stopSequence s.cfg) h)
  | fetch n => exact hR.runAlone_rel hrun (3 * n) (.fetchFrom_rel h n [])

end

end Sys2Proof.Machine
end

section
/-! The two things that no interface shows: the counter `dropped` with the ghost log (`10_state.md` R24, `60_exceptions.md` R131), and
the bytes of the ring buffer that are not live (`45_sink.md` R109). Each is a simulation. -/

namespace Sys2Proof.Machine

/-- States that differ in `dropped` and the ghost log at most. -/
def SameButDiagnostics (s s' : State) : Prop :=
  ∃ n l, s' = { s with ts := { s.ts with dropped := n }, log := l }

theorem sameButDiagnostics_hide (s : State) : SameButDiagnostics s s.hideDiagnostics := ⟨0, [], rfl⟩

theorem SameButDiagnostics.hide_eq {s s' : State} (h : SameButDiagnostics s s') : s'.hideDiagnostics = s.hideDiagnostics := by
  obtain ⟨n, l, rfl⟩ := h
  rfl

theorem SameButDiagnostics.response_eq {s s' : State} (h : SameButDiagnostics s s') : s'.response = s.response := by
  obtain ⟨n, l, rfl⟩ := h
  rfl

/-- The byte loop of a push does the same whatever `dropped` counted before, but for `dropped` (R104). -/
theorem Sink.storeAll_withDropped (cap : Nat) (data : List Byte) : ∀ (ts : Sink) (n : Nat),
    ∃ n', Sink.storeAll cap { ts with dropped := n } data = { ts.storeAll cap data with dropped := n' } := by
  induction data with
  | nil => exact fun ts n => ⟨n, rfl⟩
  | cons b bs ih =>
    intro ts n
    simp only [Sink.storeAll]
    split
    · exact ⟨_, rfl⟩
    · exact ih (ts.store cap b) n

theorem simulation_sameButDiagnostics : Simulation SameButDiagnostics where
  reads := by rintro s _ ⟨n, l, rfl⟩; exact ⟨rfl, rfl, rfl, rfl, rfl, rfl, rfl⟩
  frontWord := by rintro s _ ⟨n, l, rfl⟩ -; rfl
  respond := by rintro s _ ⟨n, l, rfl⟩ r; exact ⟨n, l, rfl⟩
  logged := by rintro s _ ⟨n, l, rfl⟩ e; exact ⟨n, l ++ [e], rfl⟩
  withTe := by rintro s _ ⟨n, l, rfl⟩ x; exact ⟨n, l, rfl⟩
  withTf := by rintro s _ ⟨n, l, rfl⟩ x; exact ⟨n, l, rfl⟩
  withCtrl := by rintro s _ ⟨n, l, rfl⟩ c; exact ⟨n, l, rfl⟩
  cleared := by rintro s _ ⟨n, l, rfl⟩; exact ⟨n, l, rfl⟩
  storeAll := by
    rintro s _ ⟨n, l, rfl⟩ data
    obtain ⟨n', h⟩ := Sink.storeAll_withDropped s.cfg.cap data s.ts n
    exact ⟨n', l, by dsimp only; rw [h]⟩
  pop := by rintro s _ ⟨n, l, rfl⟩ -; exact ⟨n, l, rfl⟩

/-- Settles O46: hiding the diagnostics leads to a related state, from which every operation ends in a related state. -/
theorem diagnosticsAreUnobservable : Obligations.DiagnosticsAreUnobservable := by
  intro i s t h
  have hrun {s s' : State} (q : Sequence) : SameButDiagnostics s s' →
      SameButDiagnostics { s with running := s.running ++ [q] } { s' with running := s'.running ++ [q] } := by
    rintro ⟨n, l, rfl⟩
    exact ⟨n, l, rfl⟩
  obtain ⟨u, hu, hrel⟩ := simulation_sameButDiagnostics.exec_rel (sameButDiagnostics_hide s) hrun i t h
  exact ⟨u, hu, hrel.response_eq, hrel.hide_eq⟩

/-- States that differ in bytes of the buffer at most, and in none that is live; the cursors lie in the ring. -/
structure SameButDeadBytes (s s' : State) : Prop where
  ring : Ring s.cfg.cap s.ts
  rpLt : s.ts.rp < s.cfg.cap
  bufWf : s'.ts.buf.wf = true
  live : s'.live = s.live
  rest : ∃ m, s' = { s with ts := { s.ts with buf := m } }

theorem SameButDeadBytes.ring' {s s' : State} (h : SameButDeadBytes s s') : Ring s'.cfg.cap s'.ts := by
  obtain ⟨hring, -, hwf, -, m, rfl⟩ := h
  exact { hring with bufWf := hwf }

/-- The byte loop of a push does the same to the cursors, the counters and the register whatever bytes stand in the buffer
(R104). -/
theorem Sink.storeAll_withBuf (cap : Nat) (data : List Byte) : ∀ (ts : Sink) (m : Memory),
    ∃ m', Sink.storeAll cap { ts with buf := m } data = { ts.storeAll cap data with buf := m' } := by
  induction data with
  | nil => exact fun ts m => ⟨m, rfl⟩
  | cons b bs ih =>
    intro ts m
    simp only [Sink.storeAll]
    split
    · exact ⟨m, rfl⟩
    · exact ih (ts.store cap b) (m.write ts.wp b)

/-- A pop keeps the cursors in order (R109). -/
theorem Ring.pop {cap : Nat} {ts : Sink} (h : Ring cap ts) (hc : 4 ≤ ts.count) : Ring cap (ts.pop cap) where
  bufWf := h.bufWf
  wpLt := h.wpLt
  countLe := (Nat.sub_le _ _).trans h.countLe
  cursors := by
    rw [Sink.pop_rp, Sink.pop_count, Sink.pop_wp, Nat.mod_add_mod, ← h.cursors]
    congr 1; omega

/-- A cleared Sink has its cursors in order (R106). -/
theorem Ring.cleared {cap : Nat} (hcap : 0 < cap) (n : Nat) : Ring cap (Sink.cleared n) :=
  ⟨rfl, hcap, Nat.zero_le _, Nat.zero_mod _⟩

theorem simulation_sameButDeadBytes : Simulation SameButDeadBytes where
  reads := by rintro s _ ⟨-, -, -, -, m, rfl⟩; exact ⟨rfl, rfl, rfl, rfl, rfl, rfl, rfl⟩
  frontWord := by
    intro s s' h hc
    have hword : le32 (s.ts.frontWord s.cfg.cap) = s.live.take 4 := Sink.le32_frontWord h.rpLt hc
    have hword' : le32 (s'.ts.frontWord s'.cfg.cap) = s'.live.take 4 := by
      obtain ⟨m, rfl⟩ := h.rest
      exact Sink.le32_frontWord h.rpLt hc
    exact le32_injective (by rw [hword', hword, h.live])
  respond := by rintro s _ ⟨hring, hrp, hwf, hlive, m, rfl⟩ r; exact ⟨hring, hrp, hwf, hlive, m, rfl⟩
  logged := by rintro s _ ⟨hring, hrp, hwf, hlive, m, rfl⟩ e; exact ⟨hring, hrp, hwf, hlive, m, rfl⟩
  withTe := by rintro s _ ⟨hring, hrp, hwf, hlive, m, rfl⟩ x; exact ⟨hring, hrp, hwf, hlive, m, rfl⟩
  withTf := by rintro s _ ⟨hring, hrp, hwf, hlive, m, rfl⟩ x; exact ⟨hring, hrp, hwf, hlive, m, rfl⟩
  withCtrl := by rintro s _ ⟨hring, hrp, hwf, hlive, m, rfl⟩ c; exact ⟨{ hring with }, hrp, hwf, hlive, m, rfl⟩
  cleared := by
    rintro s _ ⟨hring, hrp, hwf, hlive, m, rfl⟩
    have hcap : 0 < s.cfg.cap := Nat.zero_lt_of_lt hrp
    exact ⟨.cleared hcap _, hcap, rfl, rfl, [], rfl⟩
  storeAll := by
    intro s s' h data
    have hring := h.ring.storeAll data
    have hring' := h.ring'.storeAll data
    have hlive := Sink.live_storeAll data h.ring
    have hlive' := Sink.live_storeAll data h.ring'
    obtain ⟨-, -, hrp, -⟩ := Sink.storeAll_fields data h.ring.wpLt h.ring.countLe
    have hrpLt : (s.ts.storeAll s.cfg.cap data).rp < s.cfg.cap := hrp ▸ h.rpLt
    obtain ⟨-, -, -, hold, m, rfl⟩ := h
    refine ⟨hring, hrpLt, hring'.bufWf, hlive'.trans (Eq.trans ?_ hlive.symm), ?_⟩
    · exact congrArg (· ++ data.take (s.cfg.cap - s.ts.count)) hold
    · obtain ⟨m', hbuf⟩ := Sink.storeAll_withBuf s.cfg.cap data s.ts m
      exact ⟨m', by dsimp only; rw [hbuf]⟩
  pop := by
    rintro s _ ⟨hring, hrp, hwf, hlive, m, rfl⟩ hc
    refine ⟨hring.pop hc, Nat.mod_lt _ (Nat.zero_lt_of_lt hrp), hwf, ?_, m, rfl⟩
    rw [State.live, State.live, Sink.live_pop, Sink.live_pop]
    exact congrArg (List.drop 4) hlive

/-- Settles O47: the buffer is replaced by one with the same live bytes, and every operation ends in such states again. -/
theorem deadBytesAreUnobservable : Obligations.DeadBytesAreUnobservable := by
  intro i s t m hs hwf _ hlive h
  have hrun {s s' : State} (q : Sequence) : SameButDeadBytes s s' →
      SameButDeadBytes { s with running := s.running ++ [q] } { s' with running := s'.running ++ [q] } := by
    rintro ⟨hring, hrp, hwf, hlive, m, rfl⟩
    exact ⟨hring, hrp, hwf, hlive, m, rfl⟩
  have hstart : SameButDeadBytes s { s with ts := { s.ts with buf := m } } :=
    ⟨hs.sink.ring, hs.sink.rpLt, hwf, hlive, m, rfl⟩
  obtain ⟨u, hu, -, -, -, hend, m', rfl⟩ := simulation_sameButDeadBytes.exec_rel hstart hrun i t h
  exact ⟨_, hu, rfl, hend, rfl⟩

end Sys2Proof.Machine
end

section
/-! A driver sequence that is called and then taken line by line, with no other turn between, against the same sequence performed
whole (`20_memory.md` R47, `46_driver.md` R123; log entry 5). No line reads or writes the schedule, so each turn for a line leaves
what the line leaves, with the sequence in its place. -/

namespace Sys2Proof.Machine

/-- The state with another schedule: other turns in the queue, other sequences in progress. -/
def State.onSchedule (s : State) (turns : List Turn) (qs : List Sequence) : State := { s with pending := turns, running := qs }

/-- No operation reads or writes the schedule. -/
theorem simulation_onSchedule (turns : List Turn) (qs : List Sequence) :
    Simulation fun s s' => s' = s.onSchedule turns qs where
  reads := by rintro s _ rfl; exact ⟨rfl, rfl, rfl, rfl, rfl, rfl, rfl⟩
  frontWord := by rintro s _ rfl -; rfl
  respond := by rintro s _ rfl r; rfl
  logged := by rintro s _ rfl e; rfl
  withTe := by rintro s _ rfl x; rfl
  withTf := by rintro s _ rfl x; rfl
  withCtrl := by rintro s _ rfl c; rfl
  cleared := by rintro s _ rfl; rfl
  storeAll := by rintro s _ rfl data; rfl
  pop := by rintro s _ rfl -; rfl

/-- The machine with the given turns to take, where the last sequence in progress stands at `p`, or has ended so. -/
def Progress.scheduled (turns : List Turn) : Progress → State
  | .going q s => s.onSchedule turns (s.running ++ [q])
  | .ended r s => (s.onSchedule turns s.running).respond r

/-- A line keeps the invariants and does not touch the schedule. -/
theorem advance_keeps {s : State} (h : s.Inv) (q : Sequence) : (q.advance s).state.Inv ∧
    (q.advance s).state.pending = s.pending ∧ (q.advance s).state.running = s.running := by
  obtain ⟨u, hu, hstate⟩ := advance_exec q s
  rw [hstate]
  obtain ⟨hpending, hrunning⟩ := exec_schedule hu
  exact ⟨{ exec_keeps_inv hu h with }, hpending, hrunning⟩

/-- The turn of the next line of the last sequence in progress. -/
theorem State.Inv.step_scheduled {s : State} (h : s.Inv) (q : Sequence) (turns : List Turn) :
    step (Progress.scheduled (.line s.running.length :: turns) (.going q s)) = .next ((q.advance s).scheduled turns) := by
  have hx : State.Inv (Progress.scheduled (.line s.running.length :: turns) (.going q s)) := { h with }
  have hq : (s.running ++ [q])[s.running.length]? = some q := List.getElem?_concat_length
  have hline := (simulation_onSchedule turns (s.running ++ [q])).advance_rel (s := s) rfl q
  obtain ⟨-, -, hrunning⟩ := advance_keeps h q
  generalize hadv' : q.advance (s.onSchedule turns (s.running ++ [q])) = p' at hline
  cases hadv : q.advance s with
  | going q' t =>
    rw [hadv] at hline hrunning
    cases hline with | going _ ht => ?_
    subst ht
    calc step _ = .next (t.onSchedule turns ((s.running ++ [q]).set s.running.length q')) := hx.step_line_going rfl hq hadv'
      _ = .next (t.onSchedule turns (t.running ++ [q'])) := by rw [show t.running = s.running from hrunning]; simp
  | ended r t =>
    rw [hadv] at hline hrunning
    cases hline with | ended _ ht => ?_
    subst ht
    calc step _ = .next ((t.onSchedule turns ((s.running ++ [q]).eraseIdx s.running.length)).respond r) :=
          hx.step_line_ended rfl hq hadv'
      _ = .next ((t.onSchedule turns t.running).respond r) := by
          rw [show t.running = s.running from hrunning, List.eraseIdx_append_of_length_le (Nat.le_refl _)]; simp

/-- Turns to spare do nothing: no sequence stands at their place. -/
theorem runSteps_spare {k : Nat} {rest : List Turn} (m : Nat) : ∀ {s : State}, s.Inv → s.running[k]? = none → s.pending = rest →
    runSteps m { s with pending := List.replicate m (.line k) ++ rest } = .next s := by
  induction m with
  | zero => rintro s - - rfl; rfl
  | succ m ih =>
    intro s h hk hp
    have hx : State.Inv { s with pending := .line k :: (List.replicate m (.line k) ++ rest) } := { h with }
    have hstep := hx.step_eq rfl
    rw [performTurn, lineTurn, show State.running { s with pending := _ } = s.running from rfl, hk] at hstep
    rw [List.replicate_succ, List.cons_append, runSteps_of_step hstep]
    exact ih h hk hp

theorem Sequence.lineBound_pos (q : Sequence) : 0 < q.lineBound := by
  cases q with
  | lines => exact Nat.succ_pos _
  | fetch _ _ l => cases l <;> exact Nat.succ_pos _

/-- Enough turns for the lines of the last sequence in progress, and for nothing else, end as the sequence does alone. -/
theorem runSteps_scheduled {rest : List Turn} {k : Nat} (fuel : Nat) : ∀ {m : Nat} {p : Progress}, p.state.Inv →
    p.state.pending = rest → p.state.running.length = k → (∀ q s, p = .going q s → q.lineBound ≤ fuel) → fuel ≤ m →
    runSteps m (p.scheduled (List.replicate m (.line k) ++ rest)) = runAlone fuel p := by
  induction fuel with
  | zero =>
    rintro m (⟨q, s⟩ | ⟨r, s⟩) hinv hp rfl hbound -
    · exact absurd (hbound q s rfl) (Nat.not_le.2 q.lineBound_pos)
    · exact runSteps_spare (s := s.respond r) m { hinv with } (List.getElem?_eq_none (Nat.le_refl _)) hp
  | succ fuel ih =>
    rintro m (⟨q, s⟩ | ⟨r, s⟩) hinv hp rfl hbound hm
    · obtain ⟨m, rfl⟩ := Nat.exists_eq_succ_of_ne_zero (Nat.ne_zero_of_lt hm)
      obtain ⟨hinv', hpending, hrunning⟩ := advance_keeps (s := s) hinv q
      have hrest : runSteps m ((q.advance s).scheduled (List.replicate m (.line s.running.length) ++ rest)) =
          runAlone fuel (q.advance s) := by
        refine ih hinv' (hpending.trans hp) (congrArg List.length hrunning) (fun q' t hadv => ?_) (Nat.le_of_succ_le_succ hm)
        obtain ⟨-, hless⟩ := advance_going hadv
        exact Nat.le_of_lt_succ (hless.trans_le (hbound q s rfl))
      exact (runSteps_of_step (State.Inv.step_scheduled (s := s) hinv q _) m).trans hrest
    · exact runSteps_spare (s := s.respond r) m { hinv with } (List.getElem?_eq_none (Nat.le_refl _)) hp

/-- The turn of a call puts the sequence in progress, before its first line; one that ends at once reports its end. -/
theorem performTurn_call_scheduled {f : Frame} {i : Instr} {s : State} {p : Progress} (hf : decode f = .ok i)
    (hi : callSequence i s = some p) (turns : List Turn) :
    performTurn (.call f) { s with pending := turns } = .next (p.scheduled turns) := by
  have hcall : performTurn (.call f) { s with pending := turns } = callTurn i { s with pending := turns } := by
    simp only [performTurn, hf]
  rw [hcall]
  cases i with
  | configure | start | stop => cases hi; rfl
  | fetch n => cases hi; cases n <;> rfl
  | _ => cases hi

/-- The four sequences performed whole: the call, and as many lines as they have at most. -/
theorem exec_eq_runAlone {i : Instr} {m : Nat}
    (hi : i = .configure ∧ 8 ≤ m ∨ i = .start ∧ 3 ≤ m ∨ i = .stop ∧ 9 ≤ m ∨ ∃ n, i = .fetch n ∧ 3 * n ≤ m) (s : State) :
    ∃ p fuel, callSequence i s = some p ∧ exec i s = runAlone fuel p ∧ (∀ q t, p = .going q t → q.lineBound ≤ fuel) ∧
      fuel ≤ m := by
  rcases hi with ⟨rfl, hm⟩ | ⟨rfl, hm⟩ | ⟨rfl, hm⟩ | ⟨n, rfl, hm⟩
  · exact ⟨_, 8, rfl, rfl, by rintro _ _ ⟨⟩; exact Nat.le_refl 8, hm⟩
  · exact ⟨_, 3, rfl, rfl, by rintro _ _ ⟨⟩; exact Nat.le_refl 3, hm⟩
  · exact ⟨_, 9, rfl, rfl, by rintro _ _ ⟨⟩; exact Nat.le_refl 9, hm⟩
  · refine ⟨_, 3 * n, rfl, rfl, fun q t hp => ?_, hm⟩
    cases n with
    | zero => cases hp
    | succ n => cases hp; exact Nat.le_refl _

/-- Settles O58: the call puts the sequence in progress, and the turns for its lines lead where it leads alone. -/
theorem callWithNothingBetweenIsTheOperation : Obligations.CallWithNothingBetweenIsTheOperation := by
  intro s f i m rest hs hf hi hp
  obtain ⟨p, fuel, hcall, hexec, hbound, hfuel⟩ := exec_eq_runAlone hi { s with pending := rest }
  have hstate : p.state = { s with pending := rest } := callSequence_cases hcall
  have hstep : step s = .next (p.scheduled (List.replicate m (.line s.running.length) ++ rest)) :=
    (hs.step_eq hp).trans (performTurn_call_scheduled hf hcall _)
  rw [runSteps_of_step hstep, hexec]
  refine runSteps_scheduled fuel ?_ ?_ ?_ hbound hfuel <;> rw [hstate]
  exact hs.withPending rest

end Sys2Proof.Machine
end
